-- ==== Sys2Proof/Word.lean ====
section
/-! DEFINITION. The word types of the GREX-FRAMER core: bytes and packets. -/

namespace Sys2Proof

/-- One byte of a stream, a packet or a buffer (spec 00_scope R9). -/
abbrev Byte := BitVec 8

/-- A command packet: the bytes delivered whole to one port (30_encoding R61). -/
abbrev Packet := List Byte

end Sys2Proof
end

