-- ==== Sys2Proof/Syntax.lean ====
section
/-! DEFINITION. The operations of the core (30_encoding R63): one constructor per row of spec/opcode_table.json, and
the ports they are delivered on. -/

namespace Sys2Proof

/-- The five command ports C, T, R, D and B (30_encoding R62). -/
inductive Port where
  /-- Port C, control: the configurator. -/
  | c
  /-- Port T, transmit: the transmit driver. -/
  | t
  /-- Port R, the receive stream. -/
  | r
  /-- Port D, decode: the decode driver. -/
  | d
  /-- Port B, buffers: the downstream consumer. -/
  | b
deriving DecidableEq, Repr

/-- The twelve operations with their operands (30_encoding R64, R68 to R72). -/
inductive Instr where
  /-- `NOP` (45_system R137). -/
  | nop
  /-- `RESET` (45_system R138). -/
  | reset
  /-- `CFG` (40_config R86). `wo` is `fl[0]`; `ac` is `none` when `acp = 0`; `thr` is the signed operand's byte;
  `sps` is unsigned Q16.16. -/
  | cfg (wo : Bool) (ac : Option (List Byte)) (thr : Byte) (bps : Byte) (sps : BitVec 32)
  /-- `CANCEL` (45_system R139). -/
  | cancel
  /-- `RDCSR idx` (45_system R140). -/
  | rdcsr (idx : Byte)
  /-- `TXEV kind, len, data`, `len` being the length of `data` (41_encoder R96). -/
  | txev (kind : Byte) (data : List Byte)
  /-- `TXDRAIN cap` (42_output_queue R102). -/
  | txdrain (cap : BitVec 16)
  /-- `RXBIT b` (43_correlator R112). -/
  | rxbit (b : Bool)
  /-- `RXBYTE v` (43_correlator R117). -/
  | rxbyte (v : Byte)
  /-- `DEC` (44_decoder_pool R124). -/
  | dec
  /-- `BUFRD h, off` (44_decoder_pool R132). -/
  | bufrd (h : Byte) (off : BitVec 16)
  /-- `REL h` (44_decoder_pool R133). -/
  | rel (h : Byte)
deriving DecidableEq, Repr

end Sys2Proof
end

