-- ==== Sys2Proof/WellFormed.lean ====
section
/-! DEFINITION. Which terms of `Instr` are operations a packet can carry: the two variable-length operands must fit
their length fields (30_encoding R64, R68, R69). Every other operand has the width of its field by its type. -/

namespace Sys2Proof

/-- `alen` is one byte: at most 255 characters of access code. -/
def accessCodeFits (ac : Option (List Byte)) : Bool :=
  match ac with
  | none => true
  | some s => decide (s.length < 256)

/-- `len` is two bytes: at most 65535 bytes of data. -/
def dataFits (data : List Byte) : Bool := decide (data.length < 65536)

/-- The operation can be carried by a packet. -/
def Instr.wellFormed : Instr → Bool
  | .nop => true
  | .reset => true
  | .cfg _ ac _ _ _ => accessCodeFits ac
  | .cancel => true
  | .rdcsr _ => true
  | .txev _ data => dataFits data
  | .txdrain _ => true
  | .rxbit _ => true
  | .rxbyte _ => true
  | .dec => true
  | .bufrd _ _ => true
  | .rel _ => true

end Sys2Proof
end

