-- ==== Sys2Proof/Decode.lean ====
section
/-! DEFINITION. The encoding of operations (30_encoding.md): the opcode table, the decoder, total on any bytes and
rejecting by name, and the encoder written from the same tables. -/

namespace Sys2Proof

/-! ### Byte order: big-endian (20_memory R47 (c)) -/

/-- The 16-bit number of two packet bytes, the more significant first. -/
def be16 (hi lo : Byte) : BitVec 16 := hi ++ lo

/-- The 32-bit number of four packet bytes, the most significant first. -/
def be32 (b3 b2 b1 b0 : Byte) : BitVec 32 := b3 ++ b2 ++ b1 ++ b0

/-- Byte `k` of a number, byte 0 the least significant. -/
def byteOf {w : Nat} (v : BitVec w) (k : Nat) : Byte := v.extractLsb' (8 * k) 8

/-- The two bytes of a 16-bit field, the more significant first. -/
def bytes16 (v : BitVec 16) : List Byte := [byteOf v 1, byteOf v 0]

/-- The four bytes of a 32-bit field, the most significant first. -/
def bytes32 (v : BitVec 32) : List Byte := [byteOf v 3, byteOf v 2, byteOf v 1, byteOf v 0]

/-- The eight bytes of a 64-bit field, the most significant first. -/
def bytes64 (v : BitVec 64) : List Byte :=
  [byteOf v 7, byteOf v 6, byteOf v 5, byteOf v 4, byteOf v 3, byteOf v 2, byteOf v 1, byteOf v 0]

/-! ### The opcode table (30_encoding R63) -/

/-- The packet formats (30_encoding R64). -/
inductive Format where
  /-- Opcode alone, 1 byte. -/
  | z
  /-- One 8-bit operand, 2 bytes. -/
  | a
  /-- One 16-bit operand, 3 bytes. -/
  | w
  /-- An 8-bit and a 16-bit operand, 4 bytes. -/
  | h
  /-- Kind, 16-bit length, data: `4 + len` bytes. -/
  | v
  /-- The `CFG` layout, `9 + alen` bytes. -/
  | k
deriving DecidableEq, Repr

/-- The twelve mnemonics. -/
inductive Mnemonic where
  | nop | reset | cfg | cancel | rdcsr | txev | txdrain | rxbit | rxbyte | dec | bufrd | rel
deriving DecidableEq, Repr

/-- One row of the opcode table: a packet is of the row when `c[0] & mask = value`. -/
structure OpRow where
  /-- The operation. -/
  op : Mnemonic
  /-- `match` of the row. -/
  value : Byte
  /-- `mask` of the row. -/
  mask : Byte
  /-- The only port that accepts it (30_encoding R62). -/
  port : Port
  /-- Its packet format. -/
  format : Format
deriving DecidableEq, Repr

/-- The opcode table of 30_encoding R63. -/
def opTable : List OpRow :=
  [ ⟨.nop, 0x00, 0xFF, .c, .z⟩,
    ⟨.reset, 0x01, 0xFF, .c, .z⟩,
    ⟨.cfg, 0x02, 0xFF, .c, .k⟩,
    ⟨.cancel, 0x03, 0xFF, .c, .z⟩,
    ⟨.rdcsr, 0x04, 0xFF, .c, .a⟩,
    ⟨.txev, 0x10, 0xFF, .t, .v⟩,
    ⟨.txdrain, 0x11, 0xFF, .t, .w⟩,
    ⟨.rxbit, 0x20, 0xFE, .r, .z⟩,
    ⟨.rxbyte, 0x22, 0xFF, .r, .a⟩,
    ⟨.dec, 0x30, 0xFF, .d, .z⟩,
    ⟨.bufrd, 0x31, 0xFF, .b, .h⟩,
    ⟨.rel, 0x32, 0xFF, .b, .a⟩ ]

/-- Does the first byte belong to this row? -/
def OpRow.matches (r : OpRow) (c0 : Byte) : Bool := c0 &&& r.mask == r.value

/-- The row of a first byte; `none` for the reserved values (30_encoding R73). -/
def rowOf (c0 : Byte) : Option OpRow := opTable.find? (fun r => r.matches c0)

/-! ### The decoder -/

/-- Why a packet is `ILLEGAL` (30_encoding R73). -/
inductive Illegal where
  /-- A packet of no bytes has no opcode (DEDUCED, log 10). -/
  | emptyPacket
  /-- `c[0]` is none of the thirteen opcode values. -/
  | reservedOpcode
  /-- The packet arrived on a port other than its opcode's. -/
  | wrongPort
  /-- The length is not the one the format gives. -/
  | wrongLength
  /-- A `CFG` with `fl[7:2]` not 0, or with `acp = 0` and `alen` not 0. -/
  | reservedField
deriving DecidableEq, Repr

/-- Format Z after the opcode. -/
def operandsZ (i : Instr) : List Byte → Except Illegal Instr
  | [] => .ok i
  | _ :: _ => .error .wrongLength

/-- Format A after the opcode. -/
def operandsA (f : Byte → Instr) : List Byte → Except Illegal Instr
  | [x] => .ok (f x)
  | _ => .error .wrongLength

/-- Format W after the opcode. -/
def operandsW (f : BitVec 16 → Instr) : List Byte → Except Illegal Instr
  | [hi, lo] => .ok (f (be16 hi lo))
  | _ => .error .wrongLength

/-- Format H after the opcode. -/
def operandsH (f : Byte → BitVec 16 → Instr) : List Byte → Except Illegal Instr
  | [x, hi, lo] => .ok (f x (be16 hi lo))
  | _ => .error .wrongLength

/-- Format V after the opcode (30_encoding R69). -/
def operandsV (f : Byte → List Byte → Instr) : List Byte → Except Illegal Instr
  | kind :: hi :: lo :: data =>
    if data.length = (be16 hi lo).toNat then .ok (f kind data) else .error .wrongLength
  | _ => .error .wrongLength

/-- Format K after the opcode (30_encoding R68): `fl`, `thr`, `bps`, `sps`, `alen`, `ac`. -/
def operandsK : List Byte → Except Illegal Instr
  | fl :: thr :: bps :: s3 :: s2 :: s1 :: s0 :: alen :: ac =>
    if ac.length ≠ alen.toNat then .error .wrongLength
    else if fl.extractLsb' 2 6 ≠ 0 then .error .reservedField
    else if fl.getLsbD 1 then .ok (.cfg (fl.getLsbD 0) (some ac) thr bps (be32 s3 s2 s1 s0))
    else if alen ≠ 0 then .error .reservedField
    else .ok (.cfg (fl.getLsbD 0) none thr bps (be32 s3 s2 s1 s0))
  | _ => .error .wrongLength

/-- The operands of a packet whose row is known, from its first byte and the rest. -/
def operands (op : Mnemonic) (c0 : Byte) (args : List Byte) : Except Illegal Instr :=
  match op with
  | .nop => operandsZ .nop args
  | .reset => operandsZ .reset args
  | .cfg => operandsK args
  | .cancel => operandsZ .cancel args
  | .rdcsr => operandsA .rdcsr args
  | .txev => operandsV .txev args
  | .txdrain => operandsW .txdrain args
  | .rxbit => operandsZ (.rxbit (c0.getLsbD 0)) args
  | .rxbyte => operandsA .rxbyte args
  | .dec => operandsZ .dec args
  | .bufrd => operandsH .bufrd args
  | .rel => operandsA .rel args

/-- Decoding a packet that arrived on port `p`: total, `ILLEGAL` by name (30_encoding R73, R77). -/
def decode (p : Port) (c : Packet) : Except Illegal Instr :=
  match c with
  | [] => .error .emptyPacket
  | c0 :: args =>
    match rowOf c0 with
    | none => .error .reservedOpcode
    | some r => if r.port = p then operands r.op c0 args else .error .wrongPort

/-! ### The encoder -/

/-- The mnemonic of an operation. -/
def Instr.mnemonic : Instr → Mnemonic
  | .nop => .nop
  | .reset => .reset
  | .cfg _ _ _ _ _ => .cfg
  | .cancel => .cancel
  | .rdcsr _ => .rdcsr
  | .txev _ _ => .txev
  | .txdrain _ => .txdrain
  | .rxbit _ => .rxbit
  | .rxbyte _ => .rxbyte
  | .dec => .dec
  | .bufrd _ _ => .bufrd
  | .rel _ => .rel

/-- The port of a mnemonic (30_encoding R62). -/
def Mnemonic.port : Mnemonic → Port
  | .nop | .reset | .cfg | .cancel | .rdcsr => .c
  | .txev | .txdrain => .t
  | .rxbit | .rxbyte => .r
  | .dec => .d
  | .bufrd | .rel => .b

/-- The port an operation is delivered on. -/
def Instr.port (i : Instr) : Port := i.mnemonic.port

/-- The flag byte of a `CFG` packet (30_encoding R68). -/
def cfgFlags (wo acp : Bool) : Byte := (BitVec.ofBool acp ++ BitVec.ofBool wo).setWidth 8

/-- The command packet of an operation (30_encoding R63, R64). -/
def encode : Instr → Packet
  | .nop => [0x00]
  | .reset => [0x01]
  | .cfg wo none thr bps sps => [0x02, cfgFlags wo false, thr, bps] ++ bytes32 sps ++ [0x00]
  | .cfg wo (some ac) thr bps sps =>
    [0x02, cfgFlags wo true, thr, bps] ++ bytes32 sps ++ (BitVec.ofNat 8 ac.length :: ac)
  | .cancel => [0x03]
  | .rdcsr idx => [0x04, idx]
  | .txev kind data => [0x10, kind] ++ bytes16 (BitVec.ofNat 16 data.length) ++ data
  | .txdrain cap => 0x11 :: bytes16 cap
  | .rxbit b => [if b then 0x21 else 0x20]
  | .rxbyte v => [0x22, v]
  | .dec => [0x30]
  | .bufrd h off => [0x31, h] ++ bytes16 off
  | .rel h => [0x32, h]

/-! ### Words of the opcode table, as the host numbers them -/

/-- Byte `k` of a table word of `nbits` bits: byte 0 is bits 7..0; every bit above `nbits` is 0. -/
def tableByte (nbits w k : Nat) : Byte := BitVec.ofNat 8 ((w % 2 ^ nbits) / 2 ^ (8 * k))

/-- The length of a packet from its first bytes (30_encoding R74); 1 for a reserved opcode. -/
def packetLength (at_ : Nat → Byte) : Nat :=
  match rowOf (at_ 0) with
  | none => 1
  | some r =>
    match r.format with
    | .z => 1
    | .a => 2
    | .w => 3
    | .h => 4
    | .v => 4 + (be16 (at_ 2) (at_ 3)).toNat
    | .k => 9 + (at_ 8).toNat

/-- The packet of a table word. -/
def tablePacket (nbits w : Nat) : Packet :=
  (List.range (packetLength (tableByte nbits w))).map (tableByte nbits w)

/-- The port a table word's opcode is accepted on; port C for a reserved opcode. -/
def tablePort (nbits w : Nat) : Port :=
  match rowOf (tableByte nbits w 0) with
  | none => .c
  | some r => r.port

/-- What the decoder reads from a table word (none where it refuses). -/
def decodeTableWord (nbits w : Nat) : Option Instr :=
  match decode (tablePort nbits w) (tablePacket nbits w) with
  | .ok i => some i
  | .error _ => none

end Sys2Proof
end

