-- ==== Sys2Proof/Config.lean ====
section
/-! DEFINITION. What an implementation fixes (00_scope R5, R6, R7): the constants the source gives, and the parameters
of the machine as the structure `Config.Params`, of which `Config.params` is the value `exec` runs on. -/

namespace Sys2Proof

/-- The reference value of `POOL_N`, the number of pooled buffers (00_scope R5; log 2). -/
abbrev Config.poolN : Nat := 16

/-- The reference value of `POOL_C`, the capacity of a pooled buffer in bytes (00_scope R5; log 2). -/
abbrev Config.poolC : Nat := 4096

/-- `AC_MIN`, the least access-code length in bits (00_scope R5). -/
abbrev Config.acMin : Nat := 1

/-- `AC_MAX`, the greatest access-code length (00_scope R5). -/
abbrev Config.acMax : Nat := 64

/-- `THR_DEFAULT`, the threshold the sentinel -1 resolves to (00_scope R5, 40_config R84). -/
abbrev Config.thrDefault : BitVec 7 := 12

/-- `THR_SENTINEL`, the threshold operand that means "unspecified" (00_scope R5). -/
abbrev Config.thrSentinel : Int := -1

/-- `WOFF_MOD`, what the whitener offset wraps modulo (00_scope R5, 41_encoder R93). -/
abbrev Config.woffMod : Nat := 16

/-- `PAD`, the value the packing primitive is always called with: no padding of its own (00_scope R5). The function
`packBody` of R7 is that primitive with `pad = PAD`, so no operation reads it. -/
abbrev Config.pad : Bool := false

/-- `WEN_DEFAULT`, what a missing `wo=` assembles to (00_scope R5, 30_encoding R75). -/
abbrev Config.wenDefault : Bool := false

/-- The reference value of `T_IDLE` and `T_BACKOFF`, in milliseconds (00_scope R5). -/
abbrev Config.sleepReferenceMs : Nat := 10

/-- `HDR_BITS`, the header length in bits (00_scope R6, D7). -/
abbrev Config.hdrBits : Nat := 32

/-- `BODY_MAX`, the greatest body length a header can carry (00_scope R6, D7). -/
abbrev Config.bodyMax : Nat := 4095

/-- `IN_RESERVE`, the reserved items on input 0 (00_scope R5; it needs no action, 70_reset R161). -/
abbrev Config.inReserve : Nat := 0

/-- The arguments of the model (92_eei_decisions section 2; 00_scope R6, R7). A claim that must hold of every
implementation quantifies over a value of this type. -/
structure Config.Params where
  /-- `POOL_N`, the number of pooled buffers (00_scope R5). -/
  poolN : Nat
  /-- `POOL_C`, the capacity of a pooled buffer in bytes (00_scope R5). -/
  poolC : Nat
  /-- `DEFAULT_AC`, the characters of the default access code, first sent first (U8). -/
  defaultAc : List Byte
  /-- `PREAMBLE_BITS`, the bits sent before the access code (U8). -/
  preamble : List Bool
  /-- `pack_body(payload, sps, bps, off)`, the black box of the encode path (R7). -/
  packBody : List Byte → BitVec 32 → Byte → BitVec 4 → List Byte
  /-- `unpack(raw_bytes, aux_arg)`, answering `(ok, payload)` (R7). -/
  unpack : List Byte → BitVec 4 → Bool × List Byte
  /-- `arb_pick`: the position, modulo its length, of the chosen handle in the ascending list of free handles
  (44_decoder_pool R130). Every choice function on non-empty sets has this form. -/
  arbPick : List Nat → Nat
  /-- `T_IDLE` in milliseconds (U13; reference 10). -/
  tIdleMs : Nat
  /-- `T_BACKOFF` in milliseconds (U13; reference 10). -/
  tBackoffMs : Nat
  /-- `F_CLK` in cycles a millisecond; it only converts the two sleeps to cycles (R6). -/
  fClk : Nat
deriving Inhabited

/-- FREE VALUE (log 1). The open parameters of this implementation: nothing is known of them. -/
opaque Config.freeParams : Config.Params

/-- The parameters `exec` runs on: the pool has the reference sizes (log 2), everything else is free (log 1). -/
def Config.params : Config.Params :=
  { Config.freeParams with poolN := Config.poolN, poolC := Config.poolC }

/-- The sizes the state's and the packets' fields have room for (log 2): a handle is a bit of the 64-bit `POOLFREE`
(10_state R37) and a length has 13 bits (10_state R34). A claim about other sizes than the reference ones has it as a
premise. -/
abbrev Config.Params.SizesFit (P : Config.Params) : Prop :=
  0 < P.poolN ∧ P.poolN ≤ 64 ∧ 0 < P.poolC ∧ P.poolC < 2 ^ 13

/-- `PB-ROUNDTRIP` of 00_scope R7, a property of the black boxes that a claim may assume. -/
def Config.Params.RoundTrip (P : Config.Params) : Prop :=
  ∀ (payload : List Byte) (sps : BitVec 32) (bps : Byte) (o : BitVec 4),
    (P.packBody payload sps bps o).length ≤ Config.bodyMax →
      P.unpack (P.packBody payload sps bps o) o = (true, payload)

end Sys2Proof
end

