-- ==== Sys2Proof/Machine/State.lean ====
section
/-! DEFINITION. The state of the GREX-FRAMER core (10_state.md), the reasons a step can stop, and the state after
reset. `Block` is the architectural state of rules R15 to R35; `State` adds the operations in progress, the packets
and turns still to come, and the responses given. -/

namespace Sys2Proof.Machine

/-- Why the machine stops with a fault. Neither is reachable from reset (Safety.lean, `PoolOk`). -/
inductive Fault where
  /-- `BUFRD` of a byte of the pool that nothing has written since reset: the spec leaves its value unspecified (U5)
  and says no such byte is ever read (20_memory R43). Safe (log 3). -/
  | unwrittenPoolByte (h off : Nat)
  /-- `BUFRD` at an offset of `POOL_C` or more, where the pool has no byte (20_memory R43, R52). Safe (log 3). -/
  | noSuchPoolByte (h off : Nat)
deriving DecidableEq, Repr

/-- Why the model gives an operation no meaning. -/
inductive Refusal where
  /-- An operation without a meaning yet, by its table mnemonic; raised by a refused arm of `exec` only. Safe. -/
  | notModelled (mnemonic : String)
  /-- A `CFG` that would construct the component with `sps = 0`, `bps = 0` or a threshold of -2 or less: the spec
  refuses it (40_config R84, R88; U3). Safe (log 4). -/
  | cfgOperandUnspecified
deriving DecidableEq, Repr

/-- Who owns a pooled buffer between operations (44_decoder_pool R131). -/
inductive Ownership where
  /-- `FREE`: the pool owns it. -/
  | free
  /-- `INFLIGHT`: the downstream consumer owns it. -/
  | inflight
deriving DecidableEq, Repr

/-- `POOL[h].own` and `POOL[h].len` (10_state R34); the data bytes are in `Block.mem`. -/
structure Buf where
  /-- Who owns the buffer. -/
  own : Ownership
  /-- The number of valid bytes. -/
  len : BitVec 13
deriving DecidableEq, Repr

/-- `RXSTATE` (10_state R28); the fourth value of the 2-bit register is never taken (log 12). -/
inductive RxState where
  /-- SEARCH, the source's Searching. -/
  | search
  /-- HEADER, the first part of the source's Framed. -/
  | header
  /-- BODY, the second part of the source's Framed. -/
  | body
deriving DecidableEq, Repr

/-- A candidate frame `(raw_bytes, aux_arg)` (10_state R33). -/
structure Candidate where
  /-- The body bytes as received. -/
  raw : List Byte
  /-- The header's offset field. -/
  aux : BitVec 4
deriving DecidableEq, Repr

/-- An event on port E (30_encoding R67). -/
inductive Event where
  /-- `Datagram(h, n)`: buffer `h` holds a payload of `n` bytes. -/
  | datagram (h n : Nat)
  /-- `Fail`: a candidate whose unpack failed. -/
  | fail
deriving DecidableEq, Repr

/-- The status codes (30_encoding R66). -/
inductive Status where
  | ok | idle | backoff | canceled | cfgErr | notReady | badState | badArg | illegal | faulted | tooLong
deriving DecidableEq, Repr

/-- A response packet: its port, status and result bytes (30_encoding R65). -/
structure Response where
  /-- The port it is sent on: the one the command came on. -/
  port : Port
  /-- `r[0]`. -/
  status : Status
  /-- The result fields. -/
  results : List Byte
deriving DecidableEq, Repr

/-- One entry of the interleaving: which port moves next, and how far (20_memory R50, R54; log 5, log 7). -/
inductive Turn where
  /-- The port goes on with its operation in progress, or begins its next packet, and runs it to its end or hold. -/
  | run (p : Port)
  /-- Port R makes one bit step of an `RXBYTE`, leaving the rest of the byte for later turns. -/
  | rxStep
deriving DecidableEq, Repr

/-- The packets issued on each port and not yet begun, oldest first (20_memory R54). -/
structure Inputs where
  /-- Port C. -/
  c : List Packet
  /-- Port T. -/
  t : List Packet
  /-- Port R. -/
  r : List Packet
  /-- Port D. -/
  d : List Packet
  /-- Port B. -/
  b : List Packet
deriving DecidableEq, Repr

/-- The architectural state of the block (10_state R14 to R35). -/
structure Block where
  /-- `READY` (R15). -/
  ready : Bool
  /-- `STOP` (R16). -/
  stop : Bool
  /-- `FAULT` (R17). -/
  fault : Bool
  /-- `CFGERR` (R18). -/
  cfgErr : Bool
  /-- `CFGCAUSE` (R18). -/
  cfgCause : BitVec 2
  /-- `ACLEN`, the pattern length `L` (R19). -/
  acLen : BitVec 7
  /-- `PAT` (R20). -/
  pat : BitVec 64
  /-- `THR` (R21). -/
  thr : BitVec 7
  /-- `WEN` (R22). -/
  wen : Bool
  /-- `SPS`, unsigned Q16.16 (R24). -/
  sps : BitVec 32
  /-- `BPS` (R24). -/
  bps : BitVec 8
  /-- `WOFF` (R23). -/
  wOff : BitVec 4
  /-- `PQ`, the pending output bytes, oldest first (R25). -/
  pq : List Byte
  /-- `SR` (R26). -/
  sr : BitVec 64
  /-- `FILL` (R27). -/
  fill : BitVec 7
  /-- `RXSTATE` (R28). -/
  rxState : RxState
  /-- `RXCNT` (R29). -/
  rxCnt : BitVec 16
  /-- `HACC` (R30). -/
  hAcc : BitVec 32
  /-- `AUX` (R31). -/
  aux : BitVec 4
  /-- `BLEN` (R31). -/
  bLen : BitVec 12
  /-- `BACC` (R32). -/
  bAcc : BitVec 8
  /-- `RAW` (R32). -/
  raw : List Byte
  /-- `CQ`, the candidate queue, oldest first (R33). -/
  cq : List Candidate
  /-- `POOL[h].own` and `POOL[h].len` (R34), one entry for each of the `POOL_N` buffers, in the order of handles. -/
  pool : List Buf
  /-- `POOL[h].data` (R34): the bytes written so far, byte `(h, off)` at address `65536 h + off` (log 14), addresses
  strictly rising. An unlisted address has no value (log 3). -/
  mem : List Host.Cell
  /-- `TXOUT` (R35). -/
  txOut : List Byte
  /-- `EVOUT` (R35). -/
  evOut : List Event
  /-- `IDLETMR`, in cycles (R35, 60_exceptions R155). -/
  idleTmr : Nat
  /-- `BKOTMR`, in cycles (R35, 60_exceptions R155). -/
  bkoTmr : Nat
deriving DecidableEq, Repr

/-- The machine: the block, its operations in progress, its inputs to come and its responses so far. -/
structure State where
  /-- The block. -/
  blk : Block
  /-- A `DEC` is held on port D (20_memory R55). -/
  decHeld : Bool
  /-- The bits of an `RXBYTE` in progress on port R that are not yet taken, next first (20_memory R50; log 7). -/
  rxPend : List Bool
  /-- The packets issued and not yet begun (log 5). -/
  inputs : Inputs
  /-- The interleaving to come, next first (log 5). -/
  turns : List Turn
  /-- The responses given, oldest first (log 8). -/
  responses : List Response
deriving DecidableEq, Repr

/-- The block with `n` pooled buffers after power-on or `RESET` (10_state R40, 70_reset R160). -/
def Block.resetWith (n : Nat) : Block where
  ready := false
  stop := false
  fault := false
  cfgErr := false
  cfgCause := 0
  acLen := 0
  pat := 0
  thr := 0
  wen := false
  sps := 0
  bps := 0
  wOff := 0
  pq := []
  sr := 0
  fill := 0
  rxState := .search
  rxCnt := 0
  hAcc := 0
  aux := 0
  bLen := 0
  bAcc := 0
  raw := []
  cq := []
  pool := List.replicate n ⟨.free, 0⟩
  mem := []
  txOut := []
  evOut := []
  idleTmr := 0
  bkoTmr := 0

/-- The block of the reference size after power-on or `RESET`. -/
def Block.reset : Block := Block.resetWith Config.poolN

/-- The machine with `n` pooled buffers after power-on: the block reset, no operation in progress (70_reset R162),
nothing issued yet. -/
def State.resetWith (n : Nat) : State where
  blk := Block.resetWith n
  decHeld := false
  rxPend := []
  inputs := ⟨[], [], [], [], []⟩
  turns := []
  responses := []

/-- The machine of the reference size after power-on. -/
def State.reset : State := State.resetWith Config.poolN

end Sys2Proof.Machine
end

