-- ==== Sys2Proof/Machine/Ops.lean ====
section
/-! DEFINITION. The named operations over memory, pool, queues and bit sequences, and the end of an operation:
`State.complete` is how every condition is reported, in place of exception entry (60_exceptions R141, R151: nothing
is saved, no mode changes, no control is transferred; R152: there is no return). -/

namespace Sys2Proof.Machine

/-! ### Bits and bytes (00_scope R9, 20_memory R47) -/

/-- `bits_msb(v, w)`: the `w` low bits of `v`, bit `w - 1` first. -/
def bitsMsb : Nat → Nat → List Bool
  | 0, _ => []
  | w + 1, v => v.testBit w :: bitsMsb w v

/-- The eight bits of a byte, the most significant first. -/
def byteBits (v : Byte) : List Bool := bitsMsb 8 v.toNat

/-- The number 0 or 1 of a bit. -/
def bitNat (b : Bool) : Nat := if b then 1 else 0

/-- The byte of eight bits, the first the most significant. -/
def byteOfBits (b7 b6 b5 b4 b3 b2 b1 b0 : Bool) : Byte :=
  BitVec.ofNat 8 (128 * bitNat b7 + 64 * bitNat b6 + 32 * bitNat b5 + 16 * bitNat b4 + 8 * bitNat b3
    + 4 * bitNat b2 + 2 * bitNat b1 + bitNat b0)

/-- `bytes_of(bs)`, for a bit sequence whose length is a multiple of 8. -/
def bytesOfBits : List Bool → List Byte
  | b7 :: b6 :: b5 :: b4 :: b3 :: b2 :: b1 :: b0 :: rest => byteOfBits b7 b6 b5 b4 b3 b2 b1 b0 :: bytesOfBits rest
  | _ => []

/-- `popcount` of a 64-bit word (00_scope R10). -/
def popcount (x : BitVec 64) : Nat := (List.range 64).countP x.getLsbD

/-- The mask `2^L - 1` on 64 bits. -/
def lowMask (n : Nat) : BitVec 64 := BitVec.ofNat 64 (2 ^ n - 1)

/-- The count of `RXCNT`: down by 1, never below 0 (00_scope R11 (5); log 11). -/
def countDown (c : BitVec 16) : BitVec 16 := if c = 0 then 0 else c - 1

/-- The count of `FILL`: `min(FILL + 1, 64)` (43_correlator R112). -/
def fillUp (f : BitVec 7) : BitVec 7 := BitVec.ofNat 7 (min (f.toNat + 1) 64)

/-! ### Pool memory (20_memory R43, R52) -/

/-- The byte listed at an address, if any. -/
def memRead : List Host.Cell → Nat → Option Byte
  | [], _ => none
  | (a, v) :: m, x => if a = x then some v else memRead m x

/-- Writing one byte, in the canonical form: strictly rising addresses. -/
def memWrite : List Host.Cell → Nat → Byte → List Host.Cell
  | [], x, v => [(x, v)]
  | (a, w) :: m, x, v =>
    if x < a then (x, v) :: (a, w) :: m
    else if x = a then (x, v) :: m
    else (a, w) :: memWrite m x v

/-- Writing a run of bytes upward from an address. -/
def memWriteRun : List Host.Cell → Nat → List Byte → List Host.Cell
  | m, _, [] => m
  | m, x, v :: vs => memWriteRun (memWrite m x v) (x + 1) vs

/-- The canonical form: addresses strictly rising. (No byte is equal to "no value", which is what an unlisted address
reads as.) -/
def memRising : List Host.Cell → Bool
  | [] => true
  | [_] => true
  | (a, _) :: (b, w) :: m => decide (a < b) && memRising ((b, w) :: m)

/-- What separates two buffers in the numbering of the pool's bytes: an offset is a 16-bit operand (log 14). -/
abbrev poolStride : Nat := 65536

/-- The address of byte `off` of buffer `h` (log 14). -/
def poolAddr (h off : Nat) : Nat := poolStride * h + off

/-- The address is of one of the `POOL_N * POOL_C` bytes of the pool (20_memory R42, R43). -/
def addrExists (P : Config.Params) (a : Nat) : Bool :=
  decide (a / poolStride < P.poolN) && decide (a % poolStride < P.poolC)

/-- Every listed address exists. -/
def memInRange (P : Config.Params) (m : List Host.Cell) : Bool := m.all (fun c => addrExists P c.1)

/-- The canonical form of the pool memory. -/
def Memory.wf (P : Config.Params) (m : List Host.Cell) : Bool := memRising m && memInRange P m

/-- `MemRead(POOL, h, off, 1)` (00_scope R10): `none` where no byte has been written. -/
def Block.poolByte (k : Block) (h off : Nat) : Option Byte :=
  if off < poolStride then memRead k.mem (poolAddr h off) else none

/-! ### Buffers and the arbiter (44_decoder_pool R130, R131) -/

/-- `POOL[h].own`; `none` for a handle out of range. -/
def Block.own (k : Block) (h : Nat) : Option Ownership := k.pool[h]?.map Buf.own

/-- `POOL[h].len`; `none` for a handle out of range. -/
def Block.len (k : Block) (h : Nat) : Option (BitVec 13) := k.pool[h]?.map Buf.len

/-- The free handles, ascending. -/
def Block.freeHandles (k : Block) : List Nat :=
  (List.range k.pool.length).filter (fun h => decide (k.own h = some .free))

/-- `arb_pick(free)` for the non-empty set `h0 :: hs`: always a member of it. -/
def grant (P : Config.Params) (h0 : Nat) (hs : List Nat) : Nat :=
  ((h0 :: hs)[P.arbPick (h0 :: hs) % (h0 :: hs).length]?).getD h0

/-- `POOL[h].own <- o`. -/
def Block.setOwn (k : Block) (h : Nat) (o : Ownership) : Block :=
  { k with pool := k.pool.modify h (fun b => { b with own := o }) }

/-- The hand-over of rule R126: the candidate leaves `CQ` (its rest is `rest`), the payload is copied to buffer `h`
from offset 0, the buffer becomes `INFLIGHT` with its length, and the `Datagram` event is posted. -/
def Block.handOver (k : Block) (h : Nat) (payload : List Byte) (rest : List Candidate) : Block :=
  { k with
    cq := rest
    mem := memWriteRun k.mem (poolAddr h 0) payload
    pool := k.pool.set h ⟨.inflight, BitVec.ofNat 13 payload.length⟩
    evOut := k.evOut ++ [.datagram h payload.length] }

/-- The candidate leaves `CQ` and the `Fail` event is posted (44_decoder_pool R125). -/
def Block.postFail (k : Block) (rest : List Candidate) : Block :=
  { k with cq := rest, evOut := k.evOut ++ [.fail] }

/-! ### Queues (20_memory R44) -/

/-- Append to `PQ`. -/
def Block.appendPending (k : Block) (bs : List Byte) : Block := { k with pq := k.pq ++ bs }

/-- Remove `n` bytes from the front of `PQ`; they go out on port T (42_output_queue R102). -/
def Block.drain (k : Block) (n : Nat) : Block :=
  { k with pq := k.pq.drop n, txOut := k.txOut ++ k.pq.take n }

/-- Append a candidate to `CQ`. -/
def Block.queueCandidate (k : Block) (c : Candidate) : Block := { k with cq := k.cq ++ [c] }

/-! ### The two sleeps (60_exceptions R155, 70_reset R170; log 9) -/

/-- What a one-shot down-counter holds when the response is sent: it was loaded, and the response waits until it has
reached 0. -/
def oneShotEnd (_load : Nat) : Nat := 0

/-- `wait T_IDLE`: `IDLETMR` is loaded with `T_IDLE` and runs out. -/
def Block.sleepIdle (P : Config.Params) (k : Block) : Block :=
  { k with idleTmr := oneShotEnd (P.tIdleMs * P.fClk) }

/-- `wait T_BACKOFF`: `BKOTMR` is loaded with `T_BACKOFF` and runs out. -/
def Block.sleepBackoff (P : Config.Params) (k : Block) : Block :=
  { k with bkoTmr := oneShotEnd (P.tBackoffMs * P.fClk) }

/-! ### Responses and event records (30_encoding R65 to R67) -/

/-- The code of a status (30_encoding R66). -/
def Status.code : Status → Byte
  | .ok => 0x00
  | .idle => 0x01
  | .backoff => 0x02
  | .canceled => 0x03
  | .cfgErr => 0x80
  | .notReady => 0x81
  | .badState => 0x82
  | .badArg => 0x83
  | .illegal => 0x84
  | .faulted => 0x85
  | .tooLong => 0x86

/-- The response packet's bytes: the status code, then the results. -/
def Response.bytes (r : Response) : List Byte := r.status.code :: r.results

/-- The event record on port E (30_encoding R67). -/
def Event.record : Event → List Byte
  | .datagram h n => [0x01, BitVec.ofNat 8 h] ++ bytes16 (BitVec.ofNat 16 n)
  | .fail => [0x02, 0x00, 0x00, 0x00]

/-- `complete(status, results...)`: the operation ends with block `k` and its response goes out on its port. -/
def State.complete (s : State) (p : Port) (k : Block) (st : Status) (results : List Byte) : State :=
  { s with blk := k, responses := s.responses ++ [⟨p, st, results⟩] }

/-- The end of a `DEC`, held or not: as `complete`, and no `DEC` is in progress any more. -/
def State.completeDec (s : State) (k : Block) (st : Status) (results : List Byte) : State :=
  { s.complete .d k st results with decHeld := false }

/-- The responses given on one port, oldest first. -/
def State.responsesOn (s : State) (p : Port) : List Response := s.responses.filter (fun r => decide (r.port = p))

end Sys2Proof.Machine
end

