-- ==== Sys2Proof/Machine/Flags.lean ====
section
/-! DEFINITION. The status flags READY, STOP, FAULT, CFGERR and CFGCAUSE (10_state R15 to R18): the checks that read
them, in the order of 60_exceptions R150, the writes, and the STATUS word (10_state R38). -/

namespace Sys2Proof.Machine

/-- The checks of every streaming and buffer operation: `FAULTED` before `NOTREADY` (60_exceptions R150 (2), (3)). -/
def Block.gate (k : Block) : Option Status :=
  if k.fault then some .faulted else if k.ready then none else some .notReady

/-- The first three lines of `DEC` (44_decoder_pool R124): the gate, then `STOP`. -/
def Block.decRefusal (k : Block) : Option (Status × List Byte) :=
  match k.gate with
  | some st => some (st, [])
  | none => if k.stop then some (.canceled, [0x00]) else none

/-- `READY <- 1`, `CFGERR <- 0`, `CFGCAUSE <- 0`: the flags of a successful `CFG` (40_config R86). -/
def Block.flagConfigured (k : Block) : Block := { k with ready := true, cfgErr := false, cfgCause := 0 }

/-- `CFGERR <- 1`, `CFGCAUSE <- cause`: the flags of a ConfigurationError (40_config R86, R87). -/
def Block.flagConfigError (k : Block) (cause : BitVec 2) : Block := { k with cfgErr := true, cfgCause := cause }

/-- `STOP <- 1` (45_system R139). -/
def Block.flagStop (k : Block) : Block := { k with stop := true }

/-- `FAULT <- 1` (44_decoder_pool R129, 60_exceptions R148). -/
def Block.flagFault (k : Block) : Block := { k with fault := true }

/-- The 2-bit code of `RXSTATE` (10_state R28). -/
def RxState.code : RxState → BitVec 2
  | .search => 0
  | .header => 1
  | .body => 2

/-- The STATUS word (10_state R38): bits [63:9] 0, WEN, RXSTATE, CFGCAUSE, CFGERR, FAULT, STOP, READY. -/
def Block.statusWord (k : Block) : BitVec 64 :=
  (BitVec.ofBool k.wen ++ k.rxState.code ++ k.cfgCause ++ BitVec.ofBool k.cfgErr ++ BitVec.ofBool k.fault
    ++ BitVec.ofBool k.stop ++ BitVec.ofBool k.ready).setWidth 64

/-- A held `DEC` whose guard now answers `FAULTED`, `NOTREADY` or `CANCELED` completes with it (45_system R138, R139;
log 6). -/
def State.endHold (s : State) : State :=
  if s.decHeld then
    match s.blk.decRefusal with
    | some r => s.completeDec s.blk r.1 r.2
    | none => s
  else s

end Sys2Proof.Machine
end

