-- ==== Sys2Proof/Machine/Operands.lean ====
section
/-! DEFINITION. How each operand is read: the access code, the threshold and the operands the spec gives no meaning
(40_config.md), CSR indices (10_state R37), and buffer handles (44_decoder_pool R132, R133). -/

namespace Sys2Proof.Machine

/-! ### The access code (40_config R82, R83, R85) -/

/-- Is the character one of `'0'` (0x30) and `'1'` (0x31)? -/
def isBitChar (c : Byte) : Bool := c == 0x30 || c == 0x31

/-- The bit a character stands for. -/
def charBit (c : Byte) : Bool := c == 0x31

/-- The cause a string fails construction with, in the order of 40_config R86: length 0, length over 64, a symbol
other than `'0'` and `'1'`. `none` is a valid access code (R82). -/
def accessCodeCause (s : List Byte) : Option (BitVec 2) :=
  if s.length < Config.acMin then some 1
  else if Config.acMax < s.length then some 2
  else if s.all isBitChar then none
  else some 3

/-- `PAT` of a valid string: the first character in bit `L - 1`, the last in bit 0 (40_config R85). -/
def patternOf (s : List Byte) : BitVec 64 := s.foldl (fun acc c => acc.shiftConcat (charBit c)) 0

/-- The string a `CFG` validates and uses: the operand, or `DEFAULT_AC` if none is given (40_config R83). -/
def accessCodeOf (P : Config.Params) (ac : Option (List Byte)) : List Byte :=
  match ac with
  | none => P.defaultAc
  | some s => s

/-! ### The numeric operands of CFG (40_config R84, R88) -/

/-- The resolved threshold: -1 is 12, `0 ≤ t ≤ 127` is `t`; only used where `cfgOperandsMeaningful`. -/
def resolvedThreshold (thr : Byte) : BitVec 7 :=
  if thr.toInt = Config.thrSentinel then Config.thrDefault else thr.setWidth 7

/-- The premise of U3: `sps > 0`, `bps > 0`, and a threshold of -1 or of 0..127. -/
def cfgOperandsMeaningful (thr bps : Byte) (sps : BitVec 32) : Bool :=
  decide (Config.thrSentinel ≤ thr.toInt) && decide (bps ≠ 0) && decide (sps ≠ 0)

/-! ### CSR indices (10_state R37) -/

/-- The value of a queue length CSR: `min(len, 2^64 - 1)`. -/
def lengthCsr (n : Nat) : BitVec 64 := BitVec.ofNat 64 (min n (2 ^ 64 - 1))

/-- `POOLFREE`: bit `h` is 1 exactly when buffer `h` is `FREE`. -/
def Block.poolFree (k : Block) : BitVec 64 :=
  k.freeHandles.foldl (fun acc h => acc ||| BitVec.twoPow 64 h) 0

/-- The value of a CSR, zero-extended to 64 bits; `none` for a reserved index. -/
def Block.csr (k : Block) (idx : Byte) : Option (BitVec 64) :=
  match idx.toNat with
  | 0x00 => some k.statusWord
  | 0x01 => some (k.acLen.setWidth 64)
  | 0x02 => some k.pat
  | 0x03 => some (k.thr.setWidth 64)
  | 0x04 => some (k.wOff.setWidth 64)
  | 0x05 => some (k.sps.setWidth 64)
  | 0x06 => some (k.bps.setWidth 64)
  | 0x07 => some (lengthCsr k.pq.length)
  | 0x08 => some k.sr
  | 0x09 => some (k.fill.setWidth 64)
  | 0x0A => some (k.rxCnt.setWidth 64)
  | 0x0B => some (k.hAcc.setWidth 64)
  | 0x0C => some ((k.aux ++ k.bLen).setWidth 64)
  | 0x0D => some (lengthCsr k.cq.length)
  | 0x0E => some k.poolFree
  | n => if 0x10 ≤ n ∧ n < 0x20 then (k.len (n - 0x10)).map (BitVec.setWidth 64) else none

/-! ### Buffer handles (44_decoder_pool R132, R133) -/

/-- The length of the `INFLIGHT` buffer that an operand byte names; `none`, for a handle out of range or a buffer not
`INFLIGHT`, is `BADARG`. -/
def Block.inflightLen (k : Block) (h : Byte) : Option (BitVec 13) :=
  if k.own h.toNat = some .inflight then k.len h.toNat else none

end Sys2Proof.Machine
end

