-- ==== Sys2Proof/Machine/Buffers.lean ====
section
/-! DEFINITION. The downstream consumer's operations BUFRD and REL (44_decoder_pool R132, R133). -/

namespace Sys2Proof.Machine

/-- Reading a byte of a buffer the consumer owns. The two faults are unreachable from reset (20_memory R43; log 3). -/
def readOwned (P : Config.Params) (h off : Nat) (s : State) : Host.Outcome State Fault Refusal :=
  if P.poolC ≤ off then .fault (.noSuchPoolByte h off)
  else
    match s.blk.poolByte h off with
    | some v => .next (s.complete .b s.blk .ok [v])
    | none => .fault (.unwrittenPoolByte h off)

/-- `BUFRD h, off` over the parameters `P` (44_decoder_pool R132): the gate; `BADARG` for a handle out of range, a buffer
not `INFLIGHT` or an offset not below its length; else one byte. No state change. -/
def execBufrdWith (P : Config.Params) (h : Byte) (off : BitVec 16) (s : State) : Host.Outcome State Fault Refusal :=
  match s.blk.gate with
  | some st => .next (s.complete .b s.blk st [])
  | none =>
    match s.blk.inflightLen h with
    | none => .next (s.complete .b s.blk .badArg [])
    | some len =>
      if off.toNat < len.toNat then readOwned P h.toNat off.toNat s
      else .next (s.complete .b s.blk .badArg [])

/-- `BUFRD h, off` (44_decoder_pool R132). -/
def execBufrd (h : Byte) (off : BitVec 16) (s : State) : Host.Outcome State Fault Refusal :=
  execBufrdWith Config.params h off s

/-- `REL h` (44_decoder_pool R133): the gate; `BADARG` for a handle out of range or a buffer not `INFLIGHT`; else the
buffer returns to the pool, its length and data as they are. -/
def execRel (h : Byte) (s : State) : Host.Outcome State Fault Refusal :=
  match s.blk.gate with
  | some st => .next (s.complete .b s.blk st [])
  | none =>
    match s.blk.inflightLen h with
    | none => .next (s.complete .b s.blk .badArg [])
    | some _ => .next (s.complete .b (s.blk.setOwn h.toNat .free) .ok [])

end Sys2Proof.Machine
end

