-- ==== Sys2Proof/Machine/Configure.lean ====
section
/-! DEFINITION. CFG (40_config.md), the source's construction of the component. -/

namespace Sys2Proof.Machine

/-- The block of `n` pooled buffers that a successful `CFG` constructs (40_config R86, 10_state R40): the six
configuration registers from the operands and the valid string `str`; `STOP` and the pool data as they were; everything
else at its reset value (`FAULT` among it, which is 0 wherever a `CFG` gets this far); then the flags. -/
def Block.construct (n : Nat) (k : Block) (str : List Byte) (wo : Bool) (thr bps : Byte) (sps : BitVec 32) : Block :=
  Block.flagConfigured
    { Block.resetWith n with
      stop := k.stop
      mem := k.mem
      acLen := BitVec.ofNat 7 str.length
      pat := patternOf str
      thr := resolvedThreshold thr
      wen := wo
      sps := sps
      bps := bps }

/-- `CFG` over the parameters `P` (40_config R86): `FAULTED`, then `BADSTATE`, then the three causes of
ConfigurationError, then the construction. The construction is refused where the spec gives its operands no meaning
(R84, R88, U3; log 4). -/
def execCfgWith (P : Config.Params) (wo : Bool) (ac : Option (List Byte)) (thr bps : Byte) (sps : BitVec 32)
    (s : State) : Host.Outcome State Fault Refusal :=
  if s.blk.fault then .next (s.complete .c s.blk .faulted [])
  else if s.blk.ready then .next (s.complete .c s.blk .badState [])
  else
    match accessCodeCause (accessCodeOf P ac) with
    | some cause => .next (s.complete .c (s.blk.flagConfigError cause) .cfgErr [cause.setWidth 8])
    | none =>
      if cfgOperandsMeaningful thr bps sps then
        .next (s.complete .c (s.blk.construct P.poolN (accessCodeOf P ac) wo thr bps sps) .ok [])
      else .refused .cfgOperandUnspecified

/-- `CFG` (40_config R86). -/
def execCfg (wo : Bool) (ac : Option (List Byte)) (thr bps : Byte) (sps : BitVec 32) (s : State) :
    Host.Outcome State Fault Refusal := execCfgWith Config.params wo ac thr bps sps s

end Sys2Proof.Machine
end

