-- ==== Sys2Proof/Machine/DecodePath.lean ====
section
/-! DEFINITION. The decode step DEC (44_decoder_pool R123 to R130). -/

namespace Sys2Proof.Machine

/-- DecodedFrame (44_decoder_pool R123). -/
inductive DecodedFrame where
  /-- `Success{payload}`. -/
  | success (payload : List Byte)
  /-- `Failure`. -/
  | failure
deriving DecidableEq, Repr

/-- What the unpacking primitive makes of a candidate; `payload` is ignored when `ok` is false (R123). -/
def decodeCandidate (P : Config.Params) (c : Candidate) : DecodedFrame :=
  if (P.unpack c.raw c.aux).1 then .success (P.unpack c.raw c.aux).2 else .failure

/-- A candidate that unpacked: with no free buffer `BACKOFF` and nothing consumed (R127); a payload over `POOL_C` sets
`FAULT` and nothing else (R129); else the hand-over (R126). -/
def acquireAndPost (P : Config.Params) (payload : List Byte) (rest : List Candidate) (s : State) : State :=
  match s.blk.freeHandles with
  | [] => s.completeDec (s.blk.sleepBackoff P) .backoff [0x00]
  | h0 :: hs =>
    if P.poolC < payload.length then s.completeDec s.blk.flagFault .faulted []
    else s.completeDec (s.blk.handOver (grant P h0 hs) payload rest) .ok [0x01]

/-- `DEC` over the parameters `P` (44_decoder_pool R124): the refusals; an empty `CQ` holds the operation; a failed
unpack posts `Fail` (R125); else a buffer is acquired. -/
def execDecWith (P : Config.Params) (s : State) : Host.Outcome State Fault Refusal :=
  match s.blk.decRefusal with
  | some r => .next (s.completeDec s.blk r.1 r.2)
  | none =>
    match s.blk.cq with
    | [] => .next { s with decHeld := true }
    | c :: rest =>
      match decodeCandidate P c with
      | .failure => .next (s.completeDec (s.blk.postFail rest) .ok [0x02])
      | .success payload => .next (acquireAndPost P payload rest s)

/-- `DEC` (44_decoder_pool R124). -/
def execDec (s : State) : Host.Outcome State Fault Refusal := execDecWith Config.params s

end Sys2Proof.Machine
end

