-- ==== Sys2Proof/Machine/Receive.lean ====
section
/-! DEFINITION. The correlator and the frame assembler (43_correlator.md): RXBIT and RXBYTE. -/

namespace Sys2Proof.Machine

/-! ### The correlator (43_correlator R112, R113) -/

/-- `SR` and `FILL` take the received bit, in every state (43_correlator R112). -/
def Block.shiftIn (k : Block) (b : Bool) : Block := { k with sr := k.sr.shiftConcat b, fill := fillUp k.fill }

/-- The Hamming distance of the window and the pattern (43_correlator R113). -/
def Block.distance (k : Block) : Nat := popcount ((k.sr ^^^ k.pat) &&& lowMask k.acLen.toNat)

/-- A hit: `FILL ≥ L` and `d ≤ THR` (43_correlator R113). -/
def Block.hit (k : Block) : Bool := decide (k.acLen.toNat ≤ k.fill.toNat) && decide (k.distance ≤ k.thr.toNat)

/-! ### The frame assembler (43_correlator R114 to R116), after the shift -/

/-- SEARCH (43_correlator R114). -/
def Block.searchStep (k : Block) : Block :=
  if k.hit then { k with rxState := .header, hAcc := 0, rxCnt := BitVec.ofNat 16 Config.hdrBits } else k

/-- The first header word. -/
def headerHigh (h : BitVec 32) : BitVec 16 := h.extractLsb' 16 16

/-- The second header word. -/
def headerLow (h : BitVec 32) : BitVec 16 := h.extractLsb' 0 16

/-- The end of the header, `HACC` complete (43_correlator R115). -/
def Block.headerEnd (k : Block) : Block :=
  if headerHigh k.hAcc ≠ headerLow k.hAcc then { k with rxState := .search }
  else
    let k1 := { k with
      aux := (headerHigh k.hAcc).extractLsb' 12 4, bLen := (headerHigh k.hAcc).extractLsb' 0 12, raw := [] }
    if k1.bLen = 0 then { k1.queueCandidate ⟨[], k1.aux⟩ with rxState := .search }
    else { k1 with rxState := .body, rxCnt := BitVec.ofNat 16 (8 * k1.bLen.toNat), bAcc := 0 }

/-- HEADER (43_correlator R115). -/
def Block.headerStep (k : Block) (b : Bool) : Block :=
  let k1 := { k with hAcc := k.hAcc.shiftConcat b, rxCnt := countDown k.rxCnt }
  if k1.rxCnt = 0 then k1.headerEnd else k1

/-- BODY (43_correlator R116). -/
def Block.bodyStep (k : Block) (b : Bool) : Block :=
  let k1 := { k with bAcc := k.bAcc.shiftConcat b, rxCnt := countDown k.rxCnt }
  if k1.rxCnt.toNat % 8 = 0 then
    let k2 := { k1 with raw := k1.raw ++ [k1.bAcc] }
    if k2.rxCnt = 0 then { k2.queueCandidate ⟨k2.raw, k2.aux⟩ with rxState := .search } else k2
  else k1

/-- The state changes of one received bit (43_correlator R112). -/
def Block.rxBit (k : Block) (b : Bool) : Block :=
  match k.rxState with
  | .search => (k.shiftIn b).searchStep
  | .header => (k.shiftIn b).headerStep b
  | .body => (k.shiftIn b).bodyStep b

/-- The state changes of several received bits, in order. -/
def Block.rxBits (k : Block) (bs : List Bool) : Block := bs.foldl Block.rxBit k

/-- The bit steps `bs` of an `RXBYTE` whose checks are behind it (43_correlator R117): they are made whatever `FAULT` has
become, but an unconfigured block keeps its reset values (10_state R39 (a); log 7). -/
def Block.byteSteps (k : Block) (bs : List Bool) : Block := if k.ready then k.rxBits bs else k

/-! ### The operations -/

/-- `RXBIT b` (43_correlator R112). -/
def execRxbit (b : Bool) (s : State) : Host.Outcome State Fault Refusal :=
  match s.blk.gate with
  | some st => .next (s.complete .r s.blk st [])
  | none => .next (s.complete .r (s.blk.rxBit b) .ok [])

/-- `RXBYTE v` (43_correlator R117), its eight bit steps one after the other, bit 7 first. (Other ports may come
between them: Machine/Ports.lean, log 7.) -/
def execRxbyte (v : Byte) (s : State) : Host.Outcome State Fault Refusal :=
  match s.blk.gate with
  | some st => .next (s.complete .r s.blk st [])
  | none => .next (s.complete .r (s.blk.rxBits (byteBits v)) .ok [])

end Sys2Proof.Machine
end

