-- ==== Sys2Proof/Machine/System.lean ====
section
/-! DEFINITION. The system operations NOP, RESET, CANCEL and RDCSR (45_system.md), all on port C and accepted in
every lifecycle state, with FAULT set or not. -/

namespace Sys2Proof.Machine

/-- `NOP` (45_system R137): `complete(OK)`. -/
def execNop (s : State) : Host.Outcome State Fault Refusal := .next (s.complete .c s.blk .ok [])

/-- `RESET` over the parameters `P` (45_system R138): every element of the block takes its reset value, `complete(OK)`,
and a `DEC` held at the time completes with `NOTREADY` (log 6). Packets, turns and responses are outside the block
(log 5, log 8); an `RXBYTE` in progress goes on (log 7). -/
def execResetWith (P : Config.Params) (s : State) : Host.Outcome State Fault Refusal :=
  .next (s.complete .c (Block.resetWith P.poolN) .ok []).endHold

/-- `RESET` (45_system R138). -/
def execReset (s : State) : Host.Outcome State Fault Refusal := execResetWith Config.params s

/-- `CANCEL` (45_system R139): `STOP <- 1`, `complete(OK)`, and a held `DEC` completes with `CANCELED` (log 6). -/
def execCancel (s : State) : Host.Outcome State Fault Refusal :=
  .next (s.complete .c s.blk.flagStop .ok []).endHold

/-- `RDCSR idx` (45_system R140): the 64-bit value, big-endian, or `BADARG` for a reserved index; no state change. -/
def execRdcsr (idx : Byte) (s : State) : Host.Outcome State Fault Refusal :=
  match s.blk.csr idx with
  | some v => .next (s.complete .c s.blk .ok (bytes64 v))
  | none => .next (s.complete .c s.blk .badArg [])

end Sys2Proof.Machine
end

