-- ==== Sys2Proof/Machine/Transmit.lean ====
section
/-! DEFINITION. The transmit path: the frame layout and TXEV (41_encoder.md), and TXDRAIN (42_output_queue.md). -/

namespace Sys2Proof.Machine

/-! ### The frame (41_encoder R91, R92) -/

/-- The header word `W`: the offset in bits [15:12], the body length in [11:0]. -/
def headerWord (o : BitVec 4) (bodyLen : Nat) : Nat := o.toNat * 4096 + bodyLen

/-- The header as sent: `W` twice, the most significant bit first. -/
def headerBits (o : BitVec 4) (bodyLen : Nat) : List Bool :=
  bitsMsb 16 (headerWord o bodyLen) ++ bitsMsb 16 (headerWord o bodyLen)

/-- The body as sent. -/
def bodyBits (body : List Byte) : List Bool := body.flatMap byteBits

/-- The access code as sent, the first character first. -/
def codeBits (k : Block) : List Bool := bitsMsb k.acLen.toNat k.pat.toNat

/-- `fbits`: preamble, access code, header, body. -/
def frameBits (preamble : List Bool) (k : Block) (o : BitVec 4) (body : List Byte) : List Bool :=
  preamble ++ codeBits k ++ headerBits o body.length ++ bodyBits body

/-- The zero bits that fill `n` bits up to a whole number of bytes. -/
def padBits (n : Nat) : List Bool := List.replicate ((8 - n % 8) % 8) false

/-- The frame of a body: `bytes_of(fbits ++ [0]*pad)`. -/
def frameOf (preamble : List Bool) (k : Block) (o : BitVec 4) (body : List Byte) : List Byte :=
  bytesOfBits (frameBits preamble k o body ++ padBits (frameBits preamble k o body).length)

/-- The body of a payload at offset `o` (00_scope R7). -/
def bodyOf (P : Config.Params) (k : Block) (payload : List Byte) (o : BitVec 4) : List Byte :=
  P.packBody payload k.sps k.bps o

/-- `encode(P, o)` (41_encoder R91); used only where the body fits `BODY_MAX` (R98). -/
def encodeFrame (P : Config.Params) (k : Block) (payload : List Byte) (o : BitVec 4) : List Byte :=
  frameOf P.preamble k o (bodyOf P k payload o)

/-! ### TXEV (41_encoder R93, R96) -/

/-- `if WEN = 1: WOFF <- (WOFF + 1) mod 16` (41_encoder R93). -/
def Block.advanceWhitener (k : Block) : Block :=
  if k.wen then { k with wOff := BitVec.ofNat 4 ((k.wOff.toNat + 1) % Config.woffMod) } else k

/-- The frame of the payload at the current offset joins `PQ`, and the offset advances (41_encoder R96). -/
def Block.encodeDatagram (P : Config.Params) (k : Block) (payload : List Byte) : Block :=
  (k.appendPending (encodeFrame P k payload k.wOff)).advanceWhitener

/-- `TXEV` over the parameters `P` (41_encoder R96): the gate; another kind is discarded (R97); a body over `BODY_MAX`
is `TOOLONG` (R98); else the datagram is encoded. -/
def execTxevWith (P : Config.Params) (kind : Byte) (data : List Byte) (s : State) : Host.Outcome State Fault Refusal :=
  match s.blk.gate with
  | some st => .next (s.complete .t s.blk st [])
  | none =>
    if kind ≠ 0x01 then .next (s.complete .t s.blk .ok [])
    else if Config.bodyMax < (bodyOf P s.blk data s.blk.wOff).length then .next (s.complete .t s.blk .tooLong [])
    else .next (s.complete .t (s.blk.encodeDatagram P data) .ok [])

/-- `TXEV` (41_encoder R96). -/
def execTxev (kind : Byte) (data : List Byte) (s : State) : Host.Outcome State Fault Refusal :=
  execTxevWith Config.params kind data s

/-! ### TXDRAIN (42_output_queue R102) -/

/-- `n = min(cap, len(PQ))` (42_output_queue R104). -/
def Block.drainCount (k : Block) (cap : BitVec 16) : Nat := min cap.toNat k.pq.length

/-- `TXDRAIN` over the parameters `P` (42_output_queue R102): the gate; an empty queue is `IDLE` with `n = 0` (R103);
else the first `n` bytes leave `PQ` and are returned (R104). -/
def execTxdrainWith (P : Config.Params) (cap : BitVec 16) (s : State) : Host.Outcome State Fault Refusal :=
  match s.blk.gate with
  | some st => .next (s.complete .t s.blk st [])
  | none =>
    if s.blk.pq.isEmpty then .next (s.complete .t (s.blk.sleepIdle P) .idle (bytes16 0))
    else
      .next (s.complete .t (s.blk.drain (s.blk.drainCount cap)) .ok
        (bytes16 (BitVec.ofNat 16 (s.blk.drainCount cap)) ++ s.blk.pq.take (s.blk.drainCount cap)))

/-- `TXDRAIN` (42_output_queue R102). -/
def execTxdrain (cap : BitVec 16) (s : State) : Host.Outcome State Fault Refusal := execTxdrainWith Config.params cap s

end Sys2Proof.Machine
end

