-- ==== Sys2Proof/Machine/Dispatch.lean ====
section
/-! DEFINITION. One operation on the machine: one arm per constructor of `Instr`. -/

namespace Sys2Proof.Machine

def exec (i : Instr) (s : State) : Host.Outcome State Fault Refusal :=
  match i with
  | .nop => Sys2Proof.Machine.execNop s
  | .reset => Sys2Proof.Machine.execReset s
  | .cfg wo ac thr bps sps => Sys2Proof.Machine.execCfg wo ac thr bps sps s
  | .cancel => Sys2Proof.Machine.execCancel s
  | .rdcsr idx => Sys2Proof.Machine.execRdcsr idx s
  | .txev kind data => Sys2Proof.Machine.execTxev kind data s
  | .txdrain cap => Sys2Proof.Machine.execTxdrain cap s
  | .rxbit b => Sys2Proof.Machine.execRxbit b s
  | .rxbyte v => Sys2Proof.Machine.execRxbyte v s
  | .dec => Sys2Proof.Machine.execDec s
  | .bufrd h off => Sys2Proof.Machine.execBufrd h off s
  | .rel h => Sys2Proof.Machine.execRel h s

end Sys2Proof.Machine
end

