-- ==== Sys2Proof/Machine/Ports.lean ====
section
/-! DEFINITION. The ports and their interleaving (20_memory R50, R54, R55): whose turn it is, which operation the turn
goes on with or begins, and the answer to a packet that is no operation. Everything here takes the meaning of an
operation as the argument `ex`, so that it serves `exec` and the meanings over any parameters alike. -/

namespace Sys2Proof.Machine

/-- The meaning of operations that a turn runs. -/
abbrev Meaning := Instr → State → Host.Outcome State Fault Refusal

/-- The packets waiting on a port. -/
def Inputs.get (q : Inputs) (p : Port) : List Packet :=
  match p with
  | .c => q.c
  | .t => q.t
  | .r => q.r
  | .d => q.d
  | .b => q.b

/-- The packets of one port replaced. -/
def Inputs.put (q : Inputs) (p : Port) (ps : List Packet) : Inputs :=
  match p with
  | .c => { q with c := ps }
  | .t => { q with t := ps }
  | .r => { q with r := ps }
  | .d => { q with d := ps }
  | .b => { q with b := ps }

/-- The state once port `p` has begun its next packet, `rest` being what waits behind it. -/
def State.accept (s : State) (p : Port) (rest : List Packet) : State := { s with inputs := s.inputs.put p rest }

/-- One packet on port `p`: the operation it encodes, or `ILLEGAL` and no state change (30_encoding R73). -/
def runPacket (ex : Meaning) (p : Port) (c : Packet) (s : State) : Host.Outcome State Fault Refusal :=
  match decode p c with
  | .ok i => ex i s
  | .error _ => .next (s.complete p s.blk .illegal [])

/-- Port `p` begins its next packet; with none waiting nothing happens. -/
def beginNext (ex : Meaning) (p : Port) (s : State) : Host.Outcome State Fault Refusal :=
  match s.inputs.get p with
  | [] => .next s
  | c :: rest => runPacket ex p c (s.accept p rest)

/-- Port R takes the bits `now` of an `RXBYTE` in progress and leaves the bits `later` (43_correlator R117). The checks of
the operation have been made when it began and are not made again; it answers `OK` with the last bit (log 7). -/
def rxContinue (now later : List Bool) (s : State) : State :=
  if later.isEmpty then { s.complete .r (s.blk.byteSteps now) .ok [] with rxPend := [] }
  else { s with blk := s.blk.byteSteps now, rxPend := later }

/-- The beginning of an `RXBYTE` that is taken bit by bit: the checks, then its first bit step (43_correlator R117). -/
def rxBegin (v : Byte) (s : State) : State :=
  match s.blk.gate with
  | some st => s.complete .r s.blk st []
  | none => rxContinue ((byteBits v).take 1) ((byteBits v).drop 1) s

/-- A turn of port R of one bit step: it goes on with the `RXBYTE` in progress, or begins the next packet, of which an
`RXBYTE` makes its first bit step only. -/
def rxStepTurn (ex : Meaning) (s : State) : Host.Outcome State Fault Refusal :=
  match s.rxPend with
  | b :: later => .next (rxContinue [b] later s)
  | [] =>
    match s.inputs.get .r with
    | [] => .next s
    | c :: rest =>
      match decode .r c with
      | .ok (.rxbyte v) => .next (rxBegin v (s.accept .r rest))
      | _ => beginNext ex .r s

/-- A turn of port `p`: it goes on with the operation in progress on the port (the rest of an `RXBYTE`, a held `DEC`
from its first line), or begins the next packet. -/
def runTurn (ex : Meaning) (p : Port) (s : State) : Host.Outcome State Fault Refusal :=
  match p with
  | .r => if s.rxPend.isEmpty then beginNext ex .r s else .next (rxContinue s.rxPend [] s)
  | .d => if s.decHeld then ex .dec s else beginNext ex .d s
  | .c => beginNext ex .c s
  | .t => beginNext ex .t s
  | .b => beginNext ex .b s

/-- One turn. -/
def takeTurn (ex : Meaning) (t : Turn) (s : State) : Host.Outcome State Fault Refusal :=
  match t with
  | .run p => runTurn ex p s
  | .rxStep => rxStepTurn ex s

/-- One step of the machine: the next turn of the interleaving. With no turn given nothing happens, the block having
no step of its own (00_scope R12). -/
def stepWith (ex : Meaning) (s : State) : Host.Outcome State Fault Refusal :=
  match s.turns with
  | [] => .next s
  | t :: ts => takeTurn ex t { s with turns := ts }

/-- A packet put in front on a port that then gets the next turn; no operation is in progress on that port. -/
def State.deliver (s : State) (p : Port) (c : Packet) : State :=
  { s with
    inputs := s.inputs.put p (c :: s.inputs.get p)
    turns := .run p :: s.turns
    decHeld := if p = .d then false else s.decHeld
    rxPend := if p = .r then [] else s.rxPend }

/-- Several operations one after the other, each run to its end: the launch of a sequence in which no two operations
are in progress at once (95_test_vectors section 3). -/
def execAll (ex : Meaning) : List Instr → State → Host.Outcome State Fault Refusal
  | [], s => .next s
  | i :: is, s =>
    match ex i s with
    | .next s' => execAll ex is s'
    | .fault r => .fault r
    | .refused r => .refused r

end Sys2Proof.Machine
end

