-- ==== Sys2Proof/Machine/Step.lean ====
section
/-! DEFINITION. One step of the machine (the next turn of the interleaving), and the host's way to make a given
operation the next one. -/

namespace Sys2Proof.Machine

/-- One step: the next turn of `State.turns`. -/
def step (s : State) : Host.Outcome State Fault Refusal := stepWith exec s

/-- The packet of a table word delivered on its port, which gets the next turn (log 5). -/
def State.withFetchWord (s : State) (nbits w : Nat) : State := s.deliver (tablePort nbits w) (tablePacket nbits w)

end Sys2Proof.Machine
end

