-- ==== Sys2Proof/Machine/Assembler.lean ====
section
/-! DEFINITION. The assembler's lines and pseudo-operations (30_encoding R75, R76), on lines already split into their
parts: the defaults of `cfg`, the CSR names, and the expansions `rxbytes`, `rxbits`, `txstep` and `loopback`. -/

namespace Sys2Proof.Machine

/-- A decimal number `digits / 10 ^ places`, as `sps=2.5` is `25 / 10`. -/
structure Decimal where
  /-- The digits read as one number. -/
  digits : Nat
  /-- How many of them stand after the point. -/
  places : Nat
deriving DecidableEq, Repr

/-- `round(number * 65536)`, a tie upward (30_encoding R75; log 13). -/
def Decimal.q16 (d : Decimal) : Nat := (2 * d.digits * 65536 + 10 ^ d.places) / (2 * 10 ^ d.places)

/-- One line of assembler text (30_encoding R75, R76). -/
inductive AsmLine where
  | nop
  | reset
  | cfg (sps : Decimal) (bps : Nat) (ac : Option (List Byte)) (wo : Option Bool) (thr : Option Int)
  | cancel
  | rdcsrName (name : String)
  | rdcsrIdx (idx : Nat)
  | txevDatagram (data : List Byte)
  | txevOther (k : Nat) (data : List Byte)
  | txdrain (cap : Nat)
  | rxbit (b : Bool)
  | rxbyte (v : Byte)
  | dec
  | bufrd (h off : Nat)
  | rel (h : Nat)
  | rxbytes (vs : List Byte)
  | rxbits (bs : List Bool)
  | txstep (events : List (Byte × List Byte)) (cap : Nat)
deriving DecidableEq, Repr

/-- The CSR names (10_state R37), but for `BUFLEN[h]`, which is `rdcsrIdx (0x10 + h)`. -/
def csrNames : List (String × Byte) :=
  [("STATUS", 0x00), ("ACLEN", 0x01), ("PAT", 0x02), ("THR", 0x03), ("WOFF", 0x04), ("SPS", 0x05), ("BPS", 0x06),
   ("TXQLEN", 0x07), ("SR", 0x08), ("FILL", 0x09), ("RXCNT", 0x0A), ("HACC", 0x0B), ("FRAMEHDR", 0x0C),
   ("CQLEN", 0x0D), ("POOLFREE", 0x0E)]

/-- A number that must fit `w` bits. -/
def fieldOf (w n : Nat) : Option (BitVec w) := if n < 2 ^ w then some (BitVec.ofNat w n) else none

/-- The threshold operand: a missing `thr=` is the sentinel; the field is signed 8 bits. -/
def thrField (thr : Option Int) : Option Byte :=
  let t := thr.getD Config.thrSentinel
  if -128 ≤ t ∧ t ≤ 127 then some (BitVec.ofInt 8 t) else none

/-- The operations a line stands for; `none` where a numeric operand does not fit its field. -/
def asmInstrs : AsmLine → Option (List Instr)
  | .nop => some [.nop]
  | .reset => some [.reset]
  | .cfg sps bps ac wo thr =>
    match fieldOf 32 sps.q16, fieldOf 8 bps, thrField thr with
    | some q, some b, some t => some [.cfg (wo.getD Config.wenDefault) ac t b q]
    | _, _, _ => none
  | .cancel => some [.cancel]
  | .rdcsrName n => (csrNames.lookup n).map (fun i => [.rdcsr i])
  | .rdcsrIdx i => (fieldOf 8 i).map (fun i => [.rdcsr i])
  | .txevDatagram data => some [.txev 0x01 data]
  | .txevOther k data => if k = 1 then none else (fieldOf 8 k).map (fun k => [.txev k data])
  | .txdrain cap => (fieldOf 16 cap).map (fun c => [.txdrain c])
  | .rxbit b => some [.rxbit b]
  | .rxbyte v => some [.rxbyte v]
  | .dec => some [.dec]
  | .bufrd h off =>
    match fieldOf 8 h, fieldOf 16 off with
    | some h, some off => some [.bufrd h off]
    | _, _ => none
  | .rel h => (fieldOf 8 h).map (fun h => [.rel h])
  | .rxbytes vs => some (vs.map .rxbyte)
  | .rxbits bs => some (bs.map .rxbit)
  | .txstep events cap =>
    (fieldOf 16 cap).map (fun c => events.map (fun e => .txev e.1 e.2) ++ [.txdrain c])

/-- The operations a line assembles to; `none` where an operand does not fit its field. That a string of over 255
characters or a byte list of over 65535 bytes, which no packet can carry, assembles to nothing is the model's own DESIGN
CHOICE: the spec gives the assembler no answer there (log 13). -/
def assemble (l : AsmLine) : Option (List Instr) := (asmInstrs l).filter (fun is => is.all Instr.wellFormed)

/-- The bytes a `TXDRAIN cap` returns from a block (42_output_queue R102). -/
def drainedBytes (k : Block) (cap : BitVec 16) : List Byte :=
  match k.gate with
  | some _ => []
  | none => k.pq.take cap.toNat

/-- `loopback cap` from a block: `txdrain cap`, then `rxbytes` of exactly the bytes it returns (30_encoding R76). -/
def loopback (k : Block) (cap : BitVec 16) : List Instr := .txdrain cap :: (drainedBytes k cap).map .rxbyte

end Sys2Proof.Machine
end

