-- ==== Sys2Proof/Machine/Parametric.lean ====
section
/-! DEFINITION. The operations over any value of the parameters (92_eei_decisions section 2: "A proof that must
hold of every implementation quantifies over them"), and Profile T, the spec's test instantiation (00_scope R8). -/

namespace Sys2Proof.Machine

/-- One operation over the parameters `P`; `exec` is the case `P = Config.params`. -/
def execWith (P : Config.Params) (i : Instr) (s : State) : Host.Outcome State Fault Refusal :=
  match i with
  | .nop => execNop s
  | .reset => execResetWith P s
  | .cfg wo ac thr bps sps => execCfgWith P wo ac thr bps sps s
  | .cancel => execCancel s
  | .rdcsr idx => execRdcsr idx s
  | .txev kind data => execTxevWith P kind data s
  | .txdrain cap => execTxdrainWith P cap s
  | .rxbit b => execRxbit b s
  | .rxbyte v => execRxbyte v s
  | .dec => execDecWith P s
  | .bufrd h off => execBufrdWith P h off s
  | .rel h => execRel h s

/-- `M(k) = (73 k + 41) mod 256` (00_scope R8). -/
def maskByte (k : Nat) : Byte := BitVec.ofNat 8 (73 * k + 41)

/-- `bs[i] xor M(o + i)`, from position `o` on. -/
def maskFrom : Nat → List Byte → List Byte
  | _, [] => []
  | o, v :: vs => (v ^^^ maskByte o) :: maskFrom (o + 1) vs

/-- `sum(P) mod 256`. -/
def sumByte (p : List Byte) : Byte := p.foldl (· + ·) 0

/-- `pack_body` of Profile T: the masked payload and a masked sum byte. -/
def profilePack (payload : List Byte) (o : BitVec 4) : List Byte :=
  maskFrom o.toNat (payload ++ [sumByte payload])

/-- `unpack` of Profile T. -/
def profileUnpack (raw : List Byte) (a : BitVec 4) : Bool × List Byte :=
  match (maskFrom a.toNat raw).reverse with
  | [] => (false, [])
  | check :: front => if check = sumByte front.reverse then (true, front.reverse) else (false, [])

/-- The 64 characters of `0xACDDA4E2F28C20FC`, the most significant bit first (00_scope R6, R8). -/
def profileAccessCode : List Byte :=
  (bitsMsb 64 0xACDDA4E2F28C20FC).map (fun b => if b then 0x31 else 0x30)

/-- Profile T (00_scope R8), with the reference sizes and sleeps of R5. `fClk := 1` is the model's own DESIGN CHOICE: the
spec gives `F_CLK` no value, under Profile T either, and no rule depends on it (log 15). -/
def profileT : Config.Params where
  poolN := Config.poolN
  poolC := Config.poolC
  defaultAc := profileAccessCode
  preamble := []
  packBody := fun payload _ _ o => profilePack payload o
  unpack := profileUnpack
  arbPick := fun _ => 0
  tIdleMs := Config.sleepReferenceMs
  tBackoffMs := Config.sleepReferenceMs
  fClk := 1

end Sys2Proof.Machine
end

