-- ==== Sys2Proof/Safety.lean ====
section
/-! DEFINITION. What claims speak of: the invariants of 10_state R39 and of the ports, and the kinds of operations. -/

namespace Sys2Proof.Machine

/-- The streaming and buffer operations may run: `FAULT = 0` and `READY = 1` (60_exceptions R150). -/
abbrev Block.Running (k : Block) : Prop := k.fault = false ∧ k.ready = true

/-- The operations the gate is for: those that answer `NOTREADY` while `READY = 0` (60_exceptions R141). -/
def isStreaming : Instr → Bool
  | .txev _ _ => true
  | .txdrain _ => true
  | .rxbit _ => true
  | .rxbyte _ => true
  | .dec => true
  | .bufrd _ _ => true
  | .rel _ => true
  | .nop => false
  | .reset => false
  | .cfg _ _ _ _ _ => false
  | .cancel => false
  | .rdcsr _ => false

/-- The operations of port T. -/
def isTransmit (i : Instr) : Bool := decide (i.port = .t)

/-- The operations of ports R, D and B. -/
def isReceiveSide (i : Instr) : Bool := decide (i.port = .r) || decide (i.port = .d) || decide (i.port = .b)

/-- Is the operation a `CFG`? -/
def isCfg : Instr → Bool
  | .cfg _ _ _ _ _ => true
  | _ => false

/-- 10_state R39 (a): unconfigured, every element of groups (b) to (e), and both traces, have their reset values; the
pool data have none. -/
def Block.UnconfiguredIsReset (k : Block) : Prop :=
  k.ready = false → k = { Block.resetWith k.pool.length with
    stop := k.stop, fault := k.fault, cfgErr := k.cfgErr, cfgCause := k.cfgCause, mem := k.mem,
    idleTmr := k.idleTmr, bkoTmr := k.bkoTmr }

/-- 10_state R39 (b): configured, `1 ≤ ACLEN ≤ 64` and `PAT < 2^ACLEN`. -/
def Block.PatternOk (k : Block) : Prop :=
  k.ready = true → 1 ≤ k.acLen.toNat ∧ k.acLen.toNat ≤ 64 ∧ k.pat.toNat < 2 ^ k.acLen.toNat

/-- 10_state R39 (a), (b), (c), (g), and R18: `CFGERR` only while unconfigured, `CFGCAUSE` 0 exactly without it. -/
structure Block.LifecycleOk (k : Block) : Prop where
  unconfigured : k.UnconfiguredIsReset
  pattern : k.PatternOk
  whitener : k.wen = false → k.wOff = 0
  faulted : k.fault = true → k.ready = true
  errorFlag : k.cfgErr = true → k.ready = false
  errorCause : k.cfgErr = false ↔ k.cfgCause = 0

/-- 10_state R39 (d), with the bounds of R27, R32 and R33. -/
structure Block.AssemblerOk (k : Block) : Prop where
  searching : k.rxState = .search ↔ k.rxCnt = 0
  header : k.rxState = .header → k.rxCnt.toNat ≤ 32
  body : k.rxState = .body → k.rxCnt.toNat ≤ 8 * k.bLen.toNat ∧ k.raw.length + (k.rxCnt.toNat + 7) / 8 = k.bLen.toNat
  fill : k.fill.toNat ≤ 64
  raw : k.raw.length ≤ Config.bodyMax
  queued : ∀ c ∈ k.cq, c.raw.length ≤ Config.bodyMax

/-- The length of the last `Datagram(h, _)` event of a trace. -/
def lastDatagram (h : Nat) : List Event → Option Nat
  | [] => none
  | e :: es =>
    match lastDatagram h es with
    | some n => some n
    | none =>
      match e with
      | .datagram g n => if g = h then some n else none
      | .fail => none

/-- 10_state R39 (e), 20_memory R43: lengths are at most `POOL_C`; an `INFLIGHT` buffer has the length its last
`Datagram` event gave, and every byte below it has been written. -/
structure Block.PoolOk (P : Config.Params) (k : Block) : Prop where
  bounded : ∀ (h : Nat) (b : Buf), k.pool[h]? = some b → b.len.toNat ≤ P.poolC
  announced : ∀ (h : Nat) (b : Buf), k.pool[h]? = some b → b.own = .inflight →
    lastDatagram h k.evOut = some b.len.toNat
  written : ∀ (h : Nat) (b : Buf), k.pool[h]? = some b → b.own = .inflight →
    ∀ off, off < b.len.toNat → (k.poolByte h off).isSome

/-- 10_state R34, 20_memory R43: there are `POOL_N` buffers, and the pool memory is in its canonical form. -/
structure Block.MemoryOk (P : Config.Params) (k : Block) : Prop where
  sized : k.pool.length = P.poolN
  canonical : Memory.wf P k.mem = true

/-- A held `DEC` has found the block running, not canceled (44_decoder_pool R124; log 6). -/
def State.HoldOk (s : State) : Prop := s.decHeld = true → s.blk.Running ∧ s.blk.stop = false

/-- An `RXBYTE` in progress has at most seven bits left, and the timers have run out between operations (log 7, log 9). -/
def State.QuietOk (s : State) : Prop := s.rxPend.length ≤ 7 ∧ s.blk.idleTmr = 0 ∧ s.blk.bkoTmr = 0

/-- Everything the model promises of every reachable state. -/
structure State.Inv (P : Config.Params) (s : State) : Prop where
  lifecycle : s.blk.LifecycleOk
  assembler : s.blk.AssemblerOk
  pool : s.blk.PoolOk P
  memory : s.blk.MemoryOk P
  hold : s.HoldOk
  quiet : s.QuietOk

end Sys2Proof.Machine
end

