-- ==== Sys2Proof/Certificates/Slice0/Obligations.lean ====
section
/-! DEFINITION. The statements for the provers, from the numbered rules of spec/. Each docstring names the rules it
rests on, and the log entry wherever a choice of the model's own enters. -/

open Sys2Proof Sys2Proof.Machine

/-! ### Reset and the control port -/

/-- 10_state R40, 70_reset R160: the value every element with a reset value has after power-on, whatever the number of
buffers; `State.reset` is the case of the machine `exec` runs on. -/
def Obligations.ResetStateValues : Prop :=
  State.reset = State.resetWith Config.params.poolN ∧
  ∀ n : Nat,
    let k := (State.resetWith n).blk
    (k.ready = false ∧ k.stop = false ∧ k.fault = false ∧ k.cfgErr = false ∧ k.cfgCause = 0) ∧
    (k.acLen = 0 ∧ k.pat = 0 ∧ k.thr = 0 ∧ k.wen = false ∧ k.sps = 0 ∧ k.bps = 0) ∧
    (k.wOff = 0 ∧ k.pq = [] ∧ k.sr = 0 ∧ k.fill = 0 ∧ k.rxState = .search ∧ k.rxCnt = 0) ∧
    (k.hAcc = 0 ∧ k.aux = 0 ∧ k.bLen = 0 ∧ k.bAcc = 0 ∧ k.raw = [] ∧ k.cq = []) ∧
    (∀ h : Nat, h < n → k.own h = some .free ∧ k.len h = some 0) ∧
    (k.txOut = [] ∧ k.evOut = [] ∧ k.idleTmr = 0 ∧ k.bkoTmr = 0)

/-- 45_system R138: RESET, in every state. The model's own choices in it: the block after it lists no byte of the pool,
the data being unspecified (log 3); a held DEC completes with NOTREADY in the same step (log 6); an RXBYTE in progress
stays in progress (log 7); packets, turns and earlier responses stay (log 5, log 8). -/
def Obligations.ResetOperation : Prop :=
  ∀ s : State, ∃ t, exec .reset s = .next t ∧ t.blk = State.reset.blk ∧ t.decHeld = false ∧
    t.rxPend = s.rxPend ∧ t.inputs = s.inputs ∧ t.turns = s.turns ∧
    t.responses = s.responses ++ [⟨.c, .ok, []⟩] ++ (if s.decHeld then [⟨.d, .notReady, []⟩] else [])

/-- 45_system R139, 44_decoder_pool R128: CANCEL sets STOP and nothing else of the block; a held DEC completes with
CANCELED in the same step (log 6). -/
def Obligations.CancelOperation : Prop :=
  ∀ s : State, s.HoldOk →
    exec .cancel s = .next { s with
      blk := { s.blk with stop := true }
      decHeld := false
      responses := s.responses ++ [⟨.c, .ok, []⟩] ++ (if s.decHeld then [⟨.d, .canceled, [0x00]⟩] else []) }

/-- 45_system R137: NOP does nothing in every state, is the packet 00 on port C and on no other, of that length and no
other, and answers 00. -/
def Obligations.NopOperation : Prop :=
  (∀ s : State, exec .nop s = .next { s with responses := s.responses ++ [⟨.c, .ok, []⟩] }) ∧
  decode .c [0x00] = .ok .nop ∧
  (∀ p, p ≠ .c → decode p [0x00] = .error .wrongPort) ∧
  (∀ x xs, decode .c (0x00 :: x :: xs) = .error .wrongLength) ∧
  Response.bytes ⟨.c, .ok, []⟩ = [0x00]

/-- 10_state R37: what each CSR index holds, and which indices are reserved, for any number of buffers. -/
def Obligations.CsrMap : Prop :=
  ∀ k : Block,
    (k.csr 0x00 = some k.statusWord ∧ k.csr 0x01 = some (k.acLen.setWidth 64) ∧ k.csr 0x02 = some k.pat ∧
      k.csr 0x03 = some (k.thr.setWidth 64) ∧ k.csr 0x04 = some (k.wOff.setWidth 64) ∧
      k.csr 0x05 = some (k.sps.setWidth 64) ∧ k.csr 0x06 = some (k.bps.setWidth 64) ∧
      k.csr 0x07 = some (BitVec.ofNat 64 (min k.pq.length (2 ^ 64 - 1))) ∧ k.csr 0x08 = some k.sr ∧
      k.csr 0x09 = some (k.fill.setWidth 64) ∧ k.csr 0x0A = some (k.rxCnt.setWidth 64) ∧
      k.csr 0x0B = some (k.hAcc.setWidth 64) ∧
      k.csr 0x0C = some (BitVec.ofNat 64 (k.aux.toNat * 4096 + k.bLen.toNat)) ∧
      k.csr 0x0D = some (BitVec.ofNat 64 (min k.cq.length (2 ^ 64 - 1)))) ∧
    (∃ v, k.csr 0x0E = some v ∧ ∀ i : Nat, i < 64 → (v.getLsbD i = true ↔ k.own i = some .free)) ∧
    (∀ (h : Nat) (n : BitVec 13), h < 16 → k.len h = some n →
      k.csr (BitVec.ofNat 8 (0x10 + h)) = some (n.setWidth 64)) ∧
    (∀ idx : Byte, k.csr idx = none ↔
      idx = 0x0F ∨ 0x20 ≤ idx.toNat ∨ (0x10 ≤ idx.toNat ∧ k.pool.length ≤ idx.toNat - 0x10))

/-- 10_state R38: the fields of STATUS; a read of it, as of every CSR, changes nothing. -/
def Obligations.StatusWordBits : Prop :=
  (∀ k : Block,
    k.statusWord.getLsbD 0 = k.ready ∧ k.statusWord.getLsbD 1 = k.stop ∧ k.statusWord.getLsbD 2 = k.fault ∧
    k.statusWord.getLsbD 3 = k.cfgErr ∧ k.statusWord.extractLsb' 4 2 = k.cfgCause ∧
    k.statusWord.extractLsb' 6 2 = (match k.rxState with | .search => 0 | .header => 1 | .body => 2) ∧
    k.statusWord.getLsbD 8 = k.wen ∧ ∀ i, 9 ≤ i → k.statusWord.getLsbD i = false) ∧
  (∀ (s t : State) (idx : Byte), exec (.rdcsr idx) s = .next t → t.blk = s.blk)

/-- 45_system R140: RDCSR in every state: the value as eight bytes, the most significant first, or BADARG for a reserved
index; no state change. -/
def Obligations.RdcsrOperation : Prop :=
  ∀ (s : State) (idx : Byte),
    if idx = 0x0F ∨ 0x20 ≤ idx.toNat ∨ (0x10 ≤ idx.toNat ∧ s.blk.pool.length ≤ idx.toNat - 0x10) then
      exec (.rdcsr idx) s = .next { s with responses := s.responses ++ [⟨.c, .badArg, []⟩] }
    else
      ∃ (v : BitVec 64) (bs : List Byte), s.blk.csr idx = some v ∧ bs.length = 8 ∧
        bs.foldl (fun n b => n * 256 + b.toNat) 0 = v.toNat ∧
        exec (.rdcsr idx) s = .next { s with responses := s.responses ++ [⟨.c, .ok, bs⟩] }

/-! ### Configuration -/

/-- 40_config R82, R84, R86, 10_state R40: a CFG with a valid access code constructs the component and leaves the
bytes of the pool as they were. The 16 buffers are the reference size (log 2). -/
def Obligations.CfgConstructs : Prop :=
  ∀ (s : State) (wo : Bool) (ac : List Byte) (thr bps : Byte) (sps : BitVec 32),
    s.blk.fault = false → s.blk.ready = false → 1 ≤ ac.length → ac.length ≤ 64 →
    (∀ c ∈ ac, c = 0x30 ∨ c = 0x31) → -1 ≤ thr.toInt → bps ≠ 0 → sps ≠ 0 →
    ∃ t, exec (.cfg wo (some ac) thr bps sps) s = .next t ∧
      (t.blk.ready = true ∧ t.blk.stop = s.blk.stop ∧ t.blk.fault = false ∧ t.blk.cfgErr = false ∧
        t.blk.cfgCause = 0) ∧
      (t.blk.acLen.toNat = ac.length ∧ t.blk.pat = patternOf ac ∧
        (t.blk.thr.toNat : Int) = (if thr.toInt = -1 then 12 else thr.toInt) ∧
        t.blk.wen = wo ∧ t.blk.sps = sps ∧ t.blk.bps = bps) ∧
      (t.blk.wOff = 0 ∧ t.blk.pq = [] ∧ t.blk.sr = 0 ∧ t.blk.fill = 0 ∧ t.blk.rxState = .search ∧ t.blk.rxCnt = 0 ∧
        t.blk.hAcc = 0 ∧ t.blk.aux = 0 ∧ t.blk.bLen = 0 ∧ t.blk.bAcc = 0 ∧ t.blk.raw = [] ∧ t.blk.cq = []) ∧
      (∀ h : Nat, h < 16 → t.blk.own h = some .free ∧ t.blk.len h = some 0) ∧
      (∀ (h off : Nat), t.blk.poolByte h off = s.blk.poolByte h off) ∧
      (t.blk.txOut = [] ∧ t.blk.evOut = [] ∧ t.blk.idleTmr = 0 ∧ t.blk.bkoTmr = 0) ∧
      t.responses = s.responses ++ [⟨.c, .ok, []⟩]

/-- 40_config R86, R87: a CFG with an invalid access code writes CFGERR and CFGCAUSE and nothing else, and answers the
cause, the length being tested before the symbols. That it does so also with a threshold, bps or sps the spec gives no
meaning, these being looked at last, is the model's own choice (log 4). -/
def Obligations.CfgErrors : Prop :=
  ∀ (s : State) (wo : Bool) (ac : List Byte) (thr bps : Byte) (sps : BitVec 32) (cause : BitVec 2),
    s.blk.fault = false → s.blk.ready = false →
    (ac.length = 0 ∧ cause = 1 ∨ 64 < ac.length ∧ cause = 2 ∨
      1 ≤ ac.length ∧ ac.length ≤ 64 ∧ (∃ c ∈ ac, c ≠ 0x30 ∧ c ≠ 0x31) ∧ cause = 3) →
    exec (.cfg wo (some ac) thr bps sps) s = .next { s with
      blk := { s.blk with cfgErr := true, cfgCause := cause }
      responses := s.responses ++ [⟨.c, .cfgErr, [cause.setWidth 8]⟩] }

/-- 40_config R89, 60_exceptions R150: while FAULT = 1 a CFG answers FAULTED, and otherwise while READY = 1 BADSTATE,
whatever its operands, and changes nothing. That it does so also with a threshold, bps or sps the spec gives no meaning,
these being looked at last, is the model's own choice (log 4). -/
def Obligations.CfgNotAccepted : Prop :=
  ∀ (s : State) (wo : Bool) (ac : Option (List Byte)) (thr bps : Byte) (sps : BitVec 32),
    (s.blk.fault = true → exec (.cfg wo ac thr bps sps) s =
      .next { s with responses := s.responses ++ [⟨.c, .faulted, []⟩] }) ∧
    (s.blk.fault = false → s.blk.ready = true → exec (.cfg wo ac thr bps sps) s =
      .next { s with responses := s.responses ++ [⟨.c, .badState, []⟩] })

/-- 40_config R83: with no access code given, DEFAULT_AC is validated and used like any other string; an empty string
given explicitly is not "no access code". That the latter answers its cause also with a threshold, bps or sps the spec
gives no meaning, these being looked at last, is the model's own choice (log 4). -/
def Obligations.CfgDefaultCode : Prop :=
  (∀ (s : State) (wo : Bool) (thr bps : Byte) (sps : BitVec 32),
    exec (.cfg wo none thr bps sps) s = exec (.cfg wo (some Config.params.defaultAc) thr bps sps) s) ∧
  (∀ (s : State) (wo : Bool) (thr bps : Byte) (sps : BitVec 32), s.blk.fault = false → s.blk.ready = false →
    ∃ t, exec (.cfg wo (some []) thr bps sps) s = .next t ∧ t.blk.ready = false ∧ t.blk.cfgCause = 1 ∧
      t.responses = s.responses ++ [⟨.c, .cfgErr, [0x01]⟩])

/-- 40_config R84, R88, U3: a CFG that gets past its other checks is refused exactly when sps = 0, bps = 0 or the
threshold is -2 or less. That the other checks come first is the model's choice (log 4). -/
def Obligations.CfgRefusedOperands : Prop :=
  ∀ (s : State) (wo : Bool) (ac : List Byte) (thr bps : Byte) (sps : BitVec 32),
    s.blk.fault = false → s.blk.ready = false → 1 ≤ ac.length → ac.length ≤ 64 →
    (∀ c ∈ ac, c = 0x30 ∨ c = 0x31) →
    (exec (.cfg wo (some ac) thr bps sps) s = .refused .cfgOperandUnspecified ↔
      sps = 0 ∨ bps = 0 ∨ thr.toInt ≤ -2)

/-- 40_config R85: the first character of a valid access code of length L is bit L - 1 of PAT, the last is bit 0, the
bits from L on are 0, and ACLEN is L; "1010101010101" is 0x1555. -/
def Obligations.PatternBits : Prop :=
  (∀ (k : Block) (n : Nat) (ac : List Byte) (wo : Bool) (thr bps : Byte) (sps : BitVec 32),
    1 ≤ ac.length → ac.length ≤ 64 →
    (k.construct n ac wo thr bps sps).acLen.toNat = ac.length ∧
    (∀ i, i < ac.length →
      ((k.construct n ac wo thr bps sps).pat.getLsbD (ac.length - 1 - i) = true ↔ ac[i]? = some 0x31)) ∧
    (∀ j, ac.length ≤ j → (k.construct n ac wo thr bps sps).pat.getLsbD j = false)) ∧
  patternOf [0x31, 0x30, 0x31, 0x30, 0x31, 0x30, 0x31, 0x30, 0x31, 0x30, 0x31, 0x30, 0x31] = 0x1555

/-! ### The transmit path -/

/-- 41_encoder R96, R97, R98, R93: TXEV on a running block: another kind is discarded; a datagram whose body exceeds
4095 bytes is TOOLONG; any other joins PQ as one frame at the offset WOFF, which then advances modulo 16 if WEN = 1. -/
def Obligations.TxevOperation : Prop :=
  ∀ (s : State) (kind : Byte) (data : List Byte), s.blk.Running →
    exec (.txev kind data) s = .next (
      if kind ≠ 0x01 then { s with responses := s.responses ++ [⟨.t, .ok, []⟩] }
      else if 4095 < (Config.params.packBody data s.blk.sps s.blk.bps s.blk.wOff).length then
        { s with responses := s.responses ++ [⟨.t, .tooLong, []⟩] }
      else
        { s with
          blk := { s.blk with
            pq := s.blk.pq ++ encodeFrame Config.params s.blk data s.blk.wOff
            wOff := if s.blk.wen then BitVec.ofNat 4 ((s.blk.wOff.toNat + 1) % 16) else s.blk.wOff }
          responses := s.responses ++ [⟨.t, .ok, []⟩] })

/-- 41_encoder R91, R92: a frame, read as bits most significant first, is the preamble, the L bits of PAT, the header
word twice, the body and at most seven zero bits; its length in bytes is rounded up. -/
def Obligations.FrameLayout : Prop :=
  ∀ (P : Config.Params) (k : Block) (payload : List Byte) (o : BitVec 4),
    let body := P.packBody payload k.sps k.bps o
    body.length ≤ 4095 →
    ∃ pad : List Bool, pad.length < 8 ∧ (∀ b ∈ pad, b = false) ∧
      (encodeFrame P k payload o).flatMap (fun v => (List.range 8).map (fun j => v.getLsbD (7 - j))) =
        P.preamble ++ (List.range k.acLen.toNat).map (fun j => k.pat.getLsbD (k.acLen.toNat - 1 - j)) ++
        (List.range 16).map (fun j => (o.toNat * 4096 + body.length).testBit (15 - j)) ++
        (List.range 16).map (fun j => (o.toNat * 4096 + body.length).testBit (15 - j)) ++
        body.flatMap (fun v => (List.range 8).map (fun j => v.getLsbD (7 - j))) ++ pad ∧
      (encodeFrame P k payload o).length = (P.preamble.length + k.acLen.toNat + 32 + 8 * body.length + 7) / 8

/-- 41_encoder R93, R94: N datagrams that fit advance WOFF by N modulo 16 when WEN = 1 and not at all when WEN = 0,
whatever their payloads. -/
def Obligations.WhitenerSequence : Prop :=
  ∀ (P : Config.Params) (s : State) (datas : List (List Byte)), s.blk.Running →
    (∀ data ∈ datas, ∀ o, (P.packBody data s.blk.sps s.blk.bps o).length ≤ 4095) →
    ∃ t, execAll (execWith P) (datas.map (.txev 0x01)) s = .next t ∧
      t.blk.wOff.toNat = (if s.blk.wen then (s.blk.wOff.toNat + datas.length) % 16 else s.blk.wOff.toNat)

/-- 42_output_queue R102 to R105: TXDRAIN on a running block: an empty queue is IDLE with n = 0, whatever cap is; else
the first min(cap, len) bytes leave PQ in order, go to TXOUT and are returned after their count. (The idle timer has
run out when the response is sent: log 9.) -/
def Obligations.TxdrainOperation : Prop :=
  ∀ (s : State) (cap : BitVec 16), s.blk.Running →
    exec (.txdrain cap) s = .next (
      if s.blk.pq = [] then
        { s with
          blk := { s.blk with idleTmr := 0 }
          responses := s.responses ++ [⟨.t, .idle, [0x00, 0x00]⟩] }
      else
        let n := min cap.toNat s.blk.pq.length
        { s with
          blk := { s.blk with pq := s.blk.pq.drop n, txOut := s.blk.txOut ++ s.blk.pq.take n }
          responses := s.responses ++
            [⟨.t, .ok, [BitVec.ofNat 8 (n / 256), BitVec.ofNat 8 n] ++ s.blk.pq.take n⟩] })

/-- 42_output_queue R107: any split of the drain capacity gives the same bytes in the same order. -/
def Obligations.DrainSplit : Prop :=
  ∀ (s : State) (caps : List (BitVec 16)), s.blk.Running →
    ∃ t, execAll exec (caps.map .txdrain) s = .next t ∧
      t.blk.txOut = s.blk.txOut ++ s.blk.pq.take (caps.map BitVec.toNat).sum ∧
      t.blk.pq = s.blk.pq.drop (caps.map BitVec.toNat).sum

/-- 42_output_queue R107, 20_memory R56 (a): TXOUT ++ PQ only grows at the back, by the frame of an accepted datagram,
but for CFG and RESET, which begin it anew. -/
def Obligations.TransmitStreamGrows : Prop :=
  ∀ (i : Instr) (s t : State), exec i s = .next t → i ≠ .reset → isCfg i = false →
    ∃ f, t.blk.txOut ++ t.blk.pq = s.blk.txOut ++ s.blk.pq ++ f ∧
      (f = [] ∨ ∃ data, i = .txev 0x01 data ∧ f = encodeFrame Config.params s.blk data s.blk.wOff)

/-! ### The receive path -/

/-- 43_correlator R112, R114, R113: RXBIT in SEARCH: SR and FILL take the bit, then the low L bits of SR are compared
with PAT. -/
def Obligations.RxbitSearch : Prop :=
  ∀ (s : State) (b : Bool), s.blk.Running → s.blk.rxState = .search →
    let k := { s.blk with
      sr := BitVec.ofNat 64 (s.blk.sr.toNat * 2 + b.toNat), fill := BitVec.ofNat 7 (min (s.blk.fill.toNat + 1) 64) }
    exec (.rxbit b) s = .next { s with
      blk :=
        if k.acLen.toNat ≤ k.fill.toNat ∧
            (List.range 64).countP ((k.sr ^^^ k.pat) &&& BitVec.ofNat 64 (2 ^ k.acLen.toNat - 1)).getLsbD ≤ k.thr.toNat
        then { k with rxState := .header, hAcc := 0, rxCnt := 32 }
        else k
      responses := s.responses ++ [⟨.r, .ok, []⟩] }

/-- 43_correlator R112, R115: RXBIT in HEADER. RXCNT is never 0 there (10_state R39 (d)). -/
def Obligations.RxbitHeader : Prop :=
  ∀ (s : State) (b : Bool), s.blk.Running → s.blk.rxState = .header → s.blk.rxCnt ≠ 0 →
    let k := { s.blk with
      sr := BitVec.ofNat 64 (s.blk.sr.toNat * 2 + b.toNat), fill := BitVec.ofNat 7 (min (s.blk.fill.toNat + 1) 64)
      hAcc := BitVec.ofNat 32 (s.blk.hAcc.toNat * 2 + b.toNat), rxCnt := s.blk.rxCnt - 1 }
    let h1 := k.hAcc.toNat / 65536
    let h2 := k.hAcc.toNat % 65536
    exec (.rxbit b) s = .next { s with
      blk :=
        if k.rxCnt ≠ 0 then k
        else if h1 ≠ h2 then { k with rxState := .search }
        else if h1 % 4096 = 0 then
          { k with aux := BitVec.ofNat 4 (h1 / 4096), bLen := 0, raw := [],
                   cq := k.cq ++ [⟨[], BitVec.ofNat 4 (h1 / 4096)⟩], rxState := .search }
        else
          { k with aux := BitVec.ofNat 4 (h1 / 4096), bLen := BitVec.ofNat 12 h1, raw := [],
                   rxState := .body, rxCnt := BitVec.ofNat 16 (8 * (h1 % 4096)), bAcc := 0 }
      responses := s.responses ++ [⟨.r, .ok, []⟩] }

/-- 43_correlator R112, R116: RXBIT in BODY. RXCNT is never 0 there (10_state R39 (d)). -/
def Obligations.RxbitBody : Prop :=
  ∀ (s : State) (b : Bool), s.blk.Running → s.blk.rxState = .body → s.blk.rxCnt ≠ 0 →
    let k := { s.blk with
      sr := BitVec.ofNat 64 (s.blk.sr.toNat * 2 + b.toNat), fill := BitVec.ofNat 7 (min (s.blk.fill.toNat + 1) 64)
      bAcc := BitVec.ofNat 8 (s.blk.bAcc.toNat * 2 + b.toNat), rxCnt := s.blk.rxCnt - 1 }
    exec (.rxbit b) s = .next { s with
      blk :=
        if k.rxCnt.toNat % 8 ≠ 0 then k
        else if k.rxCnt ≠ 0 then { k with raw := k.raw ++ [k.bAcc] }
        else { k with raw := k.raw ++ [k.bAcc], cq := k.cq ++ [⟨k.raw ++ [k.bAcc], k.aux⟩], rxState := .search }
      responses := s.responses ++ [⟨.r, .ok, []⟩] }

/-- 43_correlator R113, R122: the distance counts the positions, of the L, in which window and pattern differ; a hit
needs L bits received and a distance of at most THR, is tested after the shift, and at the threshold's corners is exact
match, anything but the complement, and anything. -/
def Obligations.HitCriterion : Prop :=
  (∀ k : Block, k.acLen.toNat ≤ 64 →
    let d := (List.range k.acLen.toNat).countP (fun j => k.sr.getLsbD j != k.pat.getLsbD j)
    k.distance = d ∧ d ≤ k.acLen.toNat ∧
    (k.hit = true ↔ k.acLen.toNat ≤ k.fill.toNat ∧ d ≤ k.thr.toNat) ∧
    (k.acLen.toNat ≤ k.fill.toNat → k.thr.toNat = 0 →
      (k.hit = true ↔ ∀ j, j < k.acLen.toNat → k.sr.getLsbD j = k.pat.getLsbD j)) ∧
    (k.acLen.toNat ≤ k.fill.toNat → k.thr.toNat + 1 = k.acLen.toNat →
      (k.hit = true ↔ ∃ j, j < k.acLen.toNat ∧ k.sr.getLsbD j = k.pat.getLsbD j)) ∧
    (k.acLen.toNat ≤ k.fill.toNat → k.acLen.toNat ≤ k.thr.toNat → k.hit = true)) ∧
  (∀ (k : Block) (b : Bool), k.rxState = .search →
    (k.rxBit b).rxState = if (k.shiftIn b).hit then .header else .search) ∧
  (∀ (k : Block) (b : Bool), (k.rxBit b).fill.toNat = min (k.fill.toNat + 1) 64)

/-- 43_correlator R121: in HEADER and BODY neither the pattern nor the threshold has any effect. -/
def Obligations.FramedIgnoresPattern : Prop :=
  ∀ (k : Block) (b : Bool) (p : BitVec 64) (n : BitVec 7), k.rxState ≠ .search →
    ({ k with pat := p, thr := n } : Block).rxBit b = { k.rxBit b with pat := p, thr := n }

/-- 43_correlator R117, 20_memory R47 (a): RXBYTE v leaves the block as RXBIT v[7], ..., RXBIT v[0] do, in that order,
and answers once. -/
def Obligations.RxbyteIsEightBits : Prop :=
  ∀ (s : State) (v : Byte), s.blk.Running →
    ∃ t u, exec (.rxbyte v) s = .next t ∧
      execAll exec [.rxbit (v.getLsbD 7), .rxbit (v.getLsbD 6), .rxbit (v.getLsbD 5), .rxbit (v.getLsbD 4),
        .rxbit (v.getLsbD 3), .rxbit (v.getLsbD 2), .rxbit (v.getLsbD 1), .rxbit (v.getLsbD 0)] s = .next u ∧
      t = { u with responses := s.responses ++ [⟨.r, .ok, []⟩] }

/-- 43_correlator R115, R116, R118, 41_encoder R100: from the first header bit on, the header and body of any frame
deliver exactly the candidate (body, o), and the assembler searches again. -/
def Obligations.CandidateDelivered : Prop :=
  ∀ (s : State) (o : BitVec 4) (body : List Byte), s.blk.Running → s.blk.rxState = .header → s.blk.rxCnt = 32 →
    body.length ≤ 4095 →
    ∃ t, execAll exec ((headerBits o body.length ++ bodyBits body).map .rxbit) s = .next t ∧
      t.blk.cq = s.blk.cq ++ [⟨body, o⟩] ∧ t.blk.rxState = .search ∧ t.blk.aux = o ∧
      t.blk.bLen.toNat = body.length ∧ t.blk.evOut = s.blk.evOut

/-- 43_correlator R119, R122, 41_encoder R100: a receiver that has received nothing yet and gets L bits of which at most
THR differ from the access code delivers the candidate that follows; if more than THR differ it is still searching
after those L bits and they have delivered nothing (a later window may hit). -/
def Obligations.SyncWithinThreshold : Prop :=
  ∀ (s : State) (code : List Bool) (o : BitVec 4) (body : List Byte), s.blk.Running → s.blk.rxState = .search →
    s.blk.fill = 0 → 1 ≤ s.blk.acLen.toNat → s.blk.acLen.toNat ≤ 64 → code.length = s.blk.acLen.toNat →
    body.length ≤ 4095 →
    let errors := (List.range s.blk.acLen.toNat).countP
      (fun i => code[i]? != some (s.blk.pat.getLsbD (s.blk.acLen.toNat - 1 - i)))
    (errors ≤ s.blk.thr.toNat →
      ∃ t, execAll exec ((code ++ headerBits o body.length ++ bodyBits body).map .rxbit) s = .next t ∧
        t.blk.cq = s.blk.cq ++ [⟨body, o⟩] ∧ t.blk.rxState = .search) ∧
    (s.blk.thr.toNat < errors →
      ∃ t, execAll exec (code.map .rxbit) s = .next t ∧ t.blk.cq = s.blk.cq ∧ t.blk.rxState = .search)

/-! ### The decode path -/

/-- 44_decoder_pool R124, R128, 20_memory R55: on a running block DEC is CANCELED and changes nothing of the block while
STOP = 1, whatever CQ holds; else, with an empty CQ, it is held and changes nothing at all but that. -/
def Obligations.DecCanceledOrHeld : Prop :=
  ∀ s : State, s.blk.Running →
    (s.blk.stop = true → exec .dec s = .next { s with
      decHeld := false, responses := s.responses ++ [⟨.d, .canceled, [0x00]⟩] }) ∧
    (s.blk.stop = false → s.blk.cq = [] → exec .dec s = .next { s with decHeld := true })

/-- 44_decoder_pool R123 to R129: DEC on a running, uncanceled block with the candidate c at the head of CQ completes,
for the parameters of exec, as it does for every value of the parameters: a failed unpack posts Fail and takes the
candidate; with no buffer FREE it is BACKOFF and takes nothing; a payload over POOL_C bytes sets FAULT and takes nothing;
else the datagram is posted. (The backoff timer has run out when the response is sent: log 9.) -/
def Obligations.DecDecides : Prop :=
  (∀ (s : State) (c : Candidate) (rest : List Candidate), s.blk.Running → s.blk.stop = false → s.blk.cq = c :: rest →
    ∃ t, exec .dec s = .next t ∧ execWith Config.params .dec s = .next t) ∧
  ∀ (P : Config.Params) (s : State) (c : Candidate) (rest : List Candidate) (ok : Bool) (payload : List Byte),
    s.blk.Running → s.blk.stop = false → s.blk.cq = c :: rest → P.unpack c.raw c.aux = (ok, payload) →
    ∃ t, execWith P .dec s = .next t ∧
      (ok = false → t = { s with
        blk := { s.blk with cq := rest, evOut := s.blk.evOut ++ [.fail] }
        decHeld := false
        responses := s.responses ++ [⟨.d, .ok, [0x02]⟩] }) ∧
      (ok = true → (∀ h : Nat, s.blk.own h ≠ some .free) → t = { s with
        blk := { s.blk with bkoTmr := 0 }
        decHeld := false
        responses := s.responses ++ [⟨.d, .backoff, [0x00]⟩] }) ∧
      (ok = true → (∃ h : Nat, s.blk.own h = some .free) → P.poolC < payload.length → t = { s with
        blk := { s.blk with fault := true }
        decHeld := false
        responses := s.responses ++ [⟨.d, .faulted, []⟩] }) ∧
      (ok = true → (∃ h : Nat, s.blk.own h = some .free) → payload.length ≤ P.poolC →
        ∃ h : Nat, s.blk.own h = some .free ∧ t.blk.cq = rest ∧
          t.blk.evOut = s.blk.evOut ++ [.datagram h payload.length] ∧
          t.blk.own h = some .inflight ∧ t.decHeld = false ∧
          t.responses = s.responses ++ [⟨.d, .ok, [0x01]⟩])

/-- 44_decoder_pool R126, R130, for every value of the parameters whose sizes fit the fields: a payload that fits goes
whole into one buffer that was FREE, and no other byte of the pool and no other buffer changes. -/
def Obligations.DecHandsOver : Prop :=
  ∀ (P : Config.Params) (s : State) (c : Candidate) (rest : List Candidate) (payload : List Byte), P.SizesFit →
    s.blk.Running → s.blk.stop = false → s.blk.cq = c :: rest → P.unpack c.raw c.aux = (true, payload) →
    (∃ h : Nat, s.blk.own h = some .free) → payload.length ≤ P.poolC →
    ∃ (t : State) (h : Nat) (n : BitVec 13), execWith P .dec s = .next t ∧ s.blk.own h = some .free ∧
      t.blk.own h = some .inflight ∧ t.blk.len h = some n ∧ n.toNat = payload.length ∧
      (∀ g : Nat, g ≠ h → t.blk.pool[g]? = s.blk.pool[g]?) ∧
      (∀ off, off < payload.length → t.blk.poolByte h off = payload[off]?) ∧
      (∀ (g off : Nat), ¬(g = h ∧ off < payload.length) → t.blk.poolByte g off = s.blk.poolByte g off) ∧
      t.blk.cq = rest ∧ t.blk.evOut = s.blk.evOut ++ [.datagram h payload.length] ∧
      t.responses = s.responses ++ [⟨.d, .ok, [0x01]⟩]

/-- 44_decoder_pool R127, R136, for every value of the parameters whose sizes fit the fields: with no buffer FREE a good
candidate is answered BACKOFF any number of times and nothing but the timer is touched; after one REL h of an INFLIGHT
buffer the next DEC puts that same candidate into buffer h, which then has its length and its bytes. -/
def Obligations.ExhaustionRecovers : Prop :=
  ∀ (P : Config.Params) (s : State) (c : Candidate) (rest : List Candidate) (payload : List Byte) (n : Nat) (h : Byte),
    P.SizesFit → s.blk.Running → s.blk.stop = false → s.blk.cq = c :: rest →
    P.unpack c.raw c.aux = (true, payload) → payload.length ≤ P.poolC →
    (∀ g : Nat, s.blk.own g ≠ some .free) → s.blk.own h.toNat = some .inflight →
    ∃ (t u : State) (len : BitVec 13), execAll (execWith P) (List.replicate n .dec) s = .next t ∧
      { t.blk with bkoTmr := s.blk.bkoTmr } = s.blk ∧
      t.responses = s.responses ++ List.replicate n ⟨.d, .backoff, [0x00]⟩ ∧
      execAll (execWith P) [.rel h, .dec] t = .next u ∧
      u.blk.cq = rest ∧ u.blk.evOut = s.blk.evOut ++ [.datagram h.toNat payload.length] ∧
      (∀ g : Nat, u.blk.own g = s.blk.own g) ∧
      u.blk.len h.toNat = some len ∧ len.toNat = payload.length ∧
      (∀ off, off < payload.length → u.blk.poolByte h.toNat off = payload[off]?) ∧
      u.responses = t.responses ++ [⟨.b, .ok, []⟩, ⟨.d, .ok, [0x01]⟩]

/-- 44_decoder_pool R131: a buffer goes from FREE to INFLIGHT by DEC only, and back by the REL of its own handle, by CFG
or by RESET only; for every value of the parameters, exec being the operations over those of the machine. -/
def Obligations.OwnershipTransitions : Prop :=
  (∀ (i : Instr) (s : State), exec i s = execWith Config.params i s) ∧
  ∀ (P : Config.Params) (i : Instr) (s t : State) (h : Nat), execWith P i s = .next t →
    (s.blk.own h = some .free → t.blk.own h = some .inflight → i = .dec) ∧
    (s.blk.own h = some .inflight → t.blk.own h = some .free →
      (∃ b : Byte, i = .rel b ∧ b.toNat = h) ∨ isCfg i = true ∨ i = .reset)

/-- 44_decoder_pool R134 (a), 10_state R39 (e): no operation writes a byte of an INFLIGHT buffer (RESET, after which
the data are unspecified, apart). -/
def Obligations.InflightBytesStable : Prop :=
  ∀ (i : Instr) (s t : State) (h off : Nat), exec i s = .next t → i ≠ .reset →
    s.blk.own h = some .inflight → t.blk.poolByte h off = s.blk.poolByte h off

/-! ### The buffers -/

/-- 44_decoder_pool R132: BUFRD on a running block reads the byte of an INFLIGHT buffer below its length, and answers
BADARG for a handle out of range, a buffer that is not INFLIGHT or an offset not below the length; no state change. -/
def Obligations.BufrdOperation : Prop :=
  ∀ (s : State) (h : Byte) (off : BitVec 16), s.blk.Running →
    (∀ (n : BitVec 13) (v : Byte), s.blk.own h.toNat = some .inflight → s.blk.len h.toNat = some n →
      off.toNat < n.toNat → n.toNat ≤ 4096 → s.blk.poolByte h.toNat off.toNat = some v →
      exec (.bufrd h off) s = .next { s with responses := s.responses ++ [⟨.b, .ok, [v]⟩] }) ∧
    ((∀ n : BitVec 13, s.blk.own h.toNat = some .inflight → s.blk.len h.toNat = some n → n.toNat ≤ off.toNat) →
      exec (.bufrd h off) s = .next { s with responses := s.responses ++ [⟨.b, .badArg, []⟩] })

/-- 20_memory R43, 44_decoder_pool R132: where the pool invariant holds, BUFRD always answers: it never meets a byte
that nothing has written. In a state without that invariant it stops by name on a byte below the length that has no
value or does not exist (log 3; the capacity of 4096 bytes is the reference size, log 2). -/
def Obligations.BufrdNeverFaults : Prop :=
  (∀ (s : State) (h : Byte) (off : BitVec 16), s.blk.PoolOk Config.params → ∃ t, exec (.bufrd h off) s = .next t) ∧
  (∀ (s : State) (h : Byte) (off : BitVec 16) (n : BitVec 13), s.blk.Running → s.blk.own h.toNat = some .inflight →
    s.blk.len h.toNat = some n → off.toNat < n.toNat →
    (4096 ≤ off.toNat ∨ s.blk.poolByte h.toNat off.toNat = none) →
    exec (.bufrd h off) s =
      .fault (if 4096 ≤ off.toNat then .noSuchPoolByte h.toNat off.toNat else .unwrittenPoolByte h.toNat off.toNat))

/-- 44_decoder_pool R133: REL on a running block frees an INFLIGHT buffer and leaves its length and bytes and every
other buffer as they are; for a handle out of range or a buffer not INFLIGHT it answers BADARG and changes nothing, so
a second REL of the same handle does. -/
def Obligations.RelOperation : Prop :=
  ∀ (s : State) (h : Byte), s.blk.Running →
    (∀ n : BitVec 13, s.blk.own h.toNat = some .inflight → s.blk.len h.toNat = some n →
      ∃ t, exec (.rel h) s = .next t ∧ t.blk = { s.blk with pool := s.blk.pool.set h.toNat ⟨.free, n⟩ } ∧
        t.responses = s.responses ++ [⟨.b, .ok, []⟩] ∧
        exec (.rel h) t = .next { t with responses := t.responses ++ [⟨.b, .badArg, []⟩] }) ∧
    (s.blk.own h.toNat ≠ some .inflight →
      exec (.rel h) s = .next { s with responses := s.responses ++ [⟨.b, .badArg, []⟩] })

/-! ### Conditions and whole-machine rules -/

/-- 60_exceptions R150 (2), (3), 10_state R15, R17: each of the seven streaming and buffer operations answers FAULTED
while FAULT = 1, else NOTREADY while READY = 0, and changes nothing of the block. -/
def Obligations.GateAnswers : Prop :=
  ∀ (i : Instr) (s : State), isStreaming i = true →
    (s.blk.fault = true → exec i s = .next { s with
      decHeld := if i = .dec then false else s.decHeld
      responses := s.responses ++ [⟨i.port, .faulted, []⟩] }) ∧
    (s.blk.fault = false → s.blk.ready = false → exec i s = .next { s with
      decHeld := if i = .dec then false else s.decHeld
      responses := s.responses ++ [⟨i.port, .notReady, []⟩] })

/-- 60_exceptions R147, R151, 43_correlator R117: an operation that answers NOTREADY, BADSTATE, BADARG, FAULTED or TOOLONG
has changed nothing of the block, but for the DEC that sets FAULT; and, where no DEC is held, neither has a step, whatever
the turn (bit steps of an RXBYTE among them: log 7), that gives such a response or ILLEGAL. -/
def Obligations.RefusalsChangeNothing : Prop :=
  (∀ (i : Instr) (s t : State) (r : Response), exec i s = .next t → r ∈ t.responses.drop s.responses.length →
    r.port = i.port → r.status ∈ [Status.notReady, .badState, .badArg, .faulted, .tooLong] →
    (r.status = .faulted → s.blk.fault = true) → t.blk = s.blk) ∧
  (∀ (s t : State) (r : Response), s.decHeld = false → step s = .next t → r ∈ t.responses.drop s.responses.length →
    r.status ∈ [Status.notReady, .badState, .badArg, .illegal, .faulted, .tooLong] →
    (r.status = .faulted → s.blk.fault = true) → t.blk = s.blk)

/-- 10_state R15 to R18, 40_config R89, 20_memory R60: who writes the flags (READY set by CFG, STOP by CANCEL, FAULT by
DEC, each cleared by RESET only; CFGERR and CFGCAUSE by CFG and RESET only), and that while READY = 1 no operation but
RESET changes a configuration register; for every value of the parameters, exec being the operations over those of the
machine. -/
def Obligations.FlagsAndConfiguration : Prop :=
  (∀ (i : Instr) (s : State), exec i s = execWith Config.params i s) ∧
  ∀ (P : Config.Params) (i : Instr) (s t : State), execWith P i s = .next t →
    (s.blk.ready = false → t.blk.ready = true → isCfg i = true) ∧
    (s.blk.stop = false → t.blk.stop = true → i = .cancel) ∧
    (s.blk.fault = false → t.blk.fault = true → i = .dec) ∧
    (t.blk.cfgErr ≠ s.blk.cfgErr ∨ t.blk.cfgCause ≠ s.blk.cfgCause → isCfg i = true ∨ i = .reset) ∧
    (i ≠ .reset →
      (s.blk.ready = true → t.blk.ready = true) ∧ (s.blk.stop = true → t.blk.stop = true) ∧
      (s.blk.fault = true → t.blk.fault = true) ∧
      (s.blk.ready = true → t.blk.acLen = s.blk.acLen ∧ t.blk.pat = s.blk.pat ∧ t.blk.thr = s.blk.thr ∧
        t.blk.wen = s.blk.wen ∧ t.blk.sps = s.blk.sps ∧ t.blk.bps = s.blk.bps))

/-- 20_memory R57: a transmit operation and an operation of ports R, D or B give the same block and the same responses
on every port in either order, unless the latter raises FAULT, which the former reads. -/
def Obligations.PathsIndependent : Prop :=
  ∀ (i j : Instr) (s si sij sj sji : State), isTransmit i = true → isReceiveSide j = true →
    exec i s = .next si → exec j si = .next sij → exec j s = .next sj → exec i sj = .next sji →
    sj.blk.fault = s.blk.fault →
    sij.blk = sji.blk ∧ sij.decHeld = sji.decHeld ∧ ∀ p, sij.responsesOn p = sji.responsesOn p

/-- 44_decoder_pool R135, 20_memory R56 (b): events are only appended, at most one an operation, by a DEC that takes
exactly the head of CQ; events and waiting candidates together stay as many under DEC. -/
def Obligations.EventsFollowCandidates : Prop :=
  ∀ (i : Instr) (s t : State), exec i s = .next t → i ≠ .reset → isCfg i = false →
    ∃ es, t.blk.evOut = s.blk.evOut ++ es ∧ es.length ≤ 1 ∧
      (es ≠ [] → i = .dec ∧ t.blk.cq = s.blk.cq.drop 1) ∧
      (i = .dec → t.blk.evOut.length + t.blk.cq.length = s.blk.evOut.length + s.blk.cq.length)

/-- 00_scope R7, 41_encoder R100, 95_test_vectors section 4 property 7: with no preamble and the round-trip law of the
black boxes, a payload encoded, drained, fed back byte by byte to a receiver that has received nothing, and decoded,
arrives whole in one buffer, which then has its length, with its Datagram event. -/
def Obligations.LoopbackDelivers : Prop :=
  ∀ (P : Config.Params) (s : State) (payload : List Byte) (cap : BitVec 16), P.SizesFit → P.RoundTrip →
    P.preamble = [] → s.blk.Running → s.blk.stop = false → s.blk.PatternOk → s.blk.rxState = .search →
    s.blk.fill = 0 → s.blk.cq = [] → s.blk.pq = [] → (∃ h : Nat, s.blk.own h = some .free) →
    (P.packBody payload s.blk.sps s.blk.bps s.blk.wOff).length ≤ 4095 → payload.length ≤ P.poolC →
    (encodeFrame P s.blk payload s.blk.wOff).length ≤ cap.toNat →
    ∃ (t : State) (h : Nat) (n : BitVec 13),
      execAll (execWith P) ([.txev 0x01 payload, .txdrain cap] ++
        (encodeFrame P s.blk payload s.blk.wOff).map .rxbyte ++ [.dec]) s = .next t ∧
      t.blk.txOut = s.blk.txOut ++ encodeFrame P s.blk payload s.blk.wOff ∧
      s.blk.own h = some .free ∧ t.blk.own h = some .inflight ∧
      t.blk.evOut = s.blk.evOut ++ [.datagram h payload.length] ∧
      t.blk.len h = some n ∧ n.toNat = payload.length ∧
      ∀ off, off < payload.length → t.blk.poolByte h off = payload[off]?

/-! ### Frames -/

/-- 10_state R14, 20_memory R57: what TXEV and TXDRAIN leave unchanged. -/
def Obligations.TransmitFrame : Prop :=
  (∀ (s t : State) (kind : Byte) (data : List Byte), exec (.txev kind data) s = .next t →
    t = { s with blk := { s.blk with pq := t.blk.pq, wOff := t.blk.wOff }, responses := t.responses } ∧
    ∀ (h off : Nat), t.blk.poolByte h off = s.blk.poolByte h off) ∧
  (∀ (s t : State) (cap : BitVec 16), exec (.txdrain cap) s = .next t →
    t = { s with
      blk := { s.blk with pq := t.blk.pq, txOut := t.blk.txOut, idleTmr := t.blk.idleTmr }
      responses := t.responses } ∧
    ∀ (h off : Nat), t.blk.poolByte h off = s.blk.poolByte h off)

/-- 10_state R14, 20_memory R57: what RXBIT and RXBYTE leave unchanged: everything but group (d). -/
def Obligations.ReceiveFrame : Prop :=
  ∀ (s t : State) (b : Bool) (v : Byte), (exec (.rxbit b) s = .next t ∨ exec (.rxbyte v) s = .next t) →
    t = { s with
      blk := { s.blk with
        sr := t.blk.sr, fill := t.blk.fill, rxState := t.blk.rxState, rxCnt := t.blk.rxCnt, hAcc := t.blk.hAcc,
        aux := t.blk.aux, bLen := t.blk.bLen, bAcc := t.blk.bAcc, raw := t.blk.raw, cq := t.blk.cq }
      responses := t.responses } ∧
    ∀ (h off : Nat), t.blk.poolByte h off = s.blk.poolByte h off

/-- 44_decoder_pool R124 to R129: what DEC leaves unchanged; the bytes it stores are those of the payload in the buffer
the arbiter grants, and no others. -/
def Obligations.DecodeFrame : Prop :=
  ∀ (s t : State), exec .dec s = .next t →
    t = { s with
      blk := { s.blk with
        fault := t.blk.fault, cq := t.blk.cq, pool := t.blk.pool, mem := t.blk.mem, evOut := t.blk.evOut,
        bkoTmr := t.blk.bkoTmr }
      decHeld := t.decHeld
      responses := t.responses } ∧
    (∀ g : Nat, s.blk.own g ≠ some .free → t.blk.pool[g]? = s.blk.pool[g]?) ∧
    (∀ (g off : Nat),
      (∀ (c : Candidate) (rest : List Candidate) (h0 : Nat) (hs : List Nat), s.blk.cq = c :: rest →
        s.blk.freeHandles = h0 :: hs → g = grant Config.params h0 hs →
        (Config.params.unpack c.raw c.aux).2.length ≤ off) →
      t.blk.poolByte g off = s.blk.poolByte g off)

/-- 44_decoder_pool R132, R133: BUFRD changes nothing but the responses; REL nothing but the ownership of its buffer. -/
def Obligations.BufferFrame : Prop :=
  (∀ (s t : State) (h : Byte) (off : BitVec 16), exec (.bufrd h off) s = .next t →
    t = { s with responses := t.responses } ∧
    ∀ (g x : Nat), t.blk.poolByte g x = s.blk.poolByte g x) ∧
  (∀ (s t : State) (h : Byte), exec (.rel h) s = .next t →
    t = { s with blk := { s.blk with pool := t.blk.pool }, responses := t.responses } ∧
    (∀ g : Nat, g ≠ h.toNat → t.blk.pool[g]? = s.blk.pool[g]?) ∧
    (∀ g : Nat, t.blk.len g = s.blk.len g) ∧
    ∀ (g x : Nat), t.blk.poolByte g x = s.blk.poolByte g x)

/-- 45_system R137, R139, R140, 40_config R86, R87: NOP and RDCSR change nothing but the responses, CANCEL nothing else
of the block than STOP, and CFG neither STOP nor FAULT nor a byte of the pool; none of the four touches packets, turns
or an RXBYTE in progress. -/
def Obligations.ControlFrame : Prop :=
  (∀ (s t : State) (idx : Byte), (exec .nop s = .next t ∨ exec (.rdcsr idx) s = .next t) →
    t = { s with responses := t.responses } ∧
    ∀ (h off : Nat), t.blk.poolByte h off = s.blk.poolByte h off) ∧
  (∀ (s t : State), exec .cancel s = .next t →
    t = { s with blk := { s.blk with stop := t.blk.stop }, decHeld := t.decHeld, responses := t.responses } ∧
    ∀ (h off : Nat), t.blk.poolByte h off = s.blk.poolByte h off) ∧
  (∀ (s t : State) (wo : Bool) (ac : Option (List Byte)) (thr bps : Byte) (sps : BitVec 32),
    exec (.cfg wo ac thr bps sps) s = .next t →
    t = { s with blk := t.blk, responses := t.responses } ∧ t.blk.stop = s.blk.stop ∧ t.blk.fault = s.blk.fault ∧
    ∀ (h off : Nat), t.blk.poolByte h off = s.blk.poolByte h off)

/-! ### The ports and the encoding -/

/-- 20_memory R54, 30_encoding R61 (turns and inputs are the model's own, log 5): when the next turn is port p's, no
operation is in progress on it and its next packet decodes, the step is the execution of that operation with the turn
and the packet taken. -/
def Obligations.StepRunsPacket : Prop :=
  ∀ (s : State) (p : Port) (c : Packet) (rest : List Packet) (ts : List Turn) (i : Instr),
    s.turns = .run p :: ts → s.inputs.get p = c :: rest → decode p c = .ok i →
    (p = .d → s.decHeld = false) → (p = .r → s.rxPend = []) →
    step s = exec i { s with turns := ts, inputs := s.inputs.put p rest }

/-- 30_encoding R73, 60_exceptions R147: a packet that does not decode is answered ILLEGAL on its port and changes
nothing of the block, in every state. -/
def Obligations.StepIllegal : Prop :=
  ∀ (s : State) (p : Port) (c : Packet) (rest : List Packet) (ts : List Turn) (e : Illegal),
    s.turns = .run p :: ts → s.inputs.get p = c :: rest → decode p c = .error e →
    (p = .d → s.decHeld = false) → (p = .r → s.rxPend = []) →
    step s = .next { s with
      turns := ts, inputs := s.inputs.put p rest, responses := s.responses ++ [⟨p, .illegal, []⟩] }

/-- 00_scope R12, 20_memory R55 (turns are the model's own, log 5): with no turn to come the machine stands still; a
turn of port D goes on with a held DEC from its first line, whatever packets wait. The model's own choice (log 6): a hold
ends at a turn of port D, also where a candidate of port R has lifted it, and no turn of another port ends it, a bit step
of port R neither, unless its operation is RESET or CANCEL. -/
def Obligations.StepIdleAndHeld : Prop :=
  (∀ s : State, s.turns = [] → step s = .next s) ∧
  (∀ (s : State) (ts : List Turn), s.turns = .run .d :: ts → s.decHeld = true →
    step s = exec .dec { s with turns := ts }) ∧
  (∀ (s t : State) (p : Port) (ts : List Turn), s.turns = .run p :: ts → p ≠ .d → s.decHeld = true →
    step s = .next t → t.decHeld = false → ∃ c rest, s.inputs.get p = c :: rest ∧
      (decode p c = .ok .reset ∨ decode p c = .ok .cancel)) ∧
  (∀ (s t : State) (ts : List Turn), s.turns = .rxStep :: ts → s.decHeld = true → step s = .next t →
    t.decHeld = true)

/-- 43_correlator R117, 20_memory R50 (the turns are the model's own, log 7): an RXBYTE taken bit by bit, with no other
port in between, ends in the state that it ends in when run in one turn. Its checks are made once, when it begins: once
in progress it takes its bits whatever FAULT has become and answers OK with the last one (that on a block another port
has reset the bits change nothing is deduced, log 7). -/
def Obligations.RxbyteInSteps : Prop :=
  (∀ (s : State) (c : Packet) (rest : List Packet) (ts : List Turn) (v : Byte), s.rxPend = [] →
    s.inputs.r = c :: rest → decode .r c = .ok (.rxbyte v) →
    (s.blk.Running → Host.Core.run Sys2Proof.core 8 { s with turns := List.replicate 8 .rxStep ++ ts } =
      step { s with turns := .run .r :: ts }) ∧
    (¬ s.blk.Running → step { s with turns := .rxStep :: ts } = step { s with turns := .run .r :: ts })) ∧
  (∀ (s : State) (b : Bool) (later : List Bool) (ts : List Turn), s.turns = .rxStep :: ts → s.rxPend = b :: later →
    step s = .next { s with
      turns := ts
      blk := if s.blk.ready then s.blk.rxBit b else s.blk
      rxPend := later
      responses := s.responses ++ (if later = [] then [⟨.r, .ok, []⟩] else []) }) ∧
  (∀ (s : State) (ts : List Turn), s.turns = .run .r :: ts → s.rxPend ≠ [] →
    step s = .next { s with
      turns := ts
      blk := if s.blk.ready then s.rxPend.foldl Block.rxBit s.blk else s.blk
      rxPend := []
      responses := s.responses ++ [⟨.r, .ok, []⟩] })

/-- 30_encoding R63, R64, R77: decoding the packet of any operation a packet can carry, on its port, gives it back. -/
def Obligations.DecodeEncode : Prop :=
  ∀ i : Instr, i.wellFormed = true → decode i.port (encode i) = .ok i

/-- 30_encoding R73, R77: a packet that decodes is the encoding of what it decodes to, on that operation's port, and
nothing else decodes. -/
def Obligations.EncodeDecode : Prop :=
  ∀ (p : Port) (c : Packet) (i : Instr), decode p c = .ok i → i.wellFormed = true ∧ i.port = p ∧ encode i = c

/-- 30_encoding R63, R73: the opcode table on a few words, and that an opcode has a row exactly when it is one of the
thirteen values; R65, R66, R67, 60_exceptions R141: the eleven status codes, the bytes of a response and the two event
records. -/
def Obligations.SpecWords : Prop :=
  (decode .c [0x02, 0x03, 0x02, 0x02, 0x00, 0x02, 0x80, 0x00, 0x01, 0x31] =
      .ok (.cfg true (some [0x31]) 0x02 0x02 0x00028000) ∧
    decode .c [0x04, 0x0E] = .ok (.rdcsr 0x0E) ∧
    decode .t [0x10, 0x01, 0x00, 0x02, 0xDE, 0xAD] = .ok (.txev 0x01 [0xDE, 0xAD]) ∧
    decode .t [0x11, 0x03, 0xE8] = .ok (.txdrain 1000) ∧
    decode .r [0x21] = .ok (.rxbit true) ∧ decode .r [0x22, 0xAA] = .ok (.rxbyte 0xAA) ∧
    decode .d [0x30] = .ok .dec ∧ decode .b [0x31, 0x05, 0x01, 0x02] = .ok (.bufrd 5 0x0102) ∧
    decode .b [0x32, 0x01] = .ok (.rel 1)) ∧
  (∀ c0 : Byte, (rowOf c0).isSome = true ↔
    c0.toNat ∈ [0x00, 0x01, 0x02, 0x03, 0x04, 0x10, 0x11, 0x20, 0x21, 0x22, 0x30, 0x31, 0x32]) ∧
  (Status.ok.code = 0x00 ∧ Status.idle.code = 0x01 ∧ Status.backoff.code = 0x02 ∧ Status.canceled.code = 0x03 ∧
    Status.cfgErr.code = 0x80 ∧ Status.notReady.code = 0x81 ∧ Status.badState.code = 0x82 ∧
    Status.badArg.code = 0x83 ∧ Status.illegal.code = 0x84 ∧ Status.faulted.code = 0x85 ∧
    Status.tooLong.code = 0x86) ∧
  (∀ (p : Port) (st : Status) (rs : List Byte), Response.bytes ⟨p, st, rs⟩ = st.code :: rs) ∧
  (∀ (h n : Nat),
    Event.record (.datagram h n) = [0x01, BitVec.ofNat 8 h, BitVec.ofNat 8 (n / 256), BitVec.ofNat 8 n]) ∧
  Event.record .fail = [0x02, 0x00, 0x00, 0x00]

/-! ### Invariants -/

/-- 10_state R39, 70_reset R162: every invariant holds after reset, whatever the number of buffers. -/
def Obligations.InvariantsAtReset : Prop :=
  State.reset.Inv Config.params ∧ ∀ P : Config.Params, (State.resetWith P.poolN).Inv P

/-- 10_state R39 (a), (b), (c), (g), R18: every step keeps the lifecycle invariant. -/
def Obligations.LifecycleKept : Prop :=
  ∀ s t : State, s.blk.LifecycleOk → step s = .next t → t.blk.LifecycleOk

/-- 10_state R39 (d), R27, R32, R33: every step keeps the assembler invariant. -/
def Obligations.AssemblerKept : Prop :=
  ∀ s t : State, s.blk.AssemblerOk → step s = .next t → t.blk.AssemblerOk

/-- 10_state R39 (e), 20_memory R43: every step keeps the pool invariant; so does every step of a machine of other
parameters whose sizes fit the fields. -/
def Obligations.PoolKept : Prop :=
  (∀ s t : State, s.blk.PoolOk Config.params → step s = .next t → t.blk.PoolOk Config.params) ∧
  (∀ (P : Config.Params) (s t : State), P.SizesFit → s.blk.PoolOk P → stepWith (execWith P) s = .next t →
    t.blk.PoolOk P)

/-- 10_state R34, 20_memory R43, R52 (the canonical form is the model's own, log 14): every step keeps the number of
buffers and the pool memory's addresses strictly rising and inside the pool; so does every step of a machine of other
parameters whose sizes fit the fields. -/
def Obligations.MemoryKept : Prop :=
  (∀ s t : State, s.blk.MemoryOk Config.params → step s = .next t → t.blk.MemoryOk Config.params) ∧
  (∀ (P : Config.Params) (s t : State), P.SizesFit → s.blk.MemoryOk P → stepWith (execWith P) s = .next t →
    t.blk.MemoryOk P)

/-- 44_decoder_pool R124, 20_memory R50, R55, 60_exceptions R155 (log 6, log 7, log 9): every step keeps a held DEC's
block running and uncanceled, an RXBYTE in progress below eight bits, and the timers run out. -/
def Obligations.PortsKept : Prop :=
  ∀ s t : State, s.HoldOk → s.QuietOk → step s = .next t → t.HoldOk ∧ t.QuietOk
end

