-- ==== Sys2Proof/Laws/Encoding.lean ====
section
/-! SUPPORT. The byte order of packet fields, both ways, and what the opcode table says of a first byte. -/

namespace Sys2Proof

/-- The bytes of a 16-bit field read back (20_memory R47 (c)). -/
theorem be16_bytes16 (v : BitVec 16) : be16 (byteOf v 1) (byteOf v 0) = v := by
  apply BitVec.eq_of_toNat_eq
  have := v.isLt
  simp only [be16, byteOf, BitVec.toNat_append, BitVec.extractLsb'_toNat, Nat.shiftRight_eq_div_pow]
  rw [← Nat.shiftLeft_add_eq_or_of_lt (by omega)]
  simp only [Nat.shiftLeft_eq]
  omega

/-- The bytes of a 32-bit field read back. -/
theorem be32_bytes32 (v : BitVec 32) : be32 (byteOf v 3) (byteOf v 2) (byteOf v 1) (byteOf v 0) = v := by
  apply BitVec.eq_of_toNat_eq
  have := v.isLt
  simp only [be32, byteOf, BitVec.toNat_append, BitVec.extractLsb'_toNat, Nat.shiftRight_eq_div_pow]
  rw [← Nat.shiftLeft_add_eq_or_of_lt (by omega), ← Nat.shiftLeft_add_eq_or_of_lt (by omega),
    ← Nat.shiftLeft_add_eq_or_of_lt (by omega)]
  simp only [Nat.shiftLeft_eq]
  omega

/-- Two bytes as a number. -/
theorem be16_toNat (a b : Byte) : (be16 a b).toNat = a.toNat * 256 + b.toNat := by
  have := b.isLt
  simp only [be16, BitVec.toNat_append]
  rw [← Nat.shiftLeft_add_eq_or_of_lt (by omega), Nat.shiftLeft_eq]

/-- Four bytes as a number. -/
theorem be32_toNat (a b c d : Byte) :
    (be32 a b c d).toNat = ((a.toNat * 256 + b.toNat) * 256 + c.toNat) * 256 + d.toNat := by
  have := b.isLt
  have := c.isLt
  have := d.isLt
  simp only [be32, BitVec.toNat_append]
  rw [← Nat.shiftLeft_add_eq_or_of_lt (by omega), ← Nat.shiftLeft_add_eq_or_of_lt (by omega),
    ← Nat.shiftLeft_add_eq_or_of_lt (by omega)]
  simp only [Nat.shiftLeft_eq]

/-- Two bytes written back. -/
theorem bytes16_be16 (a b : Byte) : bytes16 (be16 a b) = [a, b] := by
  have := a.isLt
  have := b.isLt
  simp only [bytes16, List.cons.injEq, and_true]
  refine ⟨?_, ?_⟩ <;> apply BitVec.eq_of_toNat_eq <;>
    simp only [byteOf, BitVec.extractLsb'_toNat, Nat.shiftRight_eq_div_pow, be16_toNat] <;> omega

/-- Four bytes written back. -/
theorem bytes32_be32 (a b c d : Byte) : bytes32 (be32 a b c d) = [a, b, c, d] := by
  have := a.isLt
  have := b.isLt
  have := c.isLt
  have := d.isLt
  simp only [bytes32, List.cons.injEq, and_true]
  refine ⟨?_, ?_, ?_, ?_⟩ <;> apply BitVec.eq_of_toNat_eq <;>
    simp only [byteOf, BitVec.extractLsb'_toNat, Nat.shiftRight_eq_div_pow, be32_toNat] <;> omega

/-- A `CFG` flag byte with its reserved bits 0 is made of its two flags. -/
theorem cfgFlags_eq (fl : Byte) (h : fl.extractLsb' 2 6 = 0) : fl = cfgFlags (fl.getLsbD 0) (fl.getLsbD 1) := by
  revert h
  revert fl
  decide

/-- The row a first byte has: its port is its mnemonic's, and the byte is the row's value, but for bit 0 of `RXBIT`. -/
theorem row_of_opcode (c0 : Byte) (r : OpRow) (h : rowOf c0 = some r) :
    r.port = r.op.port ∧ r ∈ opTable ∧
      (if r.op = .rxbit then c0 = (if c0.getLsbD 0 then 0x21 else 0x20) else c0 = r.value) := by
  have all : ∀ c0 : Byte, (rowOf c0).all (fun r => decide (r.port = r.op.port ∧
      if r.op = .rxbit then c0 = (if c0.getLsbD 0 then 0x21 else 0x20) else c0 = r.value)) = true := by decide
  have := all c0
  rw [h] at this
  simp only [Option.all_some, decide_eq_true_eq] at this
  exact ⟨this.1, List.mem_of_find?_eq_some h, this.2⟩

end Sys2Proof
end

