-- ==== Sys2Proof/Laws/State.lean ====
section
/-! SUPPORT. Field lemmas: what each named update of the state and of the block does to the fields proofs read. -/

namespace Sys2Proof.Machine

section complete
variable (s : State) (p : Port) (k : Block) (st : Status) (rs : List Byte)

@[simp] theorem State.complete_blk : (s.complete p k st rs).blk = k := rfl
@[simp] theorem State.complete_decHeld : (s.complete p k st rs).decHeld = s.decHeld := rfl
@[simp] theorem State.complete_rxPend : (s.complete p k st rs).rxPend = s.rxPend := rfl
@[simp] theorem State.complete_inputs : (s.complete p k st rs).inputs = s.inputs := rfl
@[simp] theorem State.complete_turns : (s.complete p k st rs).turns = s.turns := rfl
@[simp] theorem State.complete_responses :
    (s.complete p k st rs).responses = s.responses ++ [⟨p, st, rs⟩] := rfl

@[simp] theorem State.completeDec_blk : (s.completeDec k st rs).blk = k := rfl
@[simp] theorem State.completeDec_decHeld : (s.completeDec k st rs).decHeld = false := rfl
@[simp] theorem State.completeDec_rxPend : (s.completeDec k st rs).rxPend = s.rxPend := rfl
@[simp] theorem State.completeDec_inputs : (s.completeDec k st rs).inputs = s.inputs := rfl
@[simp] theorem State.completeDec_turns : (s.completeDec k st rs).turns = s.turns := rfl
@[simp] theorem State.completeDec_responses :
    (s.completeDec k st rs).responses = s.responses ++ [⟨.d, st, rs⟩] := rfl
end complete

section accept
variable (s : State) (p : Port) (rest : List Packet)

@[simp] theorem State.accept_blk : (s.accept p rest).blk = s.blk := rfl
@[simp] theorem State.accept_decHeld : (s.accept p rest).decHeld = s.decHeld := rfl
@[simp] theorem State.accept_rxPend : (s.accept p rest).rxPend = s.rxPend := rfl
@[simp] theorem State.accept_turns : (s.accept p rest).turns = s.turns := rfl
@[simp] theorem State.accept_responses : (s.accept p rest).responses = s.responses := rfl
@[simp] theorem State.accept_inputs : (s.accept p rest).inputs = s.inputs.put p rest := rfl
end accept

section inputs
variable (q : Inputs) (p o : Port) (ps : List Packet)

@[simp] theorem Inputs.get_put_same : (q.put p ps).get p = ps := by cases p <;> rfl
theorem Inputs.get_put_other (h : o ≠ p) : (q.put p ps).get o = q.get o := by
  cases p <;> cases o <;> first | rfl | exact absurd rfl h
end inputs

section block
variable (k : Block)

@[simp] theorem Block.setOwn_pool (h : Nat) (o : Ownership) :
    (k.setOwn h o).pool = k.pool.modify h (fun b => { b with own := o }) := rfl
@[simp] theorem Block.setOwn_mem (h : Nat) (o : Ownership) : (k.setOwn h o).mem = k.mem := rfl
@[simp] theorem Block.setOwn_evOut (h : Nat) (o : Ownership) : (k.setOwn h o).evOut = k.evOut := rfl

@[simp] theorem Block.handOver_cq (h : Nat) (pl : List Byte) (r : List Candidate) :
    (k.handOver h pl r).cq = r := rfl
@[simp] theorem Block.handOver_mem (h : Nat) (pl : List Byte) (r : List Candidate) :
    (k.handOver h pl r).mem = memWriteRun k.mem (poolAddr h 0) pl := rfl
@[simp] theorem Block.handOver_pool (h : Nat) (pl : List Byte) (r : List Candidate) :
    (k.handOver h pl r).pool = k.pool.set h ⟨.inflight, BitVec.ofNat 13 pl.length⟩ := rfl
@[simp] theorem Block.handOver_evOut (h : Nat) (pl : List Byte) (r : List Candidate) :
    (k.handOver h pl r).evOut = k.evOut ++ [.datagram h pl.length] := rfl
@[simp] theorem Block.handOver_ready (h : Nat) (pl : List Byte) (r : List Candidate) :
    (k.handOver h pl r).ready = k.ready := rfl
@[simp] theorem Block.handOver_fault (h : Nat) (pl : List Byte) (r : List Candidate) :
    (k.handOver h pl r).fault = k.fault := rfl
@[simp] theorem Block.handOver_stop (h : Nat) (pl : List Byte) (r : List Candidate) :
    (k.handOver h pl r).stop = k.stop := rfl

@[simp] theorem oneShotEnd_eq (n : Nat) : oneShotEnd n = 0 := rfl
theorem Block.sleepIdle_eq (P : Config.Params) : k.sleepIdle P = { k with idleTmr := 0 } := rfl
theorem Block.sleepBackoff_eq (P : Config.Params) : k.sleepBackoff P = { k with bkoTmr := 0 } := rfl

@[simp] theorem Block.shiftIn_sr (b : Bool) : (k.shiftIn b).sr = k.sr.shiftConcat b := rfl
@[simp] theorem Block.shiftIn_fill (b : Bool) : (k.shiftIn b).fill = fillUp k.fill := rfl
@[simp] theorem Block.shiftIn_rxState (b : Bool) : (k.shiftIn b).rxState = k.rxState := rfl
@[simp] theorem Block.shiftIn_rxCnt (b : Bool) : (k.shiftIn b).rxCnt = k.rxCnt := rfl
@[simp] theorem Block.shiftIn_hAcc (b : Bool) : (k.shiftIn b).hAcc = k.hAcc := rfl
@[simp] theorem Block.shiftIn_bAcc (b : Bool) : (k.shiftIn b).bAcc = k.bAcc := rfl
@[simp] theorem Block.shiftIn_raw (b : Bool) : (k.shiftIn b).raw = k.raw := rfl
@[simp] theorem Block.shiftIn_cq (b : Bool) : (k.shiftIn b).cq = k.cq := rfl
@[simp] theorem Block.shiftIn_aux (b : Bool) : (k.shiftIn b).aux = k.aux := rfl
@[simp] theorem Block.shiftIn_bLen (b : Bool) : (k.shiftIn b).bLen = k.bLen := rfl
@[simp] theorem Block.shiftIn_thr (b : Bool) : (k.shiftIn b).thr = k.thr := rfl
@[simp] theorem Block.shiftIn_acLen (b : Bool) : (k.shiftIn b).acLen = k.acLen := rfl
@[simp] theorem Block.shiftIn_pat (b : Bool) : (k.shiftIn b).pat = k.pat := rfl

/-- The advance of the whitener offset, as one field. -/
theorem Block.advanceWhitener_eq :
    k.advanceWhitener = { k with wOff := if k.wen then BitVec.ofNat 4 ((k.wOff.toNat + 1) % 16) else k.wOff } := by
  unfold Block.advanceWhitener; split <;> rfl

/-- An accepted datagram changes `PQ` and `WOFF` only. -/
theorem Block.encodeDatagram_eq (P : Config.Params) (d : List Byte) :
    k.encodeDatagram P d = { k with
      pq := k.pq ++ encodeFrame P k d k.wOff
      wOff := if k.wen then BitVec.ofNat 4 ((k.wOff.toNat + 1) % 16) else k.wOff } :=
  Block.advanceWhitener_eq _
end block

section reset
variable (n : Nat) (h : Nat)

@[simp] theorem resetWith_pool : (Block.resetWith n).pool = List.replicate n ⟨.free, 0⟩ := rfl

/-- Reset: a buffer is free and of length 0. -/
theorem resetWith_pool_get (b : Buf) (hb : (Block.resetWith n).pool[h]? = some b) : b = ⟨.free, 0⟩ := by
  rw [resetWith_pool, List.getElem?_replicate] at hb
  split at hb <;> cases hb
  rfl

/-- Reset: the buffers that exist are `FREE`. -/
@[simp] theorem resetWith_own : (Block.resetWith n).own h = if h < n then some .free else none := by
  simp only [Block.own, resetWith_pool, List.getElem?_replicate]
  split <;> rfl

/-- Reset: the buffers that exist have length 0. -/
@[simp] theorem resetWith_len : (Block.resetWith n).len h = if h < n then some 0 else none := by
  simp only [Block.len, resetWith_pool, List.getElem?_replicate]
  split <;> rfl
end reset

end Sys2Proof.Machine
end

