-- ==== Sys2Proof/Laws/Memory.lean ====
section
/-! SUPPORT. The pool memory: a read after a write, and that every write keeps the canonical form. -/

namespace Sys2Proof.Machine

variable (m : List Host.Cell) (x y : Nat) (v : Byte)

/-- A read of the byte just written. -/
@[simp] theorem memRead_memWrite_same : memRead (memWrite m x v) x = some v := by
  induction m with
  | nil => simp [memWrite, memRead]
  | cons c m ih =>
    obtain ⟨a, w⟩ := c
    simp only [memWrite]
    split
    · simp [memRead]
    · split
      · simp [memRead]
      · rename_i h1 h2
        simp [memRead, show a ≠ x from fun h => h2 h.symm, ih]

/-- A write leaves every other byte alone. -/
theorem memRead_memWrite_other (h : y ≠ x) : memRead (memWrite m x v) y = memRead m y := by
  induction m with
  | nil => simp [memWrite, memRead, h.symm]
  | cons c m ih =>
    obtain ⟨a, w⟩ := c
    simp only [memWrite]
    split
    · simp [memRead, h.symm]
    · split
      · rename_i h2
        subst h2
        simp [memRead, h.symm]
      · simp [memRead, ih]

/-- A read below or above a run of bytes just written. -/
theorem memRead_memWriteRun_other (vs : List Byte) (h : y < x ∨ x + vs.length ≤ y) :
    memRead (memWriteRun m x vs) y = memRead m y := by
  induction vs generalizing m x with
  | nil => rfl
  | cons w vs ih =>
    simp only [List.length_cons] at h
    rw [memWriteRun, ih _ _ (by omega), memRead_memWrite_other _ _ _ _ (by omega)]

/-- A read inside a run of bytes just written. -/
theorem memRead_memWriteRun_inside (vs : List Byte) (i : Nat) (h : i < vs.length) :
    memRead (memWriteRun m x vs) (x + i) = vs[i]? := by
  induction vs generalizing m x i with
  | nil => simp at h
  | cons w vs ih =>
    cases i with
    | zero => rw [memWriteRun, memRead_memWriteRun_other _ _ _ _ (by omega)]; simp
    | succ i =>
      rw [memWriteRun, show x + (i + 1) = x + 1 + i by omega, ih _ _ _ (by simpa using h)]
      simp

/-- All listed addresses are above `x`. -/
def memAbove (x : Nat) (m : List Host.Cell) : Prop := ∀ c ∈ m, x < c.1

theorem memRising_cons (a : Nat) (w : Byte) :
    memRising ((a, w) :: m) = true ↔ memAbove a m ∧ memRising m = true := by
  induction m generalizing a w with
  | nil => simp [memRising, memAbove]
  | cons c m ih =>
    obtain ⟨b, u⟩ := c
    simp only [memRising, Bool.and_eq_true, decide_eq_true_eq, ih b u, memAbove, List.mem_cons, forall_eq_or_imp]
    constructor
    · rintro ⟨hab, h1, h2⟩
      exact ⟨⟨hab, fun c hc => lt_trans hab (h1 c hc)⟩, h1, h2⟩
    · rintro ⟨⟨hab, _⟩, h1, h2⟩
      exact ⟨hab, h1, h2⟩

theorem memAbove_memWrite (a : Nat) (h : memAbove a m) (hx : a < x) : memAbove a (memWrite m x v) := by
  induction m with
  | nil => simpa [memWrite, memAbove] using hx
  | cons c m ih =>
    obtain ⟨b, u⟩ := c
    simp only [memAbove, List.mem_cons, forall_eq_or_imp] at h
    simp only [memWrite]
    split
    · simpa [memAbove, hx, h.1] using fun a b hb => h.2 (a, b) hb
    · split
      · simpa [memAbove, hx] using fun a b hb => h.2 (a, b) hb
      · simpa [memAbove, h.1] using fun a b hb => ih h.2 (a, b) hb

/-- A write keeps the addresses strictly rising. -/
theorem memRising_memWrite (h : memRising m = true) : memRising (memWrite m x v) = true := by
  induction m with
  | nil => rfl
  | cons c m ih =>
    obtain ⟨a, w⟩ := c
    have hm := (memRising_cons m a w).1 h
    simp only [memWrite]
    split
    · rename_i hx
      rw [memRising_cons]
      refine ⟨?_, h⟩
      intro c hc
      rcases List.mem_cons.1 hc with rfl | hc
      · exact hx
      · exact lt_trans hx (hm.1 c hc)
    · split
      · rename_i h1 h2
        subst h2
        exact (memRising_cons m x v).2 hm
      · exact (memRising_cons _ a w).2 ⟨memAbove_memWrite m x v a hm.1 (by omega), ih hm.2⟩

theorem memInRange_memWrite (P : Config.Params) (h : memInRange P m = true) (hx : addrExists P x = true) :
    memInRange P (memWrite m x v) = true := by
  induction m with
  | nil => simpa [memWrite, memInRange] using hx
  | cons c m ih =>
    obtain ⟨a, w⟩ := c
    simp only [memInRange, List.all_cons, Bool.and_eq_true] at h
    simp only [memWrite]
    split
    · simpa [memInRange, h.1, hx] using h.2
    · split
      · simpa [memInRange, hx] using h.2
      · have := ih (by simpa [memInRange] using h.2)
        simp only [memInRange, List.all_cons, Bool.and_eq_true]
        exact ⟨h.1, this⟩

/-- A run of bytes written to addresses that exist keeps the canonical form. -/
theorem memWf_memWriteRun (P : Config.Params) (vs : List Byte) (h : Memory.wf P m = true)
    (hx : ∀ i, i < vs.length → addrExists P (x + i) = true) : Memory.wf P (memWriteRun m x vs) = true := by
  induction vs generalizing m x with
  | nil => exact h
  | cons w vs ih =>
    simp only [List.length_cons] at hx
    simp only [Memory.wf, Bool.and_eq_true] at h
    refine ih _ _ ?_ fun i hi => ?_
    · simp only [Memory.wf, Bool.and_eq_true]
      exact ⟨memRising_memWrite m x w h.1, memInRange_memWrite m x w P h.2 (hx 0 (by omega))⟩
    · rw [Nat.add_assoc, Nat.add_comm 1 i]
      exact hx (i + 1) (by omega)

theorem poolAddr_zero_add (h off : Nat) : poolAddr h off = poolAddr h 0 + off := by simp [poolAddr]

/-- Two bytes with one address are one byte. -/
theorem poolAddr_inj (h g : Nat) (off x : Nat) (ho : off < poolStride) (hx : x < poolStride)
    (e : poolAddr h off = poolAddr g x) : h = g ∧ off = x := by
  simp only [poolAddr, poolStride] at *
  omega

/-- The bytes of the pool exist. -/
theorem addrExists_poolAddr (P : Config.Params) (hP : P.SizesFit) (h off : Nat) (hh : h < P.poolN)
    (ho : off < P.poolC) : addrExists P (poolAddr h off) = true := by
  have := hP.2.2.2
  unfold addrExists poolAddr poolStride
  exact Bool.and_eq_true_iff.2 ⟨decide_eq_true (by omega), decide_eq_true (by omega)⟩

/-- After a hand-over the buffer holds the payload. -/
theorem poolByte_handOver_inside (k : Block) (h : Nat) (pl : List Byte) (r : List Candidate)
    (hl : pl.length ≤ poolStride) (off : Nat) (ho : off < pl.length) :
    (k.handOver h pl r).poolByte h off = pl[off]? := by
  simp only [Block.poolByte, Block.handOver_mem, if_pos (lt_of_lt_of_le ho hl)]
  rw [poolAddr_zero_add]
  exact memRead_memWriteRun_inside _ _ _ _ ho

/-- A hand-over leaves every other byte of the pool as it was. -/
theorem poolByte_handOver_outside (k : Block) (h : Nat) (pl : List Byte) (r : List Candidate)
    (hl : pl.length ≤ poolStride) (g off : Nat) (ho : ¬(g = h ∧ off < pl.length)) :
    (k.handOver h pl r).poolByte g off = k.poolByte g off := by
  simp only [Block.poolByte, Block.handOver_mem]
  split
  · refine memRead_memWriteRun_other _ _ _ _ ?_
    simp only [poolAddr, poolStride] at *
    omega
  · rfl

end Sys2Proof.Machine
end

