-- ==== Sys2Proof/Laws/Ops.lean ====
section
/-! SUPPORT. What each shared operation can do: the checks on the flags, handles and the arbiter, bit sequences and the
shift registers. -/

namespace Sys2Proof.Machine

/-! ### The checks -/

theorem gate_eq_none (k : Block) : k.gate = none ↔ k.Running := by
  unfold Block.gate Block.Running
  cases k.fault <;> cases k.ready <;> simp

@[simp] theorem gate_of_running (k : Block) (h : k.Running) : k.gate = none := (gate_eq_none k).2 h

theorem gate_of_fault (k : Block) (h : k.fault = true) : k.gate = some .faulted := by simp [Block.gate, h]

theorem gate_of_unready (k : Block) (h : k.fault = false) (hr : k.ready = false) : k.gate = some .notReady := by
  simp [Block.gate, h, hr]

/-- The gate looks at two flags only. -/
theorem gate_congr (k l : Block) (hf : k.fault = l.fault) (hr : k.ready = l.ready) : k.gate = l.gate := by
  simp [Block.gate, hf, hr]

theorem decRefusal_eq_none (k : Block) : k.decRefusal = none ↔ k.Running ∧ k.stop = false := by
  unfold Block.decRefusal Block.gate Block.Running
  cases k.fault <;> cases k.ready <;> cases k.stop <;> simp

@[simp] theorem decRefusal_of_running (k : Block) (h : k.Running) (hs : k.stop = false) : k.decRefusal = none :=
  (decRefusal_eq_none k).2 ⟨h, hs⟩

theorem decRefusal_of_stop (k : Block) (h : k.Running) (hs : k.stop = true) :
    k.decRefusal = some (.canceled, [0x00]) := by
  simp [Block.decRefusal, gate_of_running k h, hs]

/-- `endHold` completes a held `DEC` that is refused, and does nothing else. -/
theorem endHold_cases (s : State) :
    s.endHold = s ∨ ∃ r, s.decHeld = true ∧ s.blk.decRefusal = some r ∧ s.endHold = s.completeDec s.blk r.1 r.2 := by
  unfold State.endHold
  split
  · rename_i h
    split
    · rename_i r hr
      exact .inr ⟨r, h, hr, rfl⟩
    · exact .inl rfl
  · exact .inl rfl

@[simp] theorem endHold_blk (s : State) : s.endHold.blk = s.blk := by
  rcases endHold_cases s with h | ⟨r, -, -, h⟩ <;> rw [h]; rfl

@[simp] theorem endHold_rxPend (s : State) : s.endHold.rxPend = s.rxPend := by
  rcases endHold_cases s with h | ⟨r, -, -, h⟩ <;> rw [h]; rfl

@[simp] theorem endHold_inputs (s : State) : s.endHold.inputs = s.inputs := by
  rcases endHold_cases s with h | ⟨r, -, -, h⟩ <;> rw [h]; rfl

@[simp] theorem endHold_turns (s : State) : s.endHold.turns = s.turns := by
  rcases endHold_cases s with h | ⟨r, -, -, h⟩ <;> rw [h]; rfl

/-! ### Handles and the arbiter -/

/-- An `INFLIGHT` buffer's length is what its handle names (44_decoder_pool R132, R133). -/
theorem inflightLen_eq_some (k : Block) (h : Byte) (n : BitVec 13) :
    k.inflightLen h = some n ↔ k.own h.toNat = some .inflight ∧ k.len h.toNat = some n := by
  unfold Block.inflightLen
  split <;> simp_all

theorem inflightLen_eq_none (k : Block) (h : Byte) : k.inflightLen h = none ↔ k.own h.toNat ≠ some .inflight := by
  unfold Block.inflightLen Block.own Block.len
  cases k.pool[h.toNat]? <;> simp

/-- A buffer has an owner exactly when it has a length: when it exists. -/
theorem own_len (k : Block) (h : Nat) (o : Ownership) (ho : k.own h = some o) :
    ∃ b, k.pool[h]? = some b ∧ b.own = o ∧ k.len h = some b.len := by
  unfold Block.own at ho
  cases hb : k.pool[h]? with
  | none => simp [hb] at ho
  | some b => exact ⟨b, rfl, by simpa [hb] using ho, by simp [Block.len, hb]⟩

theorem own_of_get (k : Block) (h : Nat) (b : Buf) (hb : k.pool[h]? = some b) : k.own h = some b.own := by
  simp [Block.own, hb]

theorem len_of_get (k : Block) (h : Nat) (b : Buf) (hb : k.pool[h]? = some b) : k.len h = some b.len := by
  simp [Block.len, hb]

/-- Only a buffer that exists has an owner. -/
theorem own_lt (k : Block) (h : Nat) (o : Ownership) (ho : k.own h = some o) : h < k.pool.length := by
  obtain ⟨b, hb, -⟩ := own_len k h o ho
  exact (List.getElem?_eq_some_iff.1 hb).1

theorem mem_freeHandles (k : Block) (h : Nat) : h ∈ k.freeHandles ↔ k.own h = some .free := by
  simp only [Block.freeHandles, List.mem_filter, List.mem_range, decide_eq_true_eq, and_iff_right_iff_imp]
  exact own_lt k h .free

theorem freeHandles_eq_nil (k : Block) : k.freeHandles = [] ↔ ∀ h : Nat, k.own h ≠ some .free := by
  simp only [List.eq_nil_iff_forall_not_mem, mem_freeHandles, ne_eq]

/-- The arbiter always grants a member of the set it is given (44_decoder_pool R130). -/
theorem grant_mem (P : Config.Params) (h0 : Nat) (hs : List Nat) : grant P h0 hs ∈ h0 :: hs := by
  unfold grant
  have hlt : P.arbPick (h0 :: hs) % (h0 :: hs).length < (h0 :: hs).length := Nat.mod_lt _ (by simp)
  rw [List.getElem?_eq_getElem hlt, Option.getD_some]
  exact List.getElem_mem hlt

theorem grant_free (P : Config.Params) (k : Block) (h0 : Nat) (hs : List Nat) (h : k.freeHandles = h0 :: hs) :
    k.own (grant P h0 hs) = some .free := by
  rw [← mem_freeHandles, h]
  exact grant_mem P h0 hs

/-- The buffers after a change of ownership. -/
theorem setOwn_get (k : Block) (h : Nat) (o : Ownership) (g : Nat) :
    (k.setOwn h o).pool[g]? = if h = g then (k.pool[g]?).map (fun b => { b with own := o }) else k.pool[g]? := by
  rw [Block.setOwn_pool, List.getElem?_modify]
  split <;> simp

/-- The buffers after a hand-over to one that exists. -/
theorem handOver_get (k : Block) (h : Nat) (pl : List Byte) (r : List Candidate) (g : Nat)
    (hh : h < k.pool.length) :
    (k.handOver h pl r).pool[g]? = if h = g then some ⟨.inflight, BitVec.ofNat 13 pl.length⟩ else k.pool[g]? := by
  rw [Block.handOver_pool, List.getElem?_set]
  simp [hh]

/-- A length that fits a buffer fits its register. -/
theorem len_toNat (n c : Nat) (h : n ≤ c) (hc : c < 2 ^ 13) : (BitVec.ofNat 13 n).toNat = n := by
  rw [BitVec.toNat_ofNat]
  exact Nat.mod_eq_of_lt (by omega)

/-! ### Bit sequences -/

@[simp] theorem bitsMsb_length (w v : Nat) : (bitsMsb w v).length = w := by
  induction w with
  | zero => rfl
  | succ w ih => simp [bitsMsb, ih]

theorem bitsMsb_eq_map (w v : Nat) : bitsMsb w v = (List.range w).map (fun j => v.testBit (w - 1 - j)) := by
  induction w with
  | zero => rfl
  | succ w ih =>
    rw [bitsMsb, List.range_succ_eq_map, List.map_cons, List.map_map, ih]
    refine congrArg₂ _ (by simp) (List.map_congr_left fun j hj => ?_)
    simp only [Function.comp_apply]
    congr 1
    omega

@[simp] theorem byteBits_length (v : Byte) : (byteBits v).length = 8 := by simp [byteBits]

theorem byteBits_eq_map (v : Byte) : byteBits v = (List.range 8).map (fun j => v.getLsbD (7 - j)) := by
  rw [byteBits, bitsMsb_eq_map]
  exact List.map_congr_left fun j _ => rfl

/-- The eight bits of a byte, written out. -/
theorem byteBits_eq (v : Byte) : byteBits v = [v.getLsbD 7, v.getLsbD 6, v.getLsbD 5, v.getLsbD 4, v.getLsbD 3,
    v.getLsbD 2, v.getLsbD 1, v.getLsbD 0] := rfl

theorem byteBits_byteOfBits (b7 b6 b5 b4 b3 b2 b1 b0 : Bool) :
    byteBits (byteOfBits b7 b6 b5 b4 b3 b2 b1 b0) = [b7, b6, b5, b4, b3, b2, b1, b0] := by
  revert b7 b6 b5 b4 b3 b2 b1 b0
  decide

/-- A sequence that does not begin with eight bits has fewer. -/
theorem length_lt_eight (bs : List Bool)
    (h : ∀ b7 b6 b5 b4 b3 b2 b1 b0 rest, bs = b7 :: b6 :: b5 :: b4 :: b3 :: b2 :: b1 :: b0 :: rest → False) :
    bs.length < 8 := by
  rcases bs with _ | ⟨a, _ | ⟨b, _ | ⟨c, _ | ⟨d, _ | ⟨e, _ | ⟨f, _ | ⟨g, _ | ⟨i, rest⟩⟩⟩⟩⟩⟩⟩⟩
  case cons.cons.cons.cons.cons.cons.cons.cons => exact (h a b c d e f g i rest rfl).elim
  all_goals simp

/-- Bytes made of a whole number of eight bits give the bits back. -/
theorem flatMap_bytesOfBits (bs : List Bool) (h : bs.length % 8 = 0) : (bytesOfBits bs).flatMap byteBits = bs := by
  fun_induction bytesOfBits bs with
  | case1 b7 b6 b5 b4 b3 b2 b1 b0 rest ih =>
    simp only [List.length_cons] at h
    rw [List.flatMap_cons, byteBits_byteOfBits, ih (by omega)]
    rfl
  | case2 bs hbs =>
    have := length_lt_eight bs hbs
    have : bs = [] := List.eq_nil_of_length_eq_zero (by omega)
    subst this
    rfl

theorem bytesOfBits_length (bs : List Bool) : (bytesOfBits bs).length = bs.length / 8 := by
  fun_induction bytesOfBits bs with
  | case1 b7 b6 b5 b4 b3 b2 b1 b0 rest ih => simp only [List.length_cons, ih]; omega
  | case2 bs hbs =>
    have := length_lt_eight bs hbs
    simp only [List.length_nil]
    omega

@[simp] theorem headerBits_length (o : BitVec 4) (n : Nat) : (headerBits o n).length = 32 := by simp [headerBits]

@[simp] theorem bodyBits_length (body : List Byte) : (bodyBits body).length = 8 * body.length := by
  induction body with
  | nil => rfl
  | cons v body ih => simp only [bodyBits, List.flatMap_cons, List.length_append, byteBits_length] at *; simp; omega

@[simp] theorem codeBits_length (k : Block) : (codeBits k).length = k.acLen.toNat := by simp [codeBits]

/-! ### Shift registers and counters -/

/-- A shift register holds twice its number plus the new bit, modulo its size. -/
theorem shiftConcat_eq {w : Nat} (x : BitVec w) (b : Bool) :
    x.shiftConcat b = BitVec.ofNat w (x.toNat * 2 + b.toNat) := by
  apply BitVec.eq_of_toNat_eq
  simp only [BitVec.toNat_shiftConcat, BitVec.toNat_ofNat, Nat.shiftLeft_eq]

theorem fillUp_toNat (f : BitVec 7) : (fillUp f).toNat = min (f.toNat + 1) 64 := by
  simp only [fillUp, BitVec.toNat_ofNat]
  omega

theorem countDown_toNat (c : BitVec 16) : (countDown c).toNat = c.toNat - 1 := by
  unfold countDown
  split
  · rename_i h; subst h; rfl
  · rename_i h
    have : c.toNat ≠ 0 := fun e => h (BitVec.eq_of_toNat_eq (by simpa using e))
    have := c.isLt
    bv_omega

theorem countDown_of_ne (c : BitVec 16) (h : c ≠ 0) : countDown c = c - 1 := if_neg h

theorem rxCnt_eq_zero (c : BitVec 16) : c = 0 ↔ c.toNat = 0 := by
  constructor
  · rintro rfl; rfl
  · intro h; exact BitVec.eq_of_toNat_eq (by simpa using h)

end Sys2Proof.Machine
end

