-- ==== Sys2Proof/Laws/Exec.lean ====
section
/-! SUPPORT. For each operation, everything it can answer: if it answers `next t`, one of these cases holds. -/

namespace Sys2Proof.Machine

/-- `exec` is the case `P = Config.params` of the operations over any parameters. -/
theorem exec_eq_execWith (i : Instr) (s : State) : exec i s = execWith Config.params i s := by cases i <;> rfl

theorem execNop_cases {s t : State} (h : execNop s = .next t) : t = s.complete .c s.blk .ok [] := by
  cases h; rfl

theorem execResetWith_cases {P : Config.Params} {s t : State} (h : execResetWith P s = .next t) :
    t = (s.complete .c (Block.resetWith P.poolN) .ok []).endHold := by
  cases h; rfl

theorem execCancel_cases {s t : State} (h : execCancel s = .next t) :
    t = (s.complete .c s.blk.flagStop .ok []).endHold := by
  cases h; rfl

theorem execRdcsr_cases {idx : Byte} {s t : State} (h : execRdcsr idx s = .next t) :
    (∃ v, s.blk.csr idx = some v ∧ t = s.complete .c s.blk .ok (bytes64 v)) ∨
    (s.blk.csr idx = none ∧ t = s.complete .c s.blk .badArg []) := by
  unfold execRdcsr at h
  split at h <;> cases h
  · rename_i v hv; exact .inl ⟨v, hv, rfl⟩
  · rename_i hv; exact .inr ⟨hv, rfl⟩

theorem execCfgWith_cases {P : Config.Params} {wo : Bool} {ac : Option (List Byte)} {thr bps : Byte} {sps : BitVec 32}
    {s t : State} (h : execCfgWith P wo ac thr bps sps s = .next t) :
    (s.blk.fault = true ∧ t = s.complete .c s.blk .faulted []) ∨
    (s.blk.fault = false ∧ s.blk.ready = true ∧ t = s.complete .c s.blk .badState []) ∨
    (s.blk.fault = false ∧ s.blk.ready = false ∧ ∃ cause, accessCodeCause (accessCodeOf P ac) = some cause ∧
      t = s.complete .c (s.blk.flagConfigError cause) .cfgErr [cause.setWidth 8]) ∨
    (s.blk.fault = false ∧ s.blk.ready = false ∧ accessCodeCause (accessCodeOf P ac) = none ∧
      cfgOperandsMeaningful thr bps sps = true ∧
      t = s.complete .c (s.blk.construct P.poolN (accessCodeOf P ac) wo thr bps sps) .ok []) := by
  unfold execCfgWith at h
  split at h
  · rename_i hf; cases h; exact .inl ⟨hf, rfl⟩
  rename_i hf
  have hf : s.blk.fault = false := by simpa using hf
  split at h
  · rename_i hr; cases h; exact .inr (.inl ⟨hf, hr, rfl⟩)
  rename_i hr
  have hr : s.blk.ready = false := by simpa using hr
  split at h
  · rename_i c hc; cases h; exact .inr (.inr (.inl ⟨hf, hr, c, hc, rfl⟩))
  rename_i hc
  split at h
  · rename_i hm; cases h; exact .inr (.inr (.inr ⟨hf, hr, hc, hm, rfl⟩))
  · cases h

theorem execTxevWith_cases {P : Config.Params} {kind : Byte} {data : List Byte} {s t : State}
    (h : execTxevWith P kind data s = .next t) :
    (∃ st, s.blk.gate = some st ∧ t = s.complete .t s.blk st []) ∨
    (s.blk.Running ∧ kind ≠ 0x01 ∧ t = s.complete .t s.blk .ok []) ∨
    (s.blk.Running ∧ kind = 0x01 ∧ Config.bodyMax < (bodyOf P s.blk data s.blk.wOff).length ∧
      t = s.complete .t s.blk .tooLong []) ∨
    (s.blk.Running ∧ kind = 0x01 ∧ (bodyOf P s.blk data s.blk.wOff).length ≤ Config.bodyMax ∧
      t = s.complete .t (s.blk.encodeDatagram P data) .ok []) := by
  unfold execTxevWith at h
  split at h
  · rename_i st hg; cases h; exact .inl ⟨st, hg, rfl⟩
  rename_i hg
  have hr := (gate_eq_none _).1 hg
  split at h
  · rename_i hk; cases h; exact .inr (.inl ⟨hr, hk, rfl⟩)
  rename_i hk
  have hk : kind = 0x01 := by simpa using hk
  split at h
  · rename_i hb; cases h; exact .inr (.inr (.inl ⟨hr, hk, hb, rfl⟩))
  · rename_i hb; cases h; exact .inr (.inr (.inr ⟨hr, hk, Nat.le_of_not_lt hb, rfl⟩))

theorem execTxdrainWith_cases {P : Config.Params} {cap : BitVec 16} {s t : State}
    (h : execTxdrainWith P cap s = .next t) :
    (∃ st, s.blk.gate = some st ∧ t = s.complete .t s.blk st []) ∨
    (s.blk.Running ∧ s.blk.pq = [] ∧ t = s.complete .t (s.blk.sleepIdle P) .idle (bytes16 0)) ∨
    (s.blk.Running ∧ s.blk.pq ≠ [] ∧
      t = s.complete .t (s.blk.drain (s.blk.drainCount cap)) .ok
        (bytes16 (BitVec.ofNat 16 (s.blk.drainCount cap)) ++ s.blk.pq.take (s.blk.drainCount cap))) := by
  unfold execTxdrainWith at h
  split at h
  · rename_i st hg; cases h; exact .inl ⟨st, hg, rfl⟩
  rename_i hg
  have hr := (gate_eq_none _).1 hg
  split at h
  · rename_i hq; cases h; exact .inr (.inl ⟨hr, by simpa using hq, rfl⟩)
  · rename_i hq; cases h; exact .inr (.inr ⟨hr, by simpa using hq, rfl⟩)

theorem execRxbit_cases {b : Bool} {s t : State} (h : execRxbit b s = .next t) :
    (∃ st, s.blk.gate = some st ∧ t = s.complete .r s.blk st []) ∨
    (s.blk.Running ∧ t = s.complete .r (s.blk.rxBit b) .ok []) := by
  unfold execRxbit at h
  split at h <;> cases h
  · rename_i st hg; exact .inl ⟨st, hg, rfl⟩
  · rename_i hg; exact .inr ⟨(gate_eq_none _).1 hg, rfl⟩

theorem execRxbyte_cases {v : Byte} {s t : State} (h : execRxbyte v s = .next t) :
    (∃ st, s.blk.gate = some st ∧ t = s.complete .r s.blk st []) ∨
    (s.blk.Running ∧ t = s.complete .r (s.blk.rxBits (byteBits v)) .ok []) := by
  unfold execRxbyte at h
  split at h <;> cases h
  · rename_i st hg; exact .inl ⟨st, hg, rfl⟩
  · rename_i hg; exact .inr ⟨(gate_eq_none _).1 hg, rfl⟩

theorem acquireAndPost_cases (P : Config.Params) (payload : List Byte) (rest : List Candidate) (s : State) :
    ((∀ h : Nat, s.blk.own h ≠ some .free) ∧
      acquireAndPost P payload rest s = s.completeDec (s.blk.sleepBackoff P) .backoff [0x00]) ∨
    (∃ h0 hs, s.blk.freeHandles = h0 :: hs ∧ P.poolC < payload.length ∧
      acquireAndPost P payload rest s = s.completeDec s.blk.flagFault .faulted []) ∨
    (∃ h0 hs, s.blk.freeHandles = h0 :: hs ∧ payload.length ≤ P.poolC ∧
      acquireAndPost P payload rest s = s.completeDec (s.blk.handOver (grant P h0 hs) payload rest) .ok [0x01]) := by
  unfold acquireAndPost
  split
  · rename_i hf; exact .inl ⟨(freeHandles_eq_nil _).1 hf, rfl⟩
  · rename_i h0 hs hf
    split
    · rename_i hl; exact .inr (.inl ⟨h0, hs, hf, hl, rfl⟩)
    · rename_i hl; exact .inr (.inr ⟨h0, hs, hf, Nat.le_of_not_lt hl, rfl⟩)

theorem decodeCandidate_cases (P : Config.Params) (c : Candidate) :
    ((P.unpack c.raw c.aux).1 = false ∧ decodeCandidate P c = .failure) ∨
    ((P.unpack c.raw c.aux).1 = true ∧ decodeCandidate P c = .success (P.unpack c.raw c.aux).2) := by
  unfold decodeCandidate
  cases (P.unpack c.raw c.aux).1 <;> simp

theorem execDecWith_cases {P : Config.Params} {s t : State} (h : execDecWith P s = .next t) :
    (∃ r, s.blk.decRefusal = some r ∧ t = s.completeDec s.blk r.1 r.2) ∨
    (s.blk.Running ∧ s.blk.stop = false ∧ s.blk.cq = [] ∧ t = { s with decHeld := true }) ∨
    (s.blk.Running ∧ s.blk.stop = false ∧ ∃ c rest, s.blk.cq = c :: rest ∧ decodeCandidate P c = .failure ∧
      t = s.completeDec (s.blk.postFail rest) .ok [0x02]) ∨
    (s.blk.Running ∧ s.blk.stop = false ∧ ∃ c rest payload, s.blk.cq = c :: rest ∧
      decodeCandidate P c = .success payload ∧ t = acquireAndPost P payload rest s) := by
  unfold execDecWith at h
  split at h
  · rename_i r hr; cases h; exact .inl ⟨r, hr, rfl⟩
  rename_i hr
  obtain ⟨hr, hs⟩ := (decRefusal_eq_none _).1 hr
  split at h
  · rename_i hq; cases h; exact .inr (.inl ⟨hr, hs, hq, rfl⟩)
  rename_i c rest hq
  split at h
  · rename_i hd; cases h; exact .inr (.inr (.inl ⟨hr, hs, c, rest, hq, hd, rfl⟩))
  · rename_i pl hd; cases h; exact .inr (.inr (.inr ⟨hr, hs, c, rest, pl, hq, hd, rfl⟩))

/-- `BUFRD` only answers; it changes nothing else. -/
theorem execBufrdWith_cases {P : Config.Params} {hb : Byte} {off : BitVec 16} {s t : State}
    (h : execBufrdWith P hb off s = .next t) : ∃ st rs, t = s.complete .b s.blk st rs := by
  unfold execBufrdWith readOwned at h
  split at h
  · cases h; exact ⟨_, _, rfl⟩
  split at h
  · cases h; exact ⟨_, _, rfl⟩
  split at h
  · split at h
    · cases h
    · split at h <;> cases h
      exact ⟨_, _, rfl⟩
  · cases h; exact ⟨_, _, rfl⟩

theorem execRel_cases {hb : Byte} {s t : State} (h : execRel hb s = .next t) :
    (∃ st, s.blk.gate = some st ∧ t = s.complete .b s.blk st []) ∨
    (s.blk.Running ∧ s.blk.own hb.toNat ≠ some .inflight ∧ t = s.complete .b s.blk .badArg []) ∨
    (s.blk.Running ∧ s.blk.own hb.toNat = some .inflight ∧
      t = s.complete .b (s.blk.setOwn hb.toNat .free) .ok []) := by
  unfold execRel at h
  split at h
  · rename_i st hg; cases h; exact .inl ⟨st, hg, rfl⟩
  rename_i hg
  have hr := (gate_eq_none _).1 hg
  split at h <;> cases h
  · rename_i hh; exact .inr (.inl ⟨hr, (inflightLen_eq_none _ _).1 hh, rfl⟩)
  · rename_i n hh; exact .inr (.inr ⟨hr, ((inflightLen_eq_some _ _ _).1 hh).1, rfl⟩)

end Sys2Proof.Machine
end

