-- ==== Sys2Proof/Laws/Receive.lean ====
section
/-! SUPPORT. What a received bit does (43_correlator.md), by state of the assembler, and what it leaves alone. -/

namespace Sys2Proof.Machine

/-- A received bit in SEARCH. -/
theorem rxBit_search (k : Block) (b : Bool) (h : k.rxState = .search) : k.rxBit b = (k.shiftIn b).searchStep := by
  simp [Block.rxBit, h]

/-- A received bit in HEADER. -/
theorem rxBit_header (k : Block) (b : Bool) (h : k.rxState = .header) : k.rxBit b = (k.shiftIn b).headerStep b := by
  simp [Block.rxBit, h]

/-- A received bit in BODY. -/
theorem rxBit_body (k : Block) (b : Bool) (h : k.rxState = .body) : k.rxBit b = (k.shiftIn b).bodyStep b := by
  simp [Block.rxBit, h]

/-- A received bit changes group (d) of the block only. -/
theorem rxBit_frame (k : Block) (b : Bool) : k.rxBit b = { k with
    sr := (k.rxBit b).sr, fill := (k.rxBit b).fill, rxState := (k.rxBit b).rxState, rxCnt := (k.rxBit b).rxCnt,
    hAcc := (k.rxBit b).hAcc, aux := (k.rxBit b).aux, bLen := (k.rxBit b).bLen, bAcc := (k.rxBit b).bAcc,
    raw := (k.rxBit b).raw, cq := (k.rxBit b).cq } := by
  unfold Block.rxBit Block.searchStep Block.headerStep Block.bodyStep Block.headerEnd
  split
  · split <;> rfl
  · dsimp only
    split
    · split
      · rfl
      · split <;> rfl
    · rfl
  · dsimp only
    split
    · split <;> rfl
    · rfl

/-- Received bits change group (d) of the block only. -/
theorem rxBits_frame (bs : List Bool) (k : Block) : k.rxBits bs = { k with
    sr := (k.rxBits bs).sr, fill := (k.rxBits bs).fill, rxState := (k.rxBits bs).rxState,
    rxCnt := (k.rxBits bs).rxCnt, hAcc := (k.rxBits bs).hAcc, aux := (k.rxBits bs).aux, bLen := (k.rxBits bs).bLen,
    bAcc := (k.rxBits bs).bAcc, raw := (k.rxBits bs).raw, cq := (k.rxBits bs).cq } := by
  induction bs generalizing k with
  | nil => rfl
  | cons b bs ih =>
    have h := ih (k.rxBit b)
    have f := rxBit_frame k b
    generalize hx : (k.rxBit b) = x at *
    have e : k.rxBits (b :: bs) = x.rxBits bs := by rw [← hx]; rfl
    rw [e]
    generalize x.rxBits bs = y at *
    rw [h, f]

/-- A received bit leaves the block running. -/
theorem rxBit_running (k : Block) (b : Bool) (h : k.Running) : (k.rxBit b).Running := by
  rw [rxBit_frame]; exact h

/-- Received bits leave the block ready. -/
theorem rxBits_ready (bs : List Bool) (k : Block) : (k.rxBits bs).ready = k.ready := by
  rw [rxBits_frame]

/-- The bit steps of an `RXBYTE` in progress change group (d) of the block only. -/
theorem byteSteps_frame (bs : List Bool) (k : Block) : k.byteSteps bs = { k with
    sr := (k.byteSteps bs).sr, fill := (k.byteSteps bs).fill, rxState := (k.byteSteps bs).rxState,
    rxCnt := (k.byteSteps bs).rxCnt, hAcc := (k.byteSteps bs).hAcc, aux := (k.byteSteps bs).aux,
    bLen := (k.byteSteps bs).bLen, bAcc := (k.byteSteps bs).bAcc, raw := (k.byteSteps bs).raw,
    cq := (k.byteSteps bs).cq } := by
  unfold Block.byteSteps
  split
  · exact rxBits_frame bs k
  · rfl

/-- On a block that is ready the bit steps are received bits (43_correlator R117). -/
@[simp] theorem byteSteps_ready (bs : List Bool) (k : Block) (h : k.ready = true) : k.byteSteps bs = k.rxBits bs :=
  if_pos h

/-- Bit steps one after the other. -/
theorem byteSteps_append (bs cs : List Bool) (k : Block) : k.byteSteps (bs ++ cs) = (k.byteSteps bs).byteSteps cs := by
  unfold Block.byteSteps
  by_cases h : k.ready
  · rw [if_pos h, if_pos h, rxBits_ready, if_pos h]
    exact List.foldl_append
  · rw [if_neg h, if_neg h, if_neg h]

/-- The two header words as numbers. -/
theorem headerWords_toNat (h : BitVec 32) :
    (headerHigh h).toNat = h.toNat / 65536 ∧ (headerLow h).toNat = h.toNat % 65536 := by
  have := h.isLt
  simp only [headerHigh, headerLow, BitVec.extractLsb'_toNat, Nat.shiftRight_eq_div_pow]
  omega

/-- The end of a header whose two words differ (43_correlator R115). -/
theorem headerEnd_mismatch (k : Block) (h : headerHigh k.hAcc ≠ headerLow k.hAcc) :
    k.headerEnd = { k with rxState := .search } := by
  simp [Block.headerEnd, h]

/-- The end of a header of length 0 (43_correlator R115). -/
theorem headerEnd_empty (k : Block) (h : headerHigh k.hAcc = headerLow k.hAcc)
    (hb : (headerHigh k.hAcc).extractLsb' 0 12 = 0) :
    k.headerEnd = { k with
      aux := (headerHigh k.hAcc).extractLsb' 12 4, bLen := 0, raw := [],
      cq := k.cq ++ [⟨[], (headerHigh k.hAcc).extractLsb' 12 4⟩], rxState := .search } := by
  simp only [Block.headerEnd, h, ne_eq, not_true, if_false]
  rw [h] at hb
  rw [if_pos hb, hb]; rfl

/-- The end of a header of a length above 0 (43_correlator R115). -/
theorem headerEnd_body (k : Block) (h : headerHigh k.hAcc = headerLow k.hAcc)
    (hb : (headerHigh k.hAcc).extractLsb' 0 12 ≠ 0) :
    k.headerEnd = { k with
      aux := (headerHigh k.hAcc).extractLsb' 12 4, bLen := (headerHigh k.hAcc).extractLsb' 0 12, raw := [],
      rxState := .body, rxCnt := BitVec.ofNat 16 (8 * ((headerHigh k.hAcc).extractLsb' 0 12).toNat), bAcc := 0 } := by
  simp only [Block.headerEnd, h, ne_eq, not_true, if_false]
  rw [h] at hb
  rw [if_neg hb]

/-- The Hamming distance counts positions of the pattern only. -/
theorem popcount_masked (x : BitVec 64) (n : Nat) (hn : n ≤ 64) :
    popcount (x &&& lowMask n) = (List.range n).countP x.getLsbD := by
  have hm : ∀ j, (lowMask n).getLsbD j = decide (j < n) := by
    intro j
    simp only [lowMask, BitVec.getLsbD_ofNat, Nat.testBit_two_pow_sub_one]
    by_cases h : j < n <;> simp [h]; omega
  unfold popcount
  have e : List.range 64 = List.range n ++ (List.range (64 - n)).map (n + ·) := by
    rw [← List.range_add]; congr 1; omega
  rw [e, List.countP_append, List.countP_map]
  have z : (List.range (64 - n)).countP ((x &&& lowMask n).getLsbD ∘ (n + ·)) = 0 := by
    rw [List.countP_eq_zero]
    intro j hj
    simp [hm]
  rw [z, Nat.add_zero]
  refine List.countP_congr fun j hj => ?_
  simp [hm, List.mem_range.1 hj]

/-- A run of `RXBIT` on a running block. -/
theorem execAll_rxbits (P : Config.Params) (bs : List Bool) (s : State) (h : s.blk.Running) :
    execAll (execWith P) (bs.map .rxbit) s = .next { s with
      blk := s.blk.rxBits bs, responses := s.responses ++ List.replicate bs.length ⟨.r, .ok, []⟩ } := by
  induction bs generalizing s with
  | nil => simp [execAll, Block.rxBits]
  | cons b bs ih =>
    have : execWith P (.rxbit b) s = .next (s.complete .r (s.blk.rxBit b) .ok []) := by
      simp only [execWith, execRxbit, gate_of_running _ h]
    simp only [List.map_cons, execAll, this]
    rw [ih _ (rxBit_running _ _ h)]
    simp [State.complete, Block.rxBits, List.replicate_succ]

/-- As functions, `exec` is `execWith` of the free parameters. -/
theorem exec_fun : exec = execWith Config.params := by funext i s; exact exec_eq_execWith i s

end Sys2Proof.Machine
end

