-- ==== Sys2Proof/Laws/Invariants.lean ====
section
/-! SUPPORT. The invariants of 10_state R39, one shared operation at a time. -/

namespace Sys2Proof.Machine

/-- A `Fail` event announces no datagram. -/
theorem lastDatagram_append_fail (h : Nat) (es : List Event) : lastDatagram h (es ++ [.fail]) = lastDatagram h es := by
  induction es with
  | nil => rfl
  | cons e es ih => simp only [List.cons_append, lastDatagram, ih]

/-- A `Datagram` event is the last of its buffer. -/
theorem lastDatagram_append (h g : Nat) (n : Nat) (es : List Event) :
    lastDatagram h (es ++ [.datagram g n]) = if g = h then some n else lastDatagram h es := by
  induction es with
  | nil => simp [lastDatagram]
  | cons e es ih =>
    simp only [List.cons_append, lastDatagram, ih]
    by_cases hg : g = h <;> simp [hg]

/-- The pool invariant looks at the pool, its bytes and the event trace. -/
theorem poolOk_congr {P : Config.Params} {k l : Block} (h : k.PoolOk P) (h1 : l.pool = k.pool) (h2 : l.mem = k.mem)
    (h3 : l.evOut = k.evOut) : l.PoolOk P := by
  refine ⟨?_, ?_, ?_⟩
  · rw [h1]; exact h.bounded
  · rw [h1, h3]; exact h.announced
  · rw [h1]
    intro g b hb ho off hoff
    have := h.written g b hb ho off hoff
    unfold Block.poolByte at *
    rw [h2]; exact this

/-- A hand-over to a `FREE` buffer keeps the pool invariant (10_state R39 (e), 44_decoder_pool R126). -/
theorem poolOk_handOver {P : Config.Params} (hP : P.SizesFit) {k : Block} (hk : k.PoolOk P) (h : Nat)
    (pl : List Byte) (r : List Candidate) (hh : k.own h = some .free) (hl : pl.length ≤ P.poolC) :
    (k.handOver h pl r).PoolOk P := by
  have hlt := own_lt k h _ hh
  have hn := len_toNat _ _ hl hP.2.2.2
  have hst : pl.length ≤ poolStride := by have := hP.2.2.2; simp only [poolStride]; omega
  refine ⟨fun g b hb => ?_, fun g b hb ho => ?_, fun g b hb ho off hoff => ?_⟩ <;>
    rw [handOver_get k h pl r g hlt] at hb
  · split at hb
    · cases hb; rw [hn]; exact hl
    · exact hk.bounded g b hb
  · rw [Block.handOver_evOut, lastDatagram_append]
    split at hb
    · rename_i e; cases hb; rw [if_pos e, hn]
    · rename_i e; rw [if_neg e]; exact hk.announced g b hb ho
  · split at hb
    · rename_i e
      cases hb
      rw [hn] at hoff
      rw [← e, poolByte_handOver_inside k h pl r hst off hoff, List.getElem?_eq_getElem hoff]
      rfl
    · rename_i e
      rw [poolByte_handOver_outside k h pl r hst g off fun c => e c.1.symm]
      exact hk.written g b hb ho off hoff

/-- A hand-over to a buffer that exists keeps the form of the pool memory (20_memory R43). -/
theorem memoryOk_handOver {P : Config.Params} (hP : P.SizesFit) {k : Block} (hk : k.MemoryOk P) (h : Nat)
    (pl : List Byte) (r : List Candidate) (hh : h < k.pool.length) (hl : pl.length ≤ P.poolC) :
    (k.handOver h pl r).MemoryOk P := by
  refine ⟨by rw [Block.handOver_pool, List.length_set]; exact hk.sized, ?_⟩
  rw [Block.handOver_mem]
  refine memWf_memWriteRun _ _ P pl hk.canonical fun i hi => ?_
  rw [← poolAddr_zero_add]
  exact addrExists_poolAddr P hP h i (hk.sized ▸ hh) (by omega)

/-- The end of a header leaves the assembler well formed (10_state R39 (d)). -/
theorem headerEnd_assembler (m : Block) (h0 : m.rxCnt = 0) (hf : m.fill.toNat ≤ 64)
    (hraw : m.raw.length ≤ Config.bodyMax) (hq : ∀ c ∈ m.cq, c.raw.length ≤ Config.bodyMax) : m.headerEnd.AssemblerOk := by
  by_cases hm : headerHigh m.hAcc = headerLow m.hAcc
  · by_cases hb : BitVec.extractLsb' 0 12 (headerHigh m.hAcc) = 0
    · rw [headerEnd_empty _ hm hb]
      refine ⟨⟨fun _ => h0, fun _ => rfl⟩, ?_, ?_, hf, Nat.zero_le _, ?_⟩
      · intro h; cases h
      · intro h; cases h
      · intro c hc
        rcases List.mem_append.1 hc with hc | hc
        · exact hq c hc
        · simp at hc; subst hc; simp
    · rw [headerEnd_body _ hm hb]
      have hnz : (BitVec.extractLsb' 0 12 (headerHigh m.hAcc)).toNat ≠ 0 := fun e =>
        hb (BitVec.eq_of_toNat_eq (by simpa using e))
      generalize BitVec.extractLsb' 0 12 (headerHigh m.hAcc) = bl at *
      have hlt := bl.isLt
      refine ⟨?_, ?_, ?_, hf, Nat.zero_le _, hq⟩
      · constructor
        · intro h; cases h
        · intro h; exfalso
          have := (rxCnt_eq_zero _).1 h
          simp only [BitVec.toNat_ofNat] at this; omega
      · intro h; cases h
      · intro _
        simp only [BitVec.toNat_ofNat, List.length_nil]; omega
  · rw [headerEnd_mismatch _ hm]
    exact ⟨⟨fun _ => h0, fun _ => rfl⟩, (fun h => by cases h), (fun h => by cases h), hf, hraw, hq⟩

/-- A received bit leaves the assembler well formed (10_state R39 (d)). -/
theorem rxBit_assembler (k : Block) (b : Bool) (hk : k.AssemblerOk) : (k.rxBit b).AssemblerOk := by
  have hf : (fillUp k.fill).toNat ≤ 64 := by rw [fillUp_toNat]; omega
  have hcd := countDown_toNat k.rxCnt
  have hz := rxCnt_eq_zero k.rxCnt
  have hz' := rxCnt_eq_zero (countDown k.rxCnt)
  have hne : k.rxState ≠ .search → k.rxCnt.toNat ≠ 0 := fun h e => h (hk.searching.2 (hz.2 e))
  cases hs : k.rxState with
  | search =>
    rw [rxBit_search _ _ hs]
    unfold Block.searchStep
    split
    · refine ⟨?_, ?_, ?_, hf, hk.raw, hk.queued⟩
      · simp [Config.hdrBits]
      · intro _; show (BitVec.ofNat 16 32).toNat ≤ 32; decide
      · intro h; cases h
    · exact ⟨hk.searching, hk.header, hk.body, hf, hk.raw, hk.queued⟩
  | header =>
    rw [rxBit_header _ _ hs]
    have h32 := hk.header hs
    unfold Block.headerStep
    dsimp only
    split
    · rename_i h0
      exact headerEnd_assembler _ h0 hf hk.raw hk.queued
    · rename_i h0
      change ¬ countDown k.rxCnt = 0 at h0
      refine ⟨?_, ?_, ?_, hf, hk.raw, hk.queued⟩
      · constructor
        · intro h; change k.rxState = _ at h; rw [hs] at h; cases h
        · intro h; exact absurd h h0
      · intro _; show (countDown k.rxCnt).toNat ≤ 32; omega
      · intro h; change k.rxState = _ at h; rw [hs] at h; cases h
  | body =>
    rw [rxBit_body _ _ hs]
    have ⟨hb1, hb2⟩ := hk.body hs
    have hn := hne (by rw [hs]; simp)
    have hbl := k.bLen.isLt
    unfold Block.bodyStep
    dsimp only
    split
    · rename_i h8
      change (countDown k.rxCnt).toNat % 8 = 0 at h8
      split
      · rename_i h0
        change countDown k.rxCnt = 0 at h0
        have h0' := hz'.1 h0
        have hl : k.raw.length + 1 ≤ 4095 := by omega
        refine ⟨⟨fun _ => h0, fun _ => rfl⟩, (fun h => by cases h), (fun h => by cases h), hf, ?_, ?_⟩
        · show (k.raw ++ [_]).length ≤ 4095; simpa using hl
        · intro c hc
          rcases List.mem_append.1 hc with hc | hc
          · exact hk.queued c hc
          · simp at hc; subst hc; show (k.raw ++ [_]).length ≤ 4095; simpa using hl
      · rename_i h0
        change ¬ countDown k.rxCnt = 0 at h0
        have h0' : (countDown k.rxCnt).toNat ≠ 0 := fun e => h0 (hz'.2 e)
        refine ⟨?_, ?_, ?_, hf, ?_, hk.queued⟩
        · constructor
          · intro h; change k.rxState = _ at h; rw [hs] at h; cases h
          · intro h; exact absurd h h0
        · intro h; change k.rxState = _ at h; rw [hs] at h; cases h
        · intro _
          show (countDown k.rxCnt).toNat ≤ 8 * k.bLen.toNat ∧ (k.raw ++ [_]).length + _ = _
          rw [List.length_append, List.length_singleton]
          show (countDown k.rxCnt).toNat ≤ 8 * k.bLen.toNat ∧
            k.raw.length + 1 + ((countDown k.rxCnt).toNat + 7) / 8 = k.bLen.toNat
          omega
        · show (k.raw ++ [_]).length ≤ 4095; rw [List.length_append, List.length_singleton]; omega
    · rename_i h8
      change ¬ (countDown k.rxCnt).toNat % 8 = 0 at h8
      refine ⟨?_, ?_, ?_, hf, hk.raw, hk.queued⟩
      · constructor
        · intro h; change k.rxState = _ at h; rw [hs] at h; cases h
        · intro h; change countDown k.rxCnt = 0 at h; rw [h] at h8; simp at h8
      · intro h; change k.rxState = _ at h; rw [hs] at h; cases h
      · intro _
        show (countDown k.rxCnt).toNat ≤ 8 * k.bLen.toNat ∧
          k.raw.length + ((countDown k.rxCnt).toNat + 7) / 8 = k.bLen.toNat
        omega

/-- The assembler invariant looks at five registers and at the waiting candidates. -/
theorem assembler_cq {k l : Block} (h : k.AssemblerOk) (h1 : l.rxState = k.rxState) (h2 : l.rxCnt = k.rxCnt)
    (h3 : l.bLen = k.bLen) (h4 : l.raw = k.raw) (h5 : l.fill = k.fill)
    (h6 : ∀ c ∈ l.cq, c ∈ k.cq) : l.AssemblerOk := by
  refine ⟨?_, ?_, ?_, ?_, ?_, fun c hc => h.queued c (h6 c hc)⟩
  · rw [h1, h2]; exact h.searching
  · rw [h1, h2]; exact h.header
  · rw [h1, h2, h3, h4]; exact h.body
  · rw [h5]; exact h.fill
  · rw [h4]; exact h.raw

end Sys2Proof.Machine
end

