-- ==== Sys2Proof/Laws/Operands.lean ====
section
/-! SUPPORT. What the operand forms give: the CSR indices and POOLFREE, the eight bytes of a CSR value, and the pattern
of an access code, bit by bit. -/

namespace Sys2Proof.Machine

/-- Bit `i` of `POOLFREE` says that buffer `i` is `FREE` (10_state R37). -/
theorem poolFree_bit (k : Block) (i : Nat) (hi : i < 64) : k.poolFree.getLsbD i = true ↔ k.own i = some .free := by
  have gen : ∀ (l : List Nat) (acc : BitVec 64),
      (l.foldl (fun acc h => acc ||| BitVec.twoPow 64 h) acc).getLsbD i = true ↔ acc.getLsbD i = true ∨ i ∈ l := by
    intro l
    induction l with
    | nil => simp
    | cons g l ih =>
      intro acc
      rw [List.foldl_cons, ih]
      have : g < 64 ∧ g = i ↔ i = g := ⟨fun h => h.2.symm, fun h => ⟨h ▸ hi, h.symm⟩⟩
      simp only [BitVec.getLsbD_or, BitVec.getLsbD_twoPow, Bool.or_eq_true, Bool.and_eq_true, decide_eq_true_eq,
        List.mem_cons, this, or_assoc]
  unfold Block.poolFree
  rw [gen, mem_freeHandles]
  simp

/-- The reserved CSR indices (10_state R37). -/
theorem csr_none (k : Block) (idx : Byte) : k.csr idx = none ↔
    idx = 0x0F ∨ 0x20 ≤ idx.toNat ∨ (0x10 ≤ idx.toNat ∧ k.pool.length ≤ idx.toNat - 0x10) := by
  have e : idx = 0x0F ↔ idx.toNat = 0x0F :=
    ⟨fun h => h ▸ rfl, fun h => BitVec.eq_of_toNat_eq (by simpa using h)⟩
  rw [e]
  unfold Block.csr
  split <;> rename_i h <;> try (solve | simp [h])
  split
  · simp only [Block.len, Option.map_eq_none_iff, List.getElem?_eq_none_iff]
    omega
  · simp only [true_iff]
    have := idx.isLt
    rcases Nat.lt_or_ge idx.toNat 16 with h16 | h16
    · generalize idx.toNat = m at *
      interval_cases m <;> first | omega | (exfalso; simp_all)
    · omega

/-- One more byte of a number, read from the top. -/
theorem div_step (n k : Nat) : n / 2 ^ (8 * (k + 1)) * 256 + n / 2 ^ (8 * k) % 256 = n / 2 ^ (8 * k) := by
  rw [Nat.mul_add, pow_add, ← Nat.div_div_eq_div_mul]
  omega

/-- The bytes of a 64-bit result, read big-endian, are the value. -/
theorem bytes64_value (v : BitVec 64) : (bytes64 v).foldl (fun n b => n * 256 + b.toNat) 0 = v.toNat := by
  have h := v.isLt
  have top : 0 * 256 + v.toNat / 2 ^ (8 * 7) % 2 ^ 8 = v.toNat / 2 ^ (8 * 7) := by omega
  have step := fun k => div_step v.toNat k
  rw [show (256 : Nat) = 2 ^ 8 from rfl] at step
  simp only [bytes64, byteOf, List.foldl_cons, List.foldl_nil, BitVec.extractLsb'_toNat, Nat.shiftRight_eq_div_pow]
  rw [show (256 : Nat) = 2 ^ 8 from rfl] at top ⊢
  rw [top, step 6, step 5, step 4, step 3, step 2, step 1, step 0, Nat.mul_zero, Nat.pow_zero, Nat.div_one]

/-- The pattern of a string, bit by bit: the last character is bit 0 (40_config R85). -/
theorem patternOf_bit (ac : List Byte) (i : Nat) :
    (patternOf ac).getLsbD i =
      (decide (i < 64) && decide (i < ac.length) && charBit (ac.getD (ac.length - 1 - i) 0)) := by
  unfold patternOf
  induction ac using List.reverseRecOn generalizing i with
  | nil => simp
  | append_singleton ac c ih =>
    rw [List.foldl_append, List.foldl_cons, List.foldl_nil, BitVec.getLsbD_shiftConcat]
    cases i with
    | zero => simp
    | succ i =>
      simp only [Nat.succ_ne_zero, if_false, Nat.add_sub_cancel, ih, List.length_append, List.length_singleton]
      by_cases h : i < ac.length
      · have : ac.length + 1 - 1 - (i+1) < ac.length := by omega
        have e : ac.length + 1 - 1 - (i+1) = ac.length - 1 - i := by omega
        have e2 : (ac ++ [c]).getD (ac.length + 1 - 1 - (i+1)) 0 = ac.getD (ac.length - 1 - i) 0 := by
          rw [List.getD_eq_getElem?_getD, List.getElem?_append_left this, ← List.getD_eq_getElem?_getD, e]
        have e3 : ac.length + 1 - 1 - (i+1) = ac.length - (i+1) := by omega
        rw [e3] at e2
        rw [e2]
        by_cases h6 : i + 1 < 64
        · have : i < 64 := by omega
          simp [this, h6]
        · simp [h6]
      · simp [h]

/-- The pattern of a string of length `L` is below `2 ^ L` (10_state R39 (b)). -/
theorem patternOf_lt (s : List Byte) : (patternOf s).toNat < 2 ^ s.length := by
  refine Nat.lt_pow_two_of_testBit _ fun i hi => ?_
  have := patternOf_bit s i
  rw [← BitVec.testBit_toNat] at this
  rw [this]
  simp [Nat.not_lt.2 hi]

/-- The cause of a ConfigurationError is never 0. -/
theorem accessCodeCause_ne (s : List Byte) (c : BitVec 2) (h : accessCodeCause s = some c) : c ≠ 0 := by
  unfold accessCodeCause at h
  split at h
  · cases h
    decide
  split at h
  · cases h
    decide
  split at h <;> cases h
  decide

end Sys2Proof.Machine
end

