-- ==== Sys2Proof/Laws/PerInstr.lean ====
section
/-! SUPPORT. A statement about every operation as syntax, one lemma per constructor: its packet carries its own row of
the opcode table, and the length its format gives (30_encoding R62 to R64, R74). -/

namespace Sys2Proof.Laws.Opcode

/-- The packet of a well-formed operation begins with an opcode of the operation's own row and port, and its length is
what the format of that row gives from its length field. -/
def Statement (i : Instr) : Prop :=
  i.wellFormed = true →
    ∃ r, rowOf ((encode i)[0]?.getD 0) = some r ∧ r.op = i.mnemonic ∧ r.port = i.port ∧
      packetLength (fun k => (encode i)[k]?.getD 0) = (encode i).length

/-- The length a format gives (30_encoding R64, R74). -/
def formatLength (f : Format) (at_ : Nat → Byte) : Nat :=
  match f with
  | .z => 1
  | .a => 2
  | .w => 3
  | .h => 4
  | .v => 4 + (be16 (at_ 2) (at_ 3)).toNat
  | .k => 9 + (at_ 8).toNat

/-- The statement from the row of the first byte and the length of the packet. -/
theorem of_row {i : Instr} (r : OpRow) (hr : rowOf ((encode i)[0]?.getD 0) = some r) (ho : r.op = i.mnemonic)
    (hp : r.port = i.port)
    (hl : i.wellFormed = true → formatLength r.format (fun k => (encode i)[k]?.getD 0) = (encode i).length) :
    Statement i := by
  intro hw
  refine ⟨r, hr, ho, hp, ?_⟩
  rw [← hl hw]
  simp only [packetLength, hr]
  rfl

theorem nop : Statement .nop := of_row ⟨.nop, 0x00, 0xFF, .c, .z⟩ (by decide) rfl rfl fun _ => rfl

theorem reset : Statement .reset := of_row ⟨.reset, 0x01, 0xFF, .c, .z⟩ (by decide) rfl rfl fun _ => rfl

theorem cfg (wo : Bool) (ac : Option (List Byte)) (thr bps : Byte) (sps : BitVec 32) :
    Statement (.cfg wo ac thr bps sps) := by
  have hr : rowOf 0x02 = some ⟨.cfg, 0x02, 0xFF, .c, .k⟩ := by decide
  cases ac with
  | none => exact of_row _ hr rfl rfl fun _ => rfl
  | some s =>
    refine of_row _ hr rfl rfl fun hw => ?_
    have hl : s.length < 256 := by simpa [Instr.wellFormed, accessCodeFits] using hw
    show 9 + (BitVec.ofNat 8 s.length).toNat = (encode _).length
    simp [encode, bytes32]
    omega

theorem cancel : Statement .cancel := of_row ⟨.cancel, 0x03, 0xFF, .c, .z⟩ (by decide) rfl rfl fun _ => rfl

theorem rdcsr (idx : Byte) : Statement (.rdcsr idx) :=
  of_row ⟨.rdcsr, 0x04, 0xFF, .c, .a⟩ (show rowOf 0x04 = _ by decide) rfl rfl fun _ => rfl

theorem txev (kind : Byte) (data : List Byte) : Statement (.txev kind data) := by
  refine of_row ⟨.txev, 0x10, 0xFF, .t, .v⟩ (show rowOf 0x10 = _ by decide) rfl rfl fun hw => ?_
  have hl : data.length < 65536 := by simpa [Instr.wellFormed, dataFits] using hw
  show 4 + (be16 (byteOf _ 1) (byteOf _ 0)).toNat = (encode _).length
  rw [be16_bytes16]
  simp [encode, bytes16]
  omega

theorem txdrain (cap : BitVec 16) : Statement (.txdrain cap) :=
  of_row ⟨.txdrain, 0x11, 0xFF, .t, .w⟩ (show rowOf 0x11 = _ by decide) rfl rfl fun _ => rfl

theorem rxbit (b : Bool) : Statement (.rxbit b) := by
  cases b
  · exact of_row ⟨.rxbit, 0x20, 0xFE, .r, .z⟩ (show rowOf 0x20 = _ by decide) rfl rfl fun _ => rfl
  · exact of_row ⟨.rxbit, 0x20, 0xFE, .r, .z⟩ (show rowOf 0x21 = _ by decide) rfl rfl fun _ => rfl

theorem rxbyte (v : Byte) : Statement (.rxbyte v) :=
  of_row ⟨.rxbyte, 0x22, 0xFF, .r, .a⟩ (show rowOf 0x22 = _ by decide) rfl rfl fun _ => rfl

theorem dec : Statement .dec := of_row ⟨.dec, 0x30, 0xFF, .d, .z⟩ (by decide) rfl rfl fun _ => rfl

theorem bufrd (h : Byte) (off : BitVec 16) : Statement (.bufrd h off) :=
  of_row ⟨.bufrd, 0x31, 0xFF, .b, .h⟩ (show rowOf 0x31 = _ by decide) rfl rfl fun _ => rfl

theorem rel (h : Byte) : Statement (.rel h) :=
  of_row ⟨.rel, 0x32, 0xFF, .b, .a⟩ (show rowOf 0x32 = _ by decide) rfl rfl fun _ => rfl

end Sys2Proof.Laws.Opcode
end

