-- ==== Sys2Proof/Laws/Step.lean ====
section
/-! SUPPORT. What one step can do, and the induction over it packaged once. -/

namespace Sys2Proof.Machine

/-- The part of the state outside the block that a turn sees before any operation runs. -/
def SamePorts (s u : State) : Prop :=
  u.blk = s.blk ∧ u.decHeld = s.decHeld ∧ u.rxPend = s.rxPend ∧ u.responses = s.responses

/-- A packet's run is an operation, or an `ILLEGAL` answer. -/
theorem runPacket_cases {ex : Meaning} {p : Port} {c : Packet} {s t : State} (h : runPacket ex p c s = .next t) :
    (∃ i, decode p c = .ok i ∧ ex i s = .next t) ∨
    (∃ e, decode p c = .error e ∧ t = s.complete p s.blk .illegal []) := by
  unfold runPacket at h
  split at h
  · rename_i i hi; exact .inl ⟨i, hi, h⟩
  · rename_i e he; cases h; exact .inr ⟨e, he, rfl⟩

theorem beginNext_cases {ex : Meaning} {p : Port} {s t : State} (h : beginNext ex p s = .next t) :
    (s.inputs.get p = [] ∧ t = s) ∨
    ∃ c rest, s.inputs.get p = c :: rest ∧
      ((∃ i, decode p c = .ok i ∧ ex i (s.accept p rest) = .next t) ∨
       (∃ e, decode p c = .error e ∧ t = (s.accept p rest).complete p s.blk .illegal [])) := by
  unfold beginNext at h
  split at h
  · rename_i hq; cases h; exact .inl ⟨hq, rfl⟩
  · rename_i c rest hq
    exact .inr ⟨c, rest, hq, runPacket_cases h⟩

/-- Some bits of an `RXBYTE` in progress: the last of them, and the answer, or not. -/
theorem rxContinue_cases (now later : List Bool) (s : State) :
    (later = [] ∧ rxContinue now later s = { s.complete .r (s.blk.byteSteps now) .ok [] with rxPend := [] }) ∨
    (later ≠ [] ∧ rxContinue now later s = { s with blk := s.blk.byteSteps now, rxPend := later }) := by
  unfold rxContinue
  split
  · rename_i hl; exact .inl ⟨by simpa using hl, rfl⟩
  · rename_i hl; exact .inr ⟨by simpa using hl, rfl⟩

/-- The beginning of an `RXBYTE` taken bit by bit: refused, or its first bit. -/
theorem rxBegin_cases (v : Byte) (s : State) :
    (∃ st, s.blk.gate = some st ∧ rxBegin v s = s.complete .r s.blk st []) ∨
    (s.blk.Running ∧ rxBegin v s = rxContinue ((byteBits v).take 1) ((byteBits v).drop 1) s) := by
  unfold rxBegin
  split
  · rename_i st hg; exact .inl ⟨st, hg, rfl⟩
  · rename_i hg; exact .inr ⟨(gate_eq_none _).1 hg, rfl⟩

/-- Everything a step can do: nothing, one operation, an `ILLEGAL` answer, an `RXBYTE` refused at its first bit step, or
some bits of an `RXBYTE`; in each case from a state that differs from `s` in the packets and turns taken only. -/
theorem stepWith_cases {ex : Meaning} {s t : State} (h : stepWith ex s = .next t) :
    ∃ u, SamePorts s u ∧
      (t = u ∨ (∃ i, ex i u = .next t) ∨ (∃ p, t = u.complete p u.blk .illegal []) ∨
        (∃ st, u.blk.gate = some st ∧ t = u.complete .r u.blk st []) ∨
        ∃ now later, later.length ≤ 7 ⊔ (s.rxPend.length - 1) ∧ t = rxContinue now later u) := by
  unfold stepWith at h
  split at h
  · cases h; exact ⟨s, ⟨rfl, rfl, rfl, rfl⟩, .inl rfl⟩
  rename_i tn ts hts
  have begins : ∀ p, beginNext ex p { s with turns := ts } = .next t → ∃ u, SamePorts s u ∧
      (t = u ∨ (∃ i, ex i u = .next t) ∨ (∃ p, t = u.complete p u.blk .illegal []) ∨
        (∃ st, u.blk.gate = some st ∧ t = u.complete .r u.blk st []) ∨
        ∃ now later, later.length ≤ 7 ⊔ (s.rxPend.length - 1) ∧ t = rxContinue now later u) := by
    intro p hp
    rcases beginNext_cases hp with ⟨-, rfl⟩ | ⟨c, rest, -, ⟨i, -, hi⟩ | ⟨e, -, rfl⟩⟩
    · exact ⟨{ s with turns := ts }, ⟨rfl, rfl, rfl, rfl⟩, .inl rfl⟩
    · exact ⟨State.accept { s with turns := ts } p rest, ⟨rfl, rfl, rfl, rfl⟩, .inr (.inl ⟨i, hi⟩)⟩
    · exact ⟨State.accept { s with turns := ts } p rest, ⟨rfl, rfl, rfl, rfl⟩, .inr (.inr (.inl ⟨p, rfl⟩))⟩
  cases tn with
  | run p =>
    cases p with
    | c => exact begins .c h
    | t => exact begins .t h
    | b => exact begins .b h
    | d =>
      simp only [takeTurn, runTurn] at h
      split at h
      · exact ⟨{ s with turns := ts }, ⟨rfl, rfl, rfl, rfl⟩, .inr (.inl ⟨.dec, h⟩)⟩
      · exact begins .d h
    | r =>
      simp only [takeTurn, runTurn] at h
      split at h
      · exact begins .r h
      · cases h
        exact ⟨{ s with turns := ts }, ⟨rfl, rfl, rfl, rfl⟩, .inr (.inr (.inr (.inr ⟨_, [], by simp, rfl⟩)))⟩
  | rxStep =>
    simp only [takeTurn, rxStepTurn] at h
    split at h
    · rename_i b later hp
      cases h
      refine ⟨{ s with turns := ts }, ⟨rfl, rfl, rfl, rfl⟩, .inr (.inr (.inr (.inr ⟨_, later, ?_, rfl⟩)))⟩
      simp [show s.rxPend = b :: later from hp]
    · split at h
      · cases h; exact ⟨{ s with turns := ts }, ⟨rfl, rfl, rfl, rfl⟩, .inl rfl⟩
      · rename_i c rest hq
        split at h
        · rename_i v hv
          cases h
          refine ⟨State.accept { s with turns := ts } .r rest, ⟨rfl, rfl, rfl, rfl⟩, .inr (.inr (.inr ?_))⟩
          rcases rxBegin_cases v (State.accept { s with turns := ts } .r rest) with ⟨st, hg, e⟩ | ⟨-, e⟩ <;> rw [e]
          · exact .inl ⟨st, hg, rfl⟩
          · exact .inr ⟨_, _, by simp, rfl⟩
        · exact begins .r h

/-- A property of the block that every operation keeps and every received bit on a ready block keeps is kept by every
step, for every meaning of the operations. -/
theorem step_keeps {ex : Meaning} (I : Block → Prop) (hexec : ∀ i s t, I s.blk → ex i s = .next t → I t.blk)
    (hrx : ∀ k b, I k → k.ready = true → I (Block.rxBit k b)) {s t : State} (hs : I s.blk)
    (h : stepWith ex s = .next t) : I t.blk := by
  have bits : ∀ (bs : List Bool) (k : Block), I k → k.ready = true → I (k.rxBits bs) := by
    intro bs
    induction bs with
    | nil => exact fun k hk _ => hk
    | cons b bs ih => exact fun k hk hr => ih _ (hrx k b hk hr) (by rw [rxBit_frame]; exact hr)
  have steps : ∀ (bs : List Bool) (k : Block), I k → I (k.byteSteps bs) := by
    intro bs k hk
    unfold Block.byteSteps
    split
    · rename_i hr; exact bits bs k hk hr
    · exact hk
  obtain ⟨u, ⟨hu, -, -, -⟩, rfl | ⟨i, hi⟩ | ⟨p, rfl⟩ | ⟨st, -, rfl⟩ | ⟨now, later, -, rfl⟩⟩ := stepWith_cases h
  · rwa [hu]
  · exact hexec i u t (hu ▸ hs) hi
  · simpa [hu] using hs
  · simpa [hu] using hs
  · rcases rxContinue_cases now later u with ⟨-, e⟩ | ⟨-, e⟩ <;> rw [e] <;> exact steps now u.blk (hu ▸ hs)

end Sys2Proof.Machine
end

