-- ==== Sys2Proof/Tests/Slice0.lean ====
section
/-! SUPPORT. Tests with results taken from spec/95_test_vectors.md (V1, V2, ...) or worked out by hand from the rules, and
a witness for every obligation that has hypotheses. -/

namespace Sys2Proof.Tests

open Sys2Proof.Machine

set_option Elab.async false

/-! ### Small states -/

/-- Does the outcome give a next state with this property? -/
def after (o : Host.Outcome State Fault Refusal) (f : State → Bool) : Bool :=
  match o with
  | .next t => f t
  | _ => false

/-- A running block: access code "1110010011000111" (0xE4C7), threshold 2, no whitener (the configuration of V15, but for
the whitener). -/
def run0 : State := { State.reset with blk := { Block.reset with
  ready := true, acLen := 16, pat := 0xE4C7, thr := 2, sps := 0x00020000, bps := 1 } }

/-- A block as `run0`, changed. -/
def runWith (f : Block → Block) : State := { run0 with blk := f run0.blk }

/-- The candidate of V12's frame. -/
def goodCandidate : Candidate := ⟨[0x28, 0x70, 0xB8, 0x02], 0⟩

/-- Two candidates wait; the first is of V12's frame. -/
def queued : State := runWith fun k => { k with cq := [goodCandidate, ⟨[0x00], 0⟩] }

/-- Buffer 3 is `INFLIGHT` with the bytes DE AD; the event that announced it is in the trace. -/
def inflight3 : State := runWith fun k => { k with
  pool := k.pool.set 3 ⟨.inflight, 2⟩, mem := [(196608, 0xDE), (196609, 0xAD)], evOut := [.datagram 3 2] }

/-- No buffer is free. -/
def exhausted : State := runWith fun k => { k with
  cq := [goodCandidate], pool := List.replicate Config.poolN ⟨.inflight, 0⟩ }

theorem exhausted_own (h : Nat) : exhausted.blk.own h ≠ some .free := by
  simp only [exhausted, runWith, Block.own, List.getElem?_replicate]
  split <;> simp

/-- A faulted block. -/
def faulted : State := runWith fun k => { k with fault := true }

/-- In HEADER with `n` bits to go. -/
def inHeader (n : BitVec 16) (h : BitVec 32) : State := runWith fun k => { k with
  rxState := .header, rxCnt := n, hAcc := h }

/-- In BODY with `n` bits of two bytes to go. -/
def inBody (n : BitVec 16) : State := runWith fun k => { k with
  rxState := .body, rxCnt := n, bLen := 2, aux := 5, bAcc := 0x24, raw := if n.toNat ≤ 8 then [0x68] else [] }

/-- A `DEC` is held. -/
def held : State := { run0 with decHeld := true }

/-- Parameters whose body is the payload itself. -/
def plainParams : Config.Params := { profileT with
  packBody := fun payload _ _ _ => payload, unpack := fun raw _ => (true, raw) }

/-- Profile T with buffers of two bytes, as in V59. -/
def smallPool : Config.Params := { profileT with poolC := 2 }

/-! ### Well-formedness: one ill-formed term for each check -/

theorem test_ill_formed_access_code : (Instr.cfg false (some (List.replicate 256 0x31)) 0 1 1).wellFormed = false := by
  decide +kernel

theorem test_well_formed_access_code : (Instr.cfg false (some (List.replicate 255 0x31)) 0 1 1).wellFormed = true := by
  decide +kernel

theorem data_wellFormed (n : Nat) : (Instr.txev 0x01 (List.replicate n 0)).wellFormed = decide (n < 65536) := by
  simp [Instr.wellFormed, dataFits]

theorem test_ill_formed_data : (Instr.txev 0x01 (List.replicate 65536 0)).wellFormed = false :=
  (data_wellFormed 65536).trans (decide_eq_false (by omega))

theorem test_well_formed_data : (Instr.txev 0x01 (List.replicate 65535 0)).wellFormed = true :=
  (data_wellFormed 65535).trans (decide_eq_true (by omega))

/-! ### Decoding: words written out from 30_encoding R63, R64, R68 -/

theorem test_decode_nop : decode .c [0b00000000] = .ok .nop := by decide
theorem test_decode_reset : decode .c [0b00000001] = .ok .reset := by decide
theorem test_decode_cancel : decode .c [0b00000011] = .ok .cancel := by decide
theorem test_decode_rdcsr : decode .c [0b00000100, 0b00011010] = .ok (.rdcsr 0x1A) := by decide

/-- V5's packet: `fl = 00000010`, `thr = 11111111`, `bps = 1`, `sps = 0x00020000`, five characters. -/
theorem test_decode_cfg_given : decode .c [0b00000010, 0b00000010, 0b11111111, 0b00000001,
    0x00, 0x02, 0x00, 0x00, 0b00000101, 0x31, 0x30, 0x61, 0x30, 0x31] =
    .ok (.cfg false (some [0x31, 0x30, 0x61, 0x30, 0x31]) 0xFF 1 0x00020000) := by decide

/-- V7's packet with the whitener flag: `fl = 00000001`, no access code. -/
theorem test_decode_cfg_default : decode .c [0b00000010, 0b00000001, 0b11111111, 0b00000001,
    0x00, 0x02, 0x00, 0x00, 0b00000000] = .ok (.cfg true none 0xFF 1 0x00020000) := by decide

theorem test_decode_txev : decode .t [0b00010000, 0b00000111, 0b00000000, 0b00000001, 0x99] =
    .ok (.txev 0x07 [0x99]) := by decide
theorem test_decode_txdrain : decode .t [0b00010001, 0b00000001, 0b00000010] = .ok (.txdrain 258) := by decide
theorem test_decode_rxbit_0 : decode .r [0b00100000] = .ok (.rxbit false) := by decide
theorem test_decode_rxbit_1 : decode .r [0b00100001] = .ok (.rxbit true) := by decide
theorem test_decode_rxbyte : decode .r [0b00100010, 0b10000001] = .ok (.rxbyte 0x81) := by decide
theorem test_decode_dec : decode .d [0b00110000] = .ok .dec := by decide
theorem test_decode_bufrd : decode .b [0b00110001, 0b00001111, 0b00001111, 0b11111111] = .ok (.bufrd 15 4095) := by decide
theorem test_decode_rel : decode .b [0b00110010, 0b00000101] = .ok (.rel 5) := by decide

/-- V54, V55, V8e: reserved opcodes, the wrong port, the wrong length, reserved fields; and a packet of no bytes. -/
theorem test_decode_illegal :
    decode .c [0x05] = .error .reservedOpcode ∧ decode .t [0x12, 0x00, 0x00] = .error .reservedOpcode ∧
    decode .r [0x23] = .error .reservedOpcode ∧ decode .b [0x33, 0x00] = .error .reservedOpcode ∧
    decode .c [0xFF] = .error .reservedOpcode ∧ decode .c [0x30] = .error .wrongPort ∧
    decode .c [0x00, 0x00] = .error .wrongLength ∧ decode .t [0x11, 0x00] = .error .wrongLength ∧
    decode .b [0x31, 0x00, 0x00] = .error .wrongLength ∧ decode .t [0x10, 0x01, 0x00, 0x02, 0xAA] = .error .wrongLength ∧
    decode .c [0x02, 0x04, 0xFF, 0x01, 0x00, 0x02, 0x00, 0x00, 0x00] = .error .reservedField ∧
    decode .c [0x02, 0x00, 0xFF, 0x01, 0x00, 0x02, 0x00, 0x00, 0x01, 0x31] = .error .reservedField ∧
    decode .c [0x02, 0x02, 0xFF, 0x01, 0x00, 0x02, 0x00, 0x00, 0x02, 0x31] = .error .wrongLength ∧
    decode .c [] = .error .emptyPacket := by decide

/-- The table word of `txdrain 258`, byte 0 in bits 7..0. -/
theorem test_decode_table_word : decodeTableWord 24 0x020111 = some (.txdrain 258) := by decide

/-! ### System operations -/

/-- V51, V52: STATUS and POOLFREE after reset. -/
theorem test_rdcsr_reset : Block.reset.csr 0x00 = some 0 ∧ Block.reset.csr 0x0E = some 0xFFFF := by decide

/-- V8b's STATUS, and FRAMEHDR with AUX above BLEN. -/
theorem test_rdcsr_fields : (runWith fun k => { k with wen := true }).blk.csr 0x00 = some 0x101 ∧
    (inBody 9).blk.csr 0x0C = some 0x5002 ∧ (inBody 9).blk.csr 0x00 = some 0x081 := by decide

/-- V53: reserved indices. -/
theorem test_rdcsr_reserved : after (execRdcsr 0x20 run0) (fun t => t.responses == [⟨.c, .badArg, []⟩]) = true := by decide

theorem test_reset_held : after (execReset held)
    (fun t => t.blk == Block.reset && t.responses == [⟨.c, .ok, []⟩, ⟨.d, .notReady, []⟩] && !t.decHeld) = true := by
  decide +kernel

theorem test_cancel_held : after (execCancel held)
    (fun t => t.blk.stop && t.responses == [⟨.c, .ok, []⟩, ⟨.d, .canceled, [0x00]⟩] && !t.decHeld) = true := by
  decide +kernel

theorem test_nop : after (execNop faulted) (fun t => t.responses == [⟨.c, .ok, []⟩]) = true := by decide

/-! ### Configuration -/

/-- V7: the default access code of Profile T. -/
theorem test_cfg_default : after (execCfgWith profileT false none 0xFF 1 0x00020000 State.reset) (fun t =>
    t.blk.statusWord == 0x001 && t.blk.acLen == 64 && t.blk.pat == 0xACDDA4E2F28C20FC && t.blk.thr == 12) = true := by
  decide +kernel

/-- V5: a symbol that is no bit. -/
theorem test_cfg_symbol : after (execCfg false (some [0x31, 0x30, 0x61, 0x30, 0x31]) 0xFF 1 0x00020000 State.reset)
    (fun t => t.blk.statusWord == 0x038 && t.responses == [⟨.c, .cfgErr, [0x03]⟩]) = true := by decide +kernel

/-! ### Transmit -/

/-- V12: the frame of 01 02 03 behind a 13-bit access code. -/
theorem test_txev_frame : after (execTxevWith profileT 0x01 [0x01, 0x02, 0x03]
    (runWith fun k => { k with acLen := 13, pat := 0x1555 })) (fun t =>
      t.blk.pq == [0xAA, 0xA8, 0x00, 0x20, 0x00, 0x21, 0x43, 0x85, 0xC0, 0x10] && t.blk.wOff == 0) = true := by
  decide +kernel

/-- V15, row 15: the offset is used, and wraps. -/
theorem test_txev_whitener : after (execTxevWith profileT 0x01 [0x0F] (runWith fun k => { k with
    wen := true, wOff := 15 })) (fun t =>
      t.blk.pq == [0xE4, 0xC7, 0xF0, 0x02, 0xF0, 0x02, 0x7F, 0xB6] && t.blk.wOff == 0) = true := by decide +kernel

/-- V20, first drain; V23: an empty queue is IDLE whatever the capacity. -/
theorem test_txdrain : after (execTxdrain 3 (runWith fun k => { k with pq := [0xE4, 0xC7, 0x00, 0x02] })) (fun t =>
    t.blk.pq == [0x02] && t.blk.txOut == [0xE4, 0xC7, 0x00] &&
    t.responses == [⟨.t, .ok, [0x00, 0x03, 0xE4, 0xC7, 0x00]⟩]) = true := by decide +kernel
theorem test_txdrain_idle : after (execTxdrain 0 run0) (fun t => t.responses == [⟨.t, .idle, [0x00, 0x00]⟩]) = true := by
  decide +kernel

/-! ### Receive -/

/-- 43_correlator R113: the distances of 95_test_vectors section 2.5 to 0xE4C7. -/
theorem test_distance : (runWith fun k => { k with sr := 0xAE4C4 }).blk.distance = 2 ∧
    (runWith fun k => { k with sr := 0xFFFF }).blk.distance = 7 ∧
    (runWith fun k => { k with sr := 0x1B38 }).blk.distance = 16 := by decide +kernel

/-- The sixteenth bit completes a hit with two errors (0xE4C4), and fifteen bits never do. -/
theorem test_rxbit_hit : after (execRxbit false (runWith fun k => { k with sr := 0x7262, fill := 15 })) (fun t =>
    t.blk.rxState == .header && t.blk.rxCnt == 32 && t.blk.fill == 16 && t.blk.sr == 0xE4C4) = true ∧
    after (execRxbit false (runWith fun k => { k with sr := 0x7262, fill := 14 })) (fun t => t.blk.rxState == .search) =
      true := by decide +kernel

/-- The last header bit: W = 0x5003 twice. -/
theorem test_rxbit_header_end : after (execRxbit true (inHeader 1 0x2801A801)) (fun t =>
    t.blk.rxState == .body && t.blk.aux == 5 && t.blk.bLen == 3 && t.blk.rxCnt == 24) = true := by decide +kernel

/-- Sixteen bits of a body in two bytes: the candidate 68 A3 with offset 5. -/
theorem test_rxbyte_body : after (execRxbyte 0xA3 (inBody 8)) (fun t =>
    t.blk.cq == [⟨[0x68, 0xA3], 5⟩] && t.blk.rxState == .search && t.responses == [⟨.r, .ok, []⟩]) = true := by
  decide +kernel

/-! ### Decode and buffers -/

/-- V10: the payload 01 02 03 goes to the least handle. -/
theorem test_dec_datagram : after (execDecWith profileT queued) (fun t =>
    t.blk.evOut == [.datagram 0 3] && t.blk.poolByte 0 2 == some 0x03 && t.blk.cq == [⟨[0x00], 0⟩] &&
    t.responses == [⟨.d, .ok, [0x01]⟩]) = true := by decide +kernel

theorem test_bufrd : after (execBufrd 3 1 inflight3) (fun t => t.responses == [⟨.b, .ok, [0xAD]⟩]) = true ∧
    after (execBufrd 3 2 inflight3) (fun t => t.responses == [⟨.b, .badArg, []⟩]) = true ∧
    after (execBufrd 16 0 inflight3) (fun t => t.responses == [⟨.b, .badArg, []⟩]) = true := by decide +kernel

theorem test_rel : after (execRel 3 inflight3) (fun t => t.blk.pool[3]? == some ⟨.free, 2⟩ &&
    t.blk.poolByte 3 0 == some 0xDE && t.responses == [⟨.b, .ok, []⟩]) = true := by decide +kernel

/-- 44_decoder_pool R127: nothing but the answer with every buffer taken; V59: with `POOL_C` = 2 the payload 01 02 03 sets
FAULT, `STATUS` is 0x005 and the candidate stays. -/
theorem test_dec_backoff_oversize : after (execDecWith profileT exhausted) (fun t =>
    t.blk == exhausted.blk && t.responses == [⟨.d, .backoff, [0x00]⟩]) = true ∧
    after (execDecWith smallPool queued) (fun t =>
      t.blk.statusWord == 0x005 && t.blk.cq == queued.blk.cq && t.blk.poolFree == 0xFFFF &&
      t.responses == [⟨.d, .faulted, []⟩]) = true := by decide +kernel

/-- The event record and the response packet of V41. -/
theorem test_records : Event.record (.datagram 0 3) = [0x01, 0x00, 0x00, 0x03] ∧
    Response.bytes ⟨.d, .ok, [0x01]⟩ = [0x00, 0x01] ∧ Response.bytes ⟨.b, .badArg, []⟩ = [0x83] := by decide

/-! ### Steps and the assembler -/

/-- An RXBYTE bit by bit: two bits are left; a fault raised since it began does not end it, and its last bit answers OK
(43_correlator R117). -/
theorem test_step_rxbyte : after (step { run0 with rxPend := [false, true, true], turns := [.rxStep] }) (fun t =>
    t.rxPend == [true, true] && t.responses == [] && t.blk.fill == 1) = true ∧
    after (step { faulted with rxPend := [true], turns := [.rxStep] }) (fun t =>
      t.rxPend == [] && t.responses == [⟨.r, .ok, []⟩] && t.blk.fill == 1) = true := by decide +kernel

/-- `bufrd 5 258` as the first instruction after reset. -/
theorem test_withFetchWord : after (step (State.reset.withFetchWord 32 0x02010531)) (fun t =>
    t.responses == [⟨.b, .notReady, []⟩]) = true := by decide +kernel

/-- V8b's line: `sps=2.5` is 0x00028000. -/
theorem test_assemble_cfg : assemble (.cfg ⟨25, 1⟩ 2 (some [0x31]) (some true) (some 2)) =
    some [.cfg true (some [0x31]) 2 2 0x00028000] := by decide +kernel

theorem test_assemble_defaults : assemble (.cfg ⟨2, 0⟩ 1 none none none) = some [.cfg false none 0xFF 1 0x00020000] ∧
    assemble (.rdcsrName "POOLFREE") = some [.rdcsr 0x0E] := by decide +kernel

/-- No packet carries 256 characters of access code (log 13). -/
theorem test_assemble_too_long : assemble (.cfg ⟨2, 0⟩ 1 (some (List.replicate 256 0x31)) none none) = none := by
  decide +kernel

/-! ### Witnesses: for every obligation with hypotheses, a state and operands that meet them -/

/-- Sixty-four zeros: the longest access code. -/
def longCode : List Byte := List.replicate 64 0x30

theorem longCode_bits : ∀ c ∈ longCode, c = 0x30 ∨ c = 0x31 := fun _ hc => .inl (List.eq_of_mem_replicate hc)

theorem longCode_length : longCode.length = 64 := List.length_replicate

theorem witness_CancelOperation : held.HoldOk ∧ held.decHeld = true := ⟨fun _ => by decide, rfl⟩

/-- The reserved and the defined indices meet here. -/
theorem witness_CsrMap : Block.reset.csr 0x0F = none ∧ Block.reset.csr 0x20 = none ∧
    (Block.resetWith 2).csr 0x11 = some 0 ∧ (Block.resetWith 2).csr 0x12 = none ∧
    Block.reset.csr 0x10 = some 0 ∧ inflight3.blk.csr 0x13 = some 2 ∧ Block.reset.csr 0x1F = some 0 ∧
    inflight3.blk.csr 0x0E = some 0xFFF7 := by decide +kernel

theorem witness_StatusWordBits : ∃ (s t : State) (idx : Byte), exec (.rdcsr idx) s = .next t :=
  ⟨run0, _, 0x00, rfl⟩

theorem witness_CfgConstructs : ∃ (s : State) (ac : List Byte) (thr bps : Byte) (sps : BitVec 32),
    s.blk.fault = false ∧ s.blk.ready = false ∧ 1 ≤ ac.length ∧ ac.length ≤ 64 ∧ (∀ c ∈ ac, c = 0x30 ∨ c = 0x31) ∧
    -1 ≤ thr.toInt ∧ bps ≠ 0 ∧ sps ≠ 0 := ⟨State.reset, [0x31], 0xFF, 1, 0x00020000, by decide⟩

theorem witness_CfgConstructs_longest : longCode.length ≤ 64 ∧ (∀ c ∈ longCode, c = 0x30 ∨ c = 0x31) ∧
    -1 ≤ (0x7F : Byte).toInt ∧ -1 ≤ (0x00 : Byte).toInt :=
  ⟨le_of_eq longCode_length, longCode_bits, by decide, by decide⟩

/-- One string for each of the three causes, at the boundaries of the lengths: 0, 65, 1 and 64. -/
theorem witness_CfgErrors : State.reset.blk.fault = false ∧ State.reset.blk.ready = false ∧
    ([] : List Byte).length = 0 ∧ 64 < (0x32 :: longCode).length ∧
    (∃ c ∈ [(0x61 : Byte)], c ≠ 0x30 ∧ c ≠ 0x31) ∧
    (∃ c ∈ 0x32 :: longCode.tail, c ≠ 0x30 ∧ c ≠ 0x31) ∧ (0x32 :: longCode.tail).length = 64 :=
  ⟨rfl, rfl, rfl, by rw [List.length_cons, longCode_length]; decide, ⟨0x61, by decide⟩,
    ⟨0x32, List.mem_cons_self, by decide⟩, by rw [List.length_cons, List.length_tail, longCode_length]⟩

theorem witness_CfgNotAccepted : faulted.blk.fault = true ∧ run0.blk.fault = false ∧ run0.blk.ready = true := by decide

theorem witness_CfgDefaultCode : State.reset.blk.fault = false ∧ State.reset.blk.ready = false := by decide

/-- Both sides of the equivalence: `thr = -2` is refused, `thr = -1` is not. -/
theorem witness_CfgRefusedOperands : (0xFE : Byte).toInt ≤ -2 ∧ ¬ (0xFF : Byte).toInt ≤ -2 ∧
    State.reset.blk.fault = false ∧ State.reset.blk.ready = false ∧
    ∀ c ∈ [(0x31 : Byte)], c = 0x30 ∨ c = 0x31 := by decide

theorem witness_PatternBits : 1 ≤ [(0x31 : Byte)].length ∧ 1 ≤ longCode.length ∧ longCode.length ≤ 64 ∧
    0 < longCode.length ∧ 63 < longCode.length := by rw [longCode_length]; decide

/-- The sizes of Profile T and of V59 fit the fields; the greatest that do. -/
theorem witness_SizesFit : profileT.SizesFit ∧ smallPool.SizesFit ∧ Config.params.SizesFit ∧
    ({ profileT with poolN := 64, poolC := 8191 } : Config.Params).SizesFit := by decide

theorem witness_running : run0.blk.Running := by decide

/-- `TxevOperation`: the three cases of the kind and the body's length, for parameters one can compute with. -/
theorem witness_TxevOperation : run0.blk.Running ∧ (0x07 : Byte) ≠ 0x01 ∧
    ¬ 4095 < (profileT.packBody [] run0.blk.sps run0.blk.bps run0.blk.wOff).length := by decide +kernel

theorem witness_FrameLayout : (profileT.packBody [0x01] run0.blk.sps run0.blk.bps 15).length ≤ 4095 := by decide +kernel

theorem witness_WhitenerSequence : run0.blk.Running ∧ ∀ data ∈ [[0x01], [0x02, (0x03 : Byte)]], ∀ o,
    (profileT.packBody data run0.blk.sps run0.blk.bps o).length ≤ 4095 := by decide +kernel

/-- `TxdrainOperation` and `DrainSplit`: an empty queue and one with bytes. -/
theorem witness_TxdrainOperation : run0.blk.Running ∧ run0.blk.pq = [] ∧
    (runWith fun k => { k with pq := [0xE4, 0xC7] }).blk.Running := by decide

theorem witness_TransmitStreamGrows : ∃ (i : Instr) (s t : State), exec i s = .next t ∧ i ≠ .reset ∧ isCfg i = false :=
  ⟨.txdrain 1, runWith fun k => { k with pq := [0xE4, 0xC7] }, _, rfl, by decide, rfl⟩

theorem witness_RxbitSearch : run0.blk.Running ∧ run0.blk.rxState = .search := by decide

theorem witness_RxbitHeader : (inHeader 1 0x2801A801).blk.Running ∧ (inHeader 1 0x2801A801).blk.rxState = .header ∧
    (inHeader 1 0x2801A801).blk.rxCnt ≠ 0 ∧ (inHeader 32 0).blk.rxCnt ≠ 0 := by decide

theorem witness_RxbitBody : (inBody 1).blk.Running ∧ (inBody 1).blk.rxState = .body ∧ (inBody 1).blk.rxCnt ≠ 0 ∧
    (inBody 9).blk.rxCnt ≠ 0 ∧ (inBody 16).blk.rxCnt ≠ 0 := by decide

/-- `HitCriterion`: sixteen bits received, at the thresholds 0, 15 and 16; and 64 bits of pattern. -/
theorem witness_HitCriterion :
    let k := fun t : BitVec 7 => (runWith fun k => { k with fill := 16, thr := t }).blk
    (k 0).acLen.toNat ≤ 64 ∧ (k 0).acLen.toNat ≤ (k 0).fill.toNat ∧ (k 0).thr.toNat = 0 ∧
    (k 15).thr.toNat + 1 = (k 15).acLen.toNat ∧ (k 16).acLen.toNat ≤ (k 16).thr.toNat ∧
    ((64 : BitVec 7).toNat ≤ 64) ∧ (k 0).rxState = .search := by decide

theorem witness_FramedIgnoresPattern : (inHeader 32 0).blk.rxState ≠ .search ∧ (inBody 9).blk.rxState ≠ .search := by
  decide

theorem witness_CandidateDelivered : (inHeader 32 0).blk.Running ∧ (inHeader 32 0).blk.rxState = .header ∧
    (inHeader 32 0).blk.rxCnt = 32 ∧ ([] : List Byte).length ≤ 4095 ∧ [(0x28 : Byte)].length ≤ 4095 := by decide

/-- A block that looks for the four bits 1010 with threshold 1. -/
def run4 : State := runWith fun k => { k with acLen := 4, pat := 0b1010, thr := 1 }

/-- `SyncWithinThreshold`: one error is within the threshold, two are not. -/
theorem witness_SyncWithinThreshold :
    let errors := fun code : List Bool => (List.range run4.blk.acLen.toNat).countP
      (fun i => code[i]? != some (run4.blk.pat.getLsbD (run4.blk.acLen.toNat - 1 - i)))
    run4.blk.Running ∧ run4.blk.rxState = .search ∧ run4.blk.fill = 0 ∧ 1 ≤ run4.blk.acLen.toNat ∧
    run4.blk.acLen.toNat ≤ 64 ∧ [true, false, true, true].length = run4.blk.acLen.toNat ∧
    errors [true, false, true, true] ≤ run4.blk.thr.toNat ∧
    [false, false, true, true].length = run4.blk.acLen.toNat ∧
    run4.blk.thr.toNat < errors [false, false, true, true] := by decide +kernel

/-- A canceled block with a candidate, and an uncanceled one without. -/
theorem witness_DecCanceledOrHeld : (runWith fun k => { k with stop := true }).blk.Running ∧
    (runWith fun k => { k with stop := true }).blk.stop = true ∧ run0.blk.stop = false ∧ run0.blk.cq = [] := by decide

theorem witness_DecDecides_fails : run0.blk.Running ∧ run0.blk.stop = false ∧
    profileT.unpack [0x00] 0 = (false, []) := by decide +kernel

theorem witness_DecDecides_exhausted : exhausted.blk.Running ∧ exhausted.blk.stop = false ∧
    exhausted.blk.cq = goodCandidate :: [] ∧ profileT.unpack goodCandidate.raw 0 = (true, [0x01, 0x02, 0x03]) ∧
    ∀ h : Nat, exhausted.blk.own h ≠ some .free := ⟨by decide, rfl, rfl, by decide +kernel, exhausted_own⟩

/-- With `POOL_C` = 2 the payload 01 02 03 is too long; with `POOL_C` = 3 it just fits. -/
theorem witness_DecDecides_oversize : queued.blk.Running ∧ queued.blk.stop = false ∧
    queued.blk.cq = goodCandidate :: [⟨[0x00], 0⟩] ∧ queued.blk.own 0 = some .free ∧
    smallPool.unpack goodCandidate.raw goodCandidate.aux = (true, [0x01, 0x02, 0x03]) ∧
    smallPool.poolC < [(0x01 : Byte), 0x02, 0x03].length ∧
    [(0x01 : Byte), 0x02, 0x03].length ≤ ({ smallPool with poolC := 3 } : Config.Params).poolC := by decide +kernel

theorem witness_DecHandsOver : profileT.SizesFit ∧ queued.blk.Running ∧ queued.blk.stop = false ∧
    queued.blk.cq = goodCandidate :: [⟨[0x00], 0⟩] ∧
    profileT.unpack goodCandidate.raw goodCandidate.aux = (true, [0x01, 0x02, 0x03]) ∧
    (∃ h : Nat, queued.blk.own h = some .free) ∧ [(0x01 : Byte), 0x02, 0x03].length ≤ profileT.poolC :=
  ⟨by decide, by decide, by decide, by decide, by decide +kernel, ⟨0, by decide⟩, by decide⟩

theorem witness_ExhaustionRecovers : profileT.SizesFit ∧ exhausted.blk.Running ∧ exhausted.blk.stop = false ∧
    exhausted.blk.cq = goodCandidate :: [] ∧
    profileT.unpack goodCandidate.raw goodCandidate.aux = (true, [0x01, 0x02, 0x03]) ∧
    [(0x01 : Byte), 0x02, 0x03].length ≤ profileT.poolC ∧ (∀ g : Nat, exhausted.blk.own g ≠ some .free) ∧
    exhausted.blk.own (5 : Byte).toNat = some .inflight :=
  ⟨by decide, by decide, rfl, rfl, by decide +kernel, by decide, exhausted_own, by decide⟩

/-- `OwnershipTransitions`: a `DEC` takes buffer 0, a `REL` frees buffer 3. -/
theorem witness_OwnershipTransitions :
    (queued.blk.own 0 = some .free ∧
      after (execWith profileT .dec queued) (fun t => t.blk.own 0 == some .inflight) = true) ∧
    inflight3.blk.own 3 = some .inflight ∧
    after (execWith profileT (.rel 3) inflight3) (fun t => t.blk.own 3 == some .free) = true := by
  decide +kernel

theorem witness_InflightBytesStable : ∃ (i : Instr) (s t : State) (h : Nat), exec i s = .next t ∧ i ≠ .reset ∧
    s.blk.own h = some .inflight :=
  ⟨.rel 3, inflight3, _, 3, rfl, by decide, by decide⟩

/-- `BufrdOperation`: the first and the last byte of buffer 3; then the three grounds for BADARG (handle 16 is out of
range, buffer 2 is not INFLIGHT, offset 2 is not below the length). -/
theorem witness_BufrdOperation : inflight3.blk.Running ∧ inflight3.blk.own (3 : Byte).toNat = some .inflight ∧
    inflight3.blk.len (3 : Byte).toNat = some 2 ∧ 1 < (2 : BitVec 13).toNat ∧
    inflight3.blk.poolByte 3 0 = some 0xDE ∧ inflight3.blk.poolByte 3 1 = some 0xAD ∧
    inflight3.blk.own (16 : Byte).toNat ≠ some .inflight ∧ inflight3.blk.own (2 : Byte).toNat ≠ some .inflight ∧
    (2 : BitVec 13).toNat ≤ (2 : BitVec 16).toNat := by decide +kernel

/-- The buffers of `inflight3`: buffer 3 is INFLIGHT, every other is as after reset. -/
theorem inflight3_buf (h : Nat) (b : Buf) (hb : inflight3.blk.pool[h]? = some b) :
    (h = 3 ∧ b = ⟨.inflight, 2⟩) ∨ b = ⟨.free, 0⟩ := by
  change ((List.replicate 16 (⟨.free, 0⟩ : Buf)).set 3 ⟨.inflight, 2⟩)[h]? = some b at hb
  rw [List.getElem?_set] at hb
  split at hb
  · rename_i e; simp at hb; exact .inl ⟨e.symm, hb.symm⟩
  · rw [List.getElem?_replicate] at hb
    split at hb <;> cases hb
    exact .inr rfl

/-- A pool that meets `PoolOk` with a buffer in flight. -/
theorem witness_PoolOk : inflight3.blk.PoolOk Config.params := by
  refine ⟨fun h b hb => ?_, fun h b hb ho => ?_, fun h b hb ho off hoff => ?_⟩ <;>
    rcases inflight3_buf h b hb with ⟨rfl, rfl⟩ | rfl
  · decide
  · decide
  · decide
  · cases ho
  · change off < 2 at hoff
    interval_cases off <;> decide
  · cases ho

/-- A buffer whose length says more bytes than were written, and one longer than the pool's buffers. -/
theorem witness_BufrdNeverFaults :
    let k := (runWith fun k => { k with pool := k.pool.set 3 ⟨.inflight, 4097⟩ }).blk
    k.Running ∧ k.own (3 : Byte).toNat = some .inflight ∧ k.len (3 : Byte).toNat = some 4097 ∧
    4096 < (4097 : BitVec 13).toNat ∧ k.poolByte 3 0 = none ∧ k.poolByte 3 4095 = none := by decide +kernel

theorem witness_RelOperation : inflight3.blk.Running ∧ inflight3.blk.own (3 : Byte).toNat = some .inflight ∧
    inflight3.blk.len (3 : Byte).toNat = some 2 ∧ inflight3.blk.own (16 : Byte).toNat ≠ some .inflight ∧
    inflight3.blk.own (15 : Byte).toNat ≠ some .inflight := by decide +kernel

theorem witness_GateAnswers : isStreaming .dec = true ∧ isStreaming (.rel 0) = true ∧ faulted.blk.fault = true ∧
    State.reset.blk.fault = false ∧ State.reset.blk.ready = false := by decide

theorem witness_RefusalsChangeNothing : (∃ (i : Instr) (s t : State) (r : Response), exec i s = .next t ∧
    r ∈ t.responses.drop s.responses.length ∧ r.port = i.port ∧
    r.status ∈ [Status.notReady, .badState, .badArg, .faulted, .tooLong] ∧ (r.status = .faulted → s.blk.fault = true)) ∧
    ∃ (s t : State) (r : Response), s.decHeld = false ∧ step s = .next t ∧ r ∈ t.responses.drop s.responses.length ∧
      r.status ∈ [Status.notReady, .badState, .badArg, .illegal, .faulted, .tooLong] ∧
      (r.status = .faulted → s.blk.fault = true) :=
  ⟨⟨.rel 0, run0, _, ⟨.b, .badArg, []⟩, rfl, by decide, rfl, by decide, by decide⟩,
    { faulted with turns := [.rxStep], inputs := ⟨[], [], [[0x22, 0xA3]], [], []⟩ }, _, ⟨.r, .faulted, []⟩, rfl, rfl,
    by decide, by decide, fun _ => rfl⟩

/-- `FlagsAndConfiguration`: READY, STOP and CFGERR each set by the operation named. (FAULT: witness_DecDecides_oversize.) -/
theorem witness_FlagsAndConfiguration :
    after (execWith profileT (.cfg false none 0xFF 1 1) State.reset) (fun t => t.blk.ready) = true ∧
    after (execWith profileT .cancel run0) (fun t => t.blk.stop) = true ∧
    after (execWith profileT (.cfg false (some []) 0xFF 1 1) State.reset) (fun t => t.blk.cfgErr) = true ∧
    after (execWith profileT (.txdrain 0) run0) (fun t => t.blk.ready) = true := by decide +kernel

theorem witness_PathsIndependent : ∃ (i j : Instr) (s si sij sj sji : State), isTransmit i = true ∧
    isReceiveSide j = true ∧ exec i s = .next si ∧ exec j si = .next sij ∧ exec j s = .next sj ∧ exec i sj = .next sji ∧
    sj.blk.fault = s.blk.fault :=
  ⟨.txdrain 1, .rel 3, inflight3, _, _, _, _, rfl, rfl, rfl, rfl, rfl, rfl, rfl⟩

theorem witness_EventsFollowCandidates : ∃ (i : Instr) (s t : State), exec i s = .next t ∧ i ≠ .reset ∧
    isCfg i = false := ⟨.dec, run0, _, rfl, by decide, rfl⟩

theorem witness_LoopbackDelivers : plainParams.SizesFit ∧ plainParams.RoundTrip ∧ plainParams.preamble = [] ∧ run0.blk.Running ∧
    run0.blk.stop = false ∧ run0.blk.PatternOk ∧ run0.blk.rxState = .search ∧ run0.blk.fill = 0 ∧ run0.blk.cq = [] ∧
    run0.blk.pq = [] ∧ (∃ h : Nat, run0.blk.own h = some .free) ∧
    (plainParams.packBody [0x41] run0.blk.sps run0.blk.bps run0.blk.wOff).length ≤ 4095 ∧
    [(0x41 : Byte)].length ≤ plainParams.poolC ∧
    (encodeFrame plainParams run0.blk [0x41] run0.blk.wOff).length ≤ (7 : BitVec 16).toNat :=
  ⟨by decide, fun _ _ _ _ _ => rfl, rfl, by decide, rfl, fun _ => by decide, rfl, rfl, rfl, rfl, ⟨0, by decide⟩, by decide, by decide,
    by decide +kernel⟩

theorem witness_TransmitFrame : ∃ (s t u : State), exec (.txev 0x07 [0x99]) s = .next t ∧
    exec (.txdrain 1) s = .next u := ⟨runWith fun k => { k with pq := [0xE4, 0xC7] }, _, _, rfl, rfl⟩

theorem witness_ReceiveFrame : ∃ (s t u : State), exec (.rxbit true) s = .next t ∧ exec (.rxbyte 0xA3) s = .next u :=
  ⟨inBody 8, _, _, rfl, rfl⟩

theorem dec_answers (s : State) : ∃ t, exec .dec s = .next t := by
  simp only [exec, execDec, execDecWith]
  split
  · exact ⟨_, rfl⟩
  split
  · exact ⟨_, rfl⟩
  split <;> exact ⟨_, rfl⟩

theorem witness_DecodeFrame : (∃ t, exec .dec exhausted = .next t) ∧
    exhausted.blk.own 0 ≠ some .free ∧
    ∀ (c : Candidate) (rest : List Candidate) (h0 : Nat) (hs : List Nat), exhausted.blk.cq = c :: rest →
      exhausted.blk.freeHandles = h0 :: hs → (0 : Nat) = grant Config.params h0 hs →
      (Config.params.unpack c.raw c.aux).2.length ≤ 0 := by
  refine ⟨dec_answers _, by decide +kernel, fun c rest h0 hs _ h => ?_⟩
  have : exhausted.blk.freeHandles = [] := by decide +kernel
  rw [this] at h
  cases h

theorem witness_BufferFrame : ∃ (s t u : State), exec (.bufrd 3 1) s = .next t ∧ exec (.rel 3) s = .next u :=
  ⟨inflight3, _, _, rfl, rfl⟩

theorem witness_ControlFrame : ∃ (s t u v w : State), exec .nop s = .next t ∧ exec (.rdcsr 0x02) s = .next u ∧
    exec .cancel s = .next v ∧ exec (.cfg false (some []) 0xFF 1 1) s = .next w :=
  ⟨State.reset, _, _, _, _, rfl, rfl, rfl, rfl⟩

/-- A turn of port B with `rel 1` waiting, on a running block. -/
def relWaits : State := { run0 with inputs := ⟨[], [], [], [], [[0x32, 0x01]]⟩, turns := [.run .b] }

theorem witness_StepRunsPacket : relWaits.turns = .run .b :: [] ∧ relWaits.inputs.get .b = [0x32, 0x01] :: [] ∧
    decode .b [0x32, 0x01] = .ok (.rel 1) ∧ (Port.b = .d → relWaits.decHeld = false) ∧
    (Port.b = .r → relWaits.rxPend = []) := by decide

/-- A turn of port R with a reserved opcode waiting. -/
def badWaits : State := { run0 with inputs := ⟨[], [], [[0x23]], [], []⟩, turns := [.run .r] }

theorem witness_StepIllegal : badWaits.turns = .run .r :: [] ∧ badWaits.inputs.get .r = [0x23] :: [] ∧
    decode .r [0x23] = .error .reservedOpcode ∧ (Port.r = .d → badWaits.decHeld = false) ∧
    (Port.r = .r → badWaits.rxPend = []) := by decide

/-- A turn of port C with `reset` waiting, a `DEC` being held. -/
def resetWaits : State := { held with inputs := ⟨[[0x01]], [], [], [], []⟩, turns := [.run .c] }

theorem witness_StepIdleAndHeld : State.reset.turns = [] ∧
    ({ held with turns := [.run .d] } : State).decHeld = true ∧
    (∃ t, resetWaits.turns = .run .c :: [] ∧ Port.c ≠ .d ∧ resetWaits.decHeld = true ∧ step resetWaits = .next t ∧
      t.decHeld = false) ∧
    ∃ (s t : State), s.turns = .rxStep :: [] ∧ s.decHeld = true ∧ step s = .next t :=
  ⟨rfl, rfl, ⟨_, rfl, by decide, rfl, rfl, rfl⟩, { held with turns := [.rxStep], rxPend := [true] }, _, rfl, rfl, rfl⟩

/-- A running and an unconfigured block; a byte in progress with one bit left and with more. -/
theorem witness_RxbyteInSteps : run0.blk.Running ∧ ¬ State.reset.blk.Running ∧ run0.rxPend = [] ∧
    decode .r [0x22, 0xA3] = .ok (.rxbyte 0xA3) ∧
    ({ faulted with rxPend := [true], turns := [.rxStep] } : State).rxPend = true :: [] ∧
    ({ run0 with rxPend := [true, false], turns := [.run .r] } : State).rxPend ≠ [] := by decide

theorem witness_DecodeEncode : (Instr.cfg true (some [0x31, 0x30]) 0x02 1 0x00028000).wellFormed = true ∧
    (Instr.txev 0x01 []).wellFormed = true := by decide

theorem witness_EncodeDecode : decode .b [0x31, 0x05, 0x01, 0x02] = .ok (.bufrd 5 0x0102) ∧
    decode .c [0x02, 0x01, 0xFF, 0x01, 0x00, 0x02, 0x00, 0x00, 0x00] = .ok (.cfg true none 0xFF 1 0x00020000) := by
  decide

/-! The invariants hold of running blocks, and those blocks step. -/

theorem witness_LifecycleKept : relWaits.blk.LifecycleOk ∧ ∃ t, step relWaits = .next t :=
  ⟨⟨(fun h => by cases h), (fun _ => by decide), (fun _ => rfl), (fun h => by cases h), (fun h => by cases h), by decide⟩,
    _, rfl⟩

theorem witness_AssemblerKept : (inBody 9).blk.AssemblerOk ∧
    ∃ t, step { inBody 9 with turns := [.rxStep], rxPend := [true] } = .next t :=
  ⟨⟨by decide, by decide, by decide, by decide, by decide, by decide⟩, _, rfl⟩

theorem witness_PoolKept : inflight3.blk.PoolOk Config.params ∧ inflight3.blk.MemoryOk Config.params ∧
    Config.params.SizesFit ∧
    ∃ t, step { inflight3 with turns := [.run .b], inputs := ⟨[], [], [], [], [[0x32, 0x03]]⟩ } = .next t :=
  ⟨witness_PoolOk, ⟨rfl, by decide⟩, by decide, _, rfl⟩

theorem witness_PortsKept : resetWaits.HoldOk ∧ resetWaits.QuietOk ∧ ∃ t, step resetWaits = .next t :=
  ⟨fun _ => by decide, ⟨by decide, rfl, rfl⟩, _, rfl⟩

end Sys2Proof.Tests
end

section
/-! The STATUS word bit by bit and field by field (10_state R38), and what RDCSR leaves unchanged (45_system R140). -/

namespace Sys2Proof.Machine

section statusWord
variable (k : Block)

/-- The bits of STATUS that have a meaning, bit 0 first (10_state R38). -/
def Block.statusBits : List Bool :=
  [k.ready, k.stop, k.fault, k.cfgErr, k.cfgCause.getLsbD 0, k.cfgCause.getLsbD 1,
    k.rxState.code.getLsbD 0, k.rxState.code.getLsbD 1, k.wen]

/-- The one lemma that unfolds the packing of `statusWord`; the facts about its fields are read off the list. -/
theorem Block.statusWord_getLsbD (i : Nat) : k.statusWord.getLsbD i = k.statusBits.getD i false := by
  rcases Nat.lt_or_ge i 9 with hi | hi
  · simp only [Block.statusWord, BitVec.getLsbD_setWidth, BitVec.getLsbD_append]
    interval_cases i <;> simp [Block.statusBits]
  · rw [Block.statusWord, BitVec.getLsbD_setWidth, BitVec.getLsbD_of_ge _ _ hi, Bool.and_false]
    exact (List.getD_eq_default _ _ hi).symm

theorem Block.statusWord_getLsbD_reserved {i : Nat} (hi : 9 ≤ i) : k.statusWord.getLsbD i = false := by
  rw [k.statusWord_getLsbD]
  exact List.getD_eq_default _ _ hi

@[simp] theorem Block.statusWord_cfgCause : k.statusWord.extractLsb' 4 2 = k.cfgCause := by
  refine BitVec.eq_of_getLsbD_eq fun i hi => ?_
  rw [BitVec.getLsbD_extractLsb', k.statusWord_getLsbD]
  interval_cases i <;> rfl

@[simp] theorem Block.statusWord_rxState : k.statusWord.extractLsb' 6 2 = k.rxState.code := by
  refine BitVec.eq_of_getLsbD_eq fun i hi => ?_
  rw [BitVec.getLsbD_extractLsb', k.statusWord_getLsbD]
  interval_cases i <;> rfl

end statusWord

theorem exec_rdcsr (idx : Byte) (s : State) : exec (.rdcsr idx) s = execRdcsr idx s := rfl

/-- Reading a CSR has no effect on the block, whether the index is reserved or not (10_state R37). -/
theorem execRdcsr_blk {idx : Byte} {s t : State} (h : execRdcsr idx s = .next t) : t.blk = s.blk := by
  obtain ⟨v, -, rfl⟩ | ⟨-, rfl⟩ := execRdcsr_cases h
  · exact State.complete_blk ..
  · exact State.complete_blk ..

/-- Settles O6, from the list of STATUS's bits and the two outcomes of RDCSR. -/
theorem statusWordBits : Obligations.StatusWordBits := by
  unfold Obligations.StatusWordBits
  constructor
  · intro k
    have bit := k.statusWord_getLsbD
    refine ⟨bit 0, bit 1, bit 2, bit 3, k.statusWord_cfgCause, ?rxState, bit 8,
      fun _ hi => k.statusWord_getLsbD_reserved hi⟩
    case rxState =>
      rw [k.statusWord_rxState]
      cases k.rxState <;> rfl
  · intro s t idx h
    rw [exec_rdcsr] at h
    exact execRdcsr_blk h

end Sys2Proof.Machine
end

section
/-! The bits of PAT after a construction (40_config R85). -/

namespace Sys2Proof.Machine

section construct
variable (n : Nat) (k : Block) (str : List Byte) (wo : Bool) (thr bps : Byte) (sps : BitVec 32)

@[simp] theorem Block.construct_pat : (k.construct n str wo thr bps sps).pat = patternOf str := rfl

@[simp] theorem Block.construct_acLen :
    (k.construct n str wo thr bps sps).acLen = BitVec.ofNat 7 str.length := rfl

theorem Block.construct_acLen_toNat (h : str.length ≤ 64) :
    (k.construct n str wo thr bps sps).acLen.toNat = str.length := by
  rw [Block.construct_acLen, BitVec.toNat_ofNat, Nat.mod_eq_of_lt (by omega)]

end construct

/-- The bit of the `i`-th character, counted from the first: R85's `2^(L-1-i)`. -/
theorem patternOf_char {ac : List Byte} {i : Nat} (hL : ac.length ≤ 64) (hi : i < ac.length) :
    (patternOf ac).getLsbD (ac.length - 1 - i) = charBit ac[i] := by
  have hpos : ac.length - 1 - i < ac.length := by omega
  have hmirror : ac.length - 1 - (ac.length - 1 - i) = i := by omega
  rw [patternOf_bit, hmirror, List.getD_eq_getElem _ _ hi, decide_eq_true hpos,
    decide_eq_true (Nat.lt_of_lt_of_le hpos hL), Bool.true_and, Bool.true_and]

theorem patternOf_getLsbD_of_length_le {ac : List Byte} {j : Nat} (hj : ac.length ≤ j) :
    (patternOf ac).getLsbD j = false := by
  rw [patternOf_bit, decide_eq_false (Nat.not_lt.2 hj), Bool.and_false, Bool.false_and]

theorem charBit_eq_true_iff (c : Byte) : charBit c = true ↔ c = 0x31 := beq_iff_eq

/-- Settles O13: a construction stores `patternOf` of the string, whose bits mirror the characters. -/
theorem patternBits : Obligations.PatternBits := by
  unfold Obligations.PatternBits
  constructor
  · intro k n ac wo thr bps sps _ hL
    rw [Block.construct_pat]
    refine ⟨k.construct_acLen_toNat n ac wo thr bps sps hL, fun i hi => ?_,
      fun j hj => patternOf_getLsbD_of_length_le hj⟩
    rw [patternOf_char hL hi, charBit_eq_true_iff, List.getElem?_eq_getElem hi, Option.some_inj]
  · decide

end Sys2Proof.Machine
end

section
/-! The correlator and the frame assembler in numbers: a bit received on a running block, the distance and the hit
(43_correlator R112 to R116). -/

namespace Sys2Proof.Machine

section receive
variable (k : Block) (b : Bool)

/-- The single rule by which the receive statements run `RXBIT` (43_correlator R112). -/
theorem exec_rxbit_of_running {s : State} (h : s.blk.Running) :
    exec (.rxbit b) s = .next (s.complete .r (s.blk.rxBit b) .ok []) := by
  show execRxbit b s = _
  rw [execRxbit, gate_of_running _ h]

theorem shiftIn_eq : k.shiftIn b = { k with
    sr := BitVec.ofNat 64 (k.sr.toNat * 2 + b.toNat), fill := BitVec.ofNat 7 (min (k.fill.toNat + 1) 64) } := by
  rw [Block.shiftIn, shiftConcat_eq, fillUp]

theorem hit_iff : k.hit = true ↔ k.acLen.toNat ≤ k.fill.toNat ∧ k.distance ≤ k.thr.toNat := by
  rw [Block.hit, Bool.and_eq_true, decide_eq_true_eq, decide_eq_true_eq]

/-- The search step, with the two conditions of a hit (43_correlator R114). -/
theorem searchStep_eq : k.searchStep =
    if k.acLen.toNat ≤ k.fill.toNat ∧ k.distance ≤ k.thr.toNat then
      { k with rxState := .header, hAcc := 0, rxCnt := 32 }
    else k :=
  if_congr (hit_iff k) rfl rfl

theorem searchStep_rxState (h : k.rxState = .search) :
    k.searchStep.rxState = if k.hit then .header else .search := by
  rw [Block.searchStep, apply_ite Block.rxState, h]

/-- The three outcomes of a complete header, with its two words as numbers (43_correlator R115). -/
theorem headerEnd_eq : k.headerEnd =
    if k.hAcc.toNat / 65536 ≠ k.hAcc.toNat % 65536 then { k with rxState := .search }
    else if k.hAcc.toNat / 65536 % 4096 = 0 then { k with
      aux := BitVec.ofNat 4 (k.hAcc.toNat / 65536 / 4096), bLen := 0, raw := [],
      cq := k.cq ++ [⟨[], BitVec.ofNat 4 (k.hAcc.toNat / 65536 / 4096)⟩], rxState := .search }
    else { k with
      aux := BitVec.ofNat 4 (k.hAcc.toNat / 65536 / 4096), bLen := BitVec.ofNat 12 (k.hAcc.toNat / 65536), raw := [],
      rxState := .body, rxCnt := BitVec.ofNat 16 (8 * (k.hAcc.toNat / 65536 % 4096)), bAcc := 0 } := by
  obtain ⟨hhigh, hlow⟩ := headerWords_toNat k.hAcc
  have hwords : headerHigh k.hAcc = headerLow k.hAcc ↔ k.hAcc.toNat / 65536 = k.hAcc.toNat % 65536 := by
    rw [← BitVec.toNat_inj, hhigh, hlow]
  have haux : (headerHigh k.hAcc).extractLsb' 12 4 = BitVec.ofNat 4 (k.hAcc.toNat / 65536 / 4096) := by
    rw [BitVec.extractLsb', hhigh, Nat.shiftRight_eq_div_pow]
  have hlen : (headerHigh k.hAcc).extractLsb' 0 12 = BitVec.ofNat 12 (k.hAcc.toNat / 65536) := by
    rw [BitVec.extractLsb', hhigh, Nat.shiftRight_zero]
  have hempty : (headerHigh k.hAcc).extractLsb' 0 12 = 0 ↔ k.hAcc.toNat / 65536 % 4096 = 0 := by
    rw [hlen, ← BitVec.toNat_inj, BitVec.toNat_ofNat]; rfl
  by_cases heq : k.hAcc.toNat / 65536 = k.hAcc.toNat % 65536
  · rw [if_neg (not_not.2 heq)]
    by_cases h0 : k.hAcc.toNat / 65536 % 4096 = 0
    · rw [headerEnd_empty k (hwords.2 heq) (hempty.2 h0), haux, if_pos h0]
    · rw [headerEnd_body k (hwords.2 heq) (mt hempty.1 h0), haux, hlen, if_neg h0, BitVec.toNat_ofNat]
  · rw [headerEnd_mismatch k (mt hwords.1 heq), if_pos heq]

/-- A header bit, when `RXCNT` is not yet 0 (43_correlator R115). -/
theorem headerStep_eq (h : k.rxCnt ≠ 0) :
    k.headerStep b =
      let k1 := { k with hAcc := BitVec.ofNat 32 (k.hAcc.toNat * 2 + b.toNat), rxCnt := k.rxCnt - 1 }
      if k1.rxCnt ≠ 0 then k1 else k1.headerEnd := by
  simp only [Block.headerStep, shiftConcat_eq, countDown_of_ne _ h, ite_not]

/-- A body bit, when `RXCNT` is not yet 0 (43_correlator R116). -/
theorem bodyStep_eq (h : k.rxCnt ≠ 0) :
    k.bodyStep b =
      let k1 := { k with bAcc := BitVec.ofNat 8 (k.bAcc.toNat * 2 + b.toNat), rxCnt := k.rxCnt - 1 }
      if k1.rxCnt.toNat % 8 ≠ 0 then k1
      else if k1.rxCnt ≠ 0 then { k1 with raw := k1.raw ++ [k1.bAcc] }
      else { k1 with
        raw := k1.raw ++ [k1.bAcc], cq := k1.cq ++ [⟨k1.raw ++ [k1.bAcc], k1.aux⟩], rxState := .search } := by
  simp only [Block.bodyStep, shiftConcat_eq, countDown_of_ne _ h, ite_not]
  rfl

theorem searchStep_fill : k.searchStep.fill = k.fill := by
  unfold Block.searchStep
  split <;> rfl

theorem headerEnd_fill : k.headerEnd.fill = k.fill := by
  rw [headerEnd_eq]
  split
  · rfl
  · split <;> rfl

theorem headerStep_fill : (k.headerStep b).fill = k.fill := by
  unfold Block.headerStep
  dsimp only
  split
  · exact headerEnd_fill _
  · rfl

theorem bodyStep_fill : (k.bodyStep b).fill = k.fill := by
  unfold Block.bodyStep
  dsimp only
  split
  · split <;> rfl
  · rfl

/-- `FILL` takes the bit in every state of the assembler (43_correlator R112). -/
theorem rxBit_fill : (k.rxBit b).fill = fillUp k.fill := by
  cases h : k.rxState with
  | search => rw [rxBit_search k b h, searchStep_fill, Block.shiftIn_fill]
  | header => rw [rxBit_header k b h, headerStep_fill, Block.shiftIn_fill]
  | body => rw [rxBit_body k b h, bodyStep_fill, Block.shiftIn_fill]

end receive

/-- Settles O20: the shift, then the comparison in `searchStep_eq`. -/
theorem rxbitSearch : Obligations.RxbitSearch := by
  unfold Obligations.RxbitSearch
  intro s b hrun hstate k
  rw [exec_rxbit_of_running b hrun, rxBit_search _ b hstate, shiftIn_eq, searchStep_eq]
  rfl

/-- Settles O21: a header bit leaves `RXCNT` above 0, or `headerEnd_eq` names the outcome. -/
theorem rxbitHeader : Obligations.RxbitHeader := by
  unfold Obligations.RxbitHeader
  intro s b hrun hstate hcnt k h1 h2
  rw [exec_rxbit_of_running b hrun, rxBit_header _ b hstate, headerStep_eq (s.blk.shiftIn b) b hcnt, shiftIn_eq]
  dsimp only
  rw [headerEnd_eq]
  rfl

/-- Settles O22: the shift, then a body bit by `bodyStep_eq`. -/
theorem rxbitBody : Obligations.RxbitBody := by
  unfold Obligations.RxbitBody
  intro s b hrun hstate hcnt k
  rw [exec_rxbit_of_running b hrun, rxBit_body _ b hstate, bodyStep_eq (s.blk.shiftIn b) b hcnt, shiftIn_eq]
  rfl

section distance
variable {k : Block}

/-- The distance, position by position of the pattern (43_correlator R113). -/
theorem distance_eq_countP (hL : k.acLen.toNat ≤ 64) :
    k.distance = (List.range k.acLen.toNat).countP fun j => k.sr.getLsbD j != k.pat.getLsbD j := by
  rw [Block.distance, popcount_masked _ _ hL]
  exact List.countP_congr fun j _ => by rw [BitVec.getLsbD_xor]

theorem distance_le (hL : k.acLen.toNat ≤ 64) : k.distance ≤ k.acLen.toNat := by
  rw [distance_eq_countP hL]
  exact List.countP_le_length.trans_eq List.length_range

/-- Distance 0 is the exact copy of the pattern. -/
theorem distance_eq_zero_iff (hL : k.acLen.toNat ≤ 64) :
    k.distance = 0 ↔ ∀ j, j < k.acLen.toNat → k.sr.getLsbD j = k.pat.getLsbD j := by
  rw [distance_eq_countP hL, List.countP_eq_zero]
  simp only [List.mem_range, bne_iff_ne, ne_eq, not_not]

/-- The distance is below `L` for every window but the complement of the pattern. -/
theorem distance_lt_iff (hL : k.acLen.toNat ≤ 64) :
    k.distance < k.acLen.toNat ↔ ∃ j, j < k.acLen.toNat ∧ k.sr.getLsbD j = k.pat.getLsbD j := by
  have hlen : k.acLen.toNat = (List.range k.acLen.toNat).length := List.length_range.symm
  rw [distance_eq_countP hL]
  conv_lhs => rhs; rw [hlen]
  rw [List.countP_lt_length_iff]
  simp only [List.mem_range, bne_eq_false_iff_eq]

/-- Once `L` bits have come in, the threshold alone decides (43_correlator R113). -/
theorem hit_iff_of_filled (hfill : k.acLen.toNat ≤ k.fill.toNat) : k.hit = true ↔ k.distance ≤ k.thr.toNat :=
  (hit_iff k).trans (and_iff_right hfill)

end distance

/-- Settles O23: each corner of the threshold is a bound on the distance. -/
theorem hitCriterion : Obligations.HitCriterion := by
  unfold Obligations.HitCriterion
  refine ⟨fun k hL => ?criterion, fun k b hstate => ?compared, fun k b => ?filled⟩
  case criterion =>
    intro d
    have hd : k.distance = d := distance_eq_countP hL
    refine ⟨hd, hd ▸ distance_le hL, hd ▸ hit_iff k, fun hfill hthr => ?copy, fun hfill hthr => ?complement,
      fun hfill hthr => ?everything⟩
    case copy =>
      rw [hit_iff_of_filled hfill, hthr, Nat.le_zero, distance_eq_zero_iff hL]
    case complement =>
      rw [hit_iff_of_filled hfill, ← distance_lt_iff hL, ← hthr, Nat.lt_succ_iff]
    case everything =>
      exact (hit_iff_of_filled hfill).2 ((distance_le hL).trans hthr)
  case compared =>
    rw [rxBit_search k b hstate, searchStep_rxState (k.shiftIn b) hstate]
  case filled =>
    rw [rxBit_fill, fillUp_toNat]

end Sys2Proof.Machine
end

section
/-! The hand-over of a decoded payload (44_decoder_pool R126), and what each operation can do to the owners of the
pool's buffers (R131). -/

namespace Sys2Proof.Machine

section success
variable {P : Config.Params} {s : State} {payload : List Byte} {rest : List Candidate}

theorem decodeCandidate_of_unpack {c : Candidate} (h : P.unpack c.raw c.aux = (true, payload)) :
    decodeCandidate P c = .success payload := by
  simp [decodeCandidate, h]

theorem execWith_dec_of_success {c : Candidate} (hrun : s.blk.Running) (hstop : s.blk.stop = false)
    (hcq : s.blk.cq = c :: rest) (hunpack : P.unpack c.raw c.aux = (true, payload)) :
    execWith P .dec s = .next (acquireAndPost P payload rest s) := by
  simp only [execWith, execDecWith, decRefusal_of_running _ hrun hstop, hcq, decodeCandidate_of_unpack hunpack]

/-- With a `FREE` buffer, a payload that fits is handed over to some `FREE` buffer (44_decoder_pool R126, R130). -/
theorem acquireAndPost_of_fits (hfree : ∃ h : Nat, s.blk.own h = some .free) (hlen : payload.length ≤ P.poolC) :
    ∃ h, s.blk.own h = some .free ∧
      acquireAndPost P payload rest s = s.completeDec (s.blk.handOver h payload rest) .ok [0x01] := by
  obtain ⟨hnone, -⟩ | ⟨_, _, -, hlong, -⟩ | ⟨h0, hs, hhandles, -, hpost⟩ := acquireAndPost_cases P payload rest s
  · obtain ⟨h, hh⟩ := hfree
    exact absurd hh (hnone h)
  · omega
  · exact ⟨grant P h0 hs, grant_free P s.blk h0 hs hhandles, hpost⟩

end success

/-- Settles O30: the block after the `DEC` is the hand-over to the granted buffer. -/
theorem decHandsOver : Obligations.DecHandsOver := by
  unfold Obligations.DecHandsOver
  intro P s c rest payload hP hrun hstop hcq hunpack hfree hlen
  obtain ⟨h, hh, hpost⟩ := acquireAndPost_of_fits (rest := rest) hfree hlen
  have hstride : payload.length ≤ poolStride := by
    have := hP.2.2.2
    unfold poolStride
    omega
  have hget : (s.blk.handOver h payload rest).pool[h]? = some ⟨.inflight, BitVec.ofNat 13 payload.length⟩ := by
    rw [handOver_get _ _ _ _ _ (own_lt _ _ _ hh), if_pos rfl]
  refine ⟨s.completeDec (s.blk.handOver h payload rest) .ok [0x01], h, BitVec.ofNat 13 payload.length,
    hpost ▸ execWith_dec_of_success hrun hstop hcq hunpack, hh, own_of_get _ _ _ hget, len_of_get _ _ _ hget,
    len_toNat _ _ hlen hP.2.2.2, ?others, ?written, ?unwritten, rfl, rfl, rfl⟩
  case others =>
    intro g hg
    exact (handOver_get _ _ _ _ _ (own_lt _ _ _ hh)).trans (if_neg hg.symm)
  case written => exact poolByte_handOver_inside _ _ _ _ hstride
  case unwritten => exact poolByte_handOver_outside _ _ _ _ hstride

/-! ### The owners of the buffers -/

theorem own_congr {k l : Block} (h : l.pool = k.pool) (g : Nat) : l.own g = k.own g := by
  simp only [Block.own, h]

theorem setOwn_own (k : Block) (h : Nat) (o : Ownership) (g : Nat) :
    (k.setOwn h o).own g = if h = g then (k.own g).map (fun _ => o) else k.own g := by
  unfold Block.own
  rw [setOwn_get]
  split
  · rw [Option.map_map, Option.map_map]; rfl
  · rfl

theorem handOver_own (k : Block) (h : Nat) (pl : List Byte) (r : List Candidate) (g : Nat)
    (hh : h < k.pool.length) : (k.handOver h pl r).own g = if h = g then some .inflight else k.own g := by
  unfold Block.own
  rw [handOver_get k h pl r g hh]
  split <;> rfl

/-- What an operation can do to the pool's buffers: nothing, or one of the changes of 44_decoder_pool R131. -/
inductive PoolChange (P : Config.Params) (k l : Block) : Instr → Prop where
  /-- No buffer changes. -/
  | kept {i : Instr} (hpool : l.pool = k.pool) : PoolChange P k l i
  /-- `DEC` hands a `FREE` buffer over. -/
  | handedOver (h : Nat) (payload : List Byte) (rest : List Candidate) (hfree : k.own h = some .free)
      (hpool : l.pool = (k.handOver h payload rest).pool) : PoolChange P k l .dec
  /-- `REL` returns its own buffer. -/
  | released (b : Byte) (hpool : l.pool = (k.setOwn b.toNat .free).pool) : PoolChange P k l (.rel b)
  /-- `CFG` and `RESET` take back all buffers. -/
  | cleared {i : Instr} (hi : isCfg i = true ∨ i = .reset) (hpool : l.pool = (Block.resetWith P.poolN).pool) :
      PoolChange P k l i

section poolChange
variable {P : Config.Params} {s t : State}

theorem rxBit_pool (k : Block) (b : Bool) : (k.rxBit b).pool = k.pool := by rw [rxBit_frame]

theorem rxBits_pool (bs : List Bool) (k : Block) : (k.rxBits bs).pool = k.pool := by rw [rxBits_frame]

theorem acquireAndPost_poolChange (payload : List Byte) (rest : List Candidate) :
    PoolChange P s.blk (acquireAndPost P payload rest s).blk .dec := by
  obtain ⟨-, e⟩ | ⟨_, _, -, -, e⟩ | ⟨h0, hs, hhandles, -, e⟩ := acquireAndPost_cases P payload rest s <;> rw [e]
  · exact .kept rfl
  · exact .kept rfl
  · exact .handedOver _ payload rest (grant_free P s.blk h0 hs hhandles) rfl

theorem execDecWith_poolChange (h : execDecWith P s = .next t) : PoolChange P s.blk t.blk .dec := by
  obtain ⟨_, -, rfl⟩ | ⟨-, -, -, rfl⟩ | ⟨-, -, _, _, -, -, rfl⟩ | ⟨-, -, _, rest, payload, -, -, rfl⟩ :=
    execDecWith_cases h
  · exact .kept rfl
  · exact .kept rfl
  · exact .kept rfl
  · exact acquireAndPost_poolChange payload rest

theorem execCfgWith_poolChange {wo : Bool} {ac : Option (List Byte)} {thr bps : Byte} {sps : BitVec 32}
    (h : execCfgWith P wo ac thr bps sps s = .next t) : PoolChange P s.blk t.blk (.cfg wo ac thr bps sps) := by
  obtain ⟨-, rfl⟩ | ⟨-, -, rfl⟩ | ⟨-, -, _, -, rfl⟩ | ⟨-, -, -, -, rfl⟩ := execCfgWith_cases h
  · exact .kept rfl
  · exact .kept rfl
  · exact .kept rfl
  · exact .cleared (.inl rfl) rfl

theorem execRel_poolChange {b : Byte} (h : execRel b s = .next t) : PoolChange P s.blk t.blk (.rel b) := by
  obtain ⟨_, -, rfl⟩ | ⟨-, -, rfl⟩ | ⟨-, -, rfl⟩ := execRel_cases h
  · exact .kept rfl
  · exact .kept rfl
  · exact .released b rfl

/-- Every operation makes one of these changes; all but `DEC`, `REL`, `CFG` and `RESET` make none. -/
theorem execWith_poolChange {i : Instr} (h : execWith P i s = .next t) : PoolChange P s.blk t.blk i := by
  cases i with
  | nop => cases execNop_cases h; exact .kept rfl
  | reset =>
    obtain rfl := execResetWith_cases h
    exact .cleared (.inr rfl) (by rw [endHold_blk]; rfl)
  | cfg => exact execCfgWith_poolChange h
  | cancel =>
    obtain rfl := execCancel_cases h
    exact .kept (by rw [endHold_blk]; rfl)
  | rdcsr => exact .kept (by rw [execRdcsr_blk h])
  | txev =>
    obtain ⟨_, -, rfl⟩ | ⟨-, -, rfl⟩ | ⟨-, -, -, rfl⟩ | ⟨-, -, -, rfl⟩ := execTxevWith_cases h
    · exact .kept rfl
    · exact .kept rfl
    · exact .kept rfl
    · exact .kept (by rw [State.complete_blk, Block.encodeDatagram_eq])
  | txdrain =>
    obtain ⟨_, -, rfl⟩ | ⟨-, -, rfl⟩ | ⟨-, -, rfl⟩ := execTxdrainWith_cases h <;> exact .kept rfl
  | rxbit =>
    obtain ⟨_, -, rfl⟩ | ⟨-, rfl⟩ := execRxbit_cases h
    · exact .kept rfl
    · exact .kept (rxBit_pool _ _)
  | rxbyte =>
    obtain ⟨_, -, rfl⟩ | ⟨-, rfl⟩ := execRxbyte_cases h
    · exact .kept rfl
    · exact .kept (rxBits_pool _ _)
  | dec => exact execDecWith_poolChange h
  | bufrd =>
    obtain ⟨_, _, rfl⟩ := execBufrdWith_cases h
    exact .kept rfl
  | rel => exact execRel_poolChange h

end poolChange

section transitions
variable {P : Config.Params} {k l : Block} {i : Instr} {h : Nat}

theorem PoolChange.eq_dec_of_acquired (hc : PoolChange P k l i) (hk : k.own h = some .free)
    (hl : l.own h = some .inflight) : i = .dec := by
  cases hc with
  | kept hpool => simp [own_congr hpool, hk] at hl
  | handedOver => rfl
  | released b hpool =>
    rw [own_congr hpool, setOwn_own] at hl
    split at hl <;> simp [hk] at hl
  | cleared _ hpool =>
    rw [own_congr hpool, resetWith_own] at hl
    split at hl <;> cases hl

theorem PoolChange.of_returned (hc : PoolChange P k l i) (hk : k.own h = some .inflight)
    (hl : l.own h = some .free) : (∃ b : Byte, i = .rel b ∧ b.toNat = h) ∨ isCfg i = true ∨ i = .reset := by
  cases hc with
  | kept hpool => simp [own_congr hpool, hk] at hl
  | handedOver g payload rest hfree hpool =>
    rw [own_congr hpool, handOver_own _ _ _ _ _ (own_lt _ _ _ hfree)] at hl
    split at hl <;> simp [hk] at hl
  | released b hpool =>
    rw [own_congr hpool, setOwn_own] at hl
    split at hl
    · rename_i hb
      exact .inl ⟨b, rfl, hb⟩
    · simp [hk] at hl
  | cleared hi => exact .inr hi

end transitions

/-- Settles O32, from the changes of the pool an operation can make. -/
theorem ownershipTransitions : Obligations.OwnershipTransitions := by
  unfold Obligations.OwnershipTransitions
  refine ⟨exec_eq_execWith, fun P i s t h hexec => ?_⟩
  have hc := execWith_poolChange hexec
  exact ⟨hc.eq_dec_of_acquired, hc.of_returned⟩

end Sys2Proof.Machine
end

section
/-! The decoding of a packet whose first byte has a row in the opcode table (30_encoding R63, R73), and NOP
(45_system R137). -/

namespace Sys2Proof

section row
variable {p : Port} {c0 : Byte} {r : OpRow} {args : List Byte}

theorem decode_of_row (hr : rowOf c0 = some r) (hp : r.port = p) :
    decode p (c0 :: args) = operands r.op c0 args := by
  simp only [decode, hr, if_pos hp]

theorem decode_wrongPort_of_row (hr : rowOf c0 = some r) (hp : r.port ≠ p) :
    decode p (c0 :: args) = .error .wrongPort := by
  simp only [decode, hr, if_neg hp]

end row

theorem rowOf_nop : rowOf 0x00 = some ⟨.nop, 0x00, 0xFF, .c, .z⟩ := by decide

theorem decode_nop (args : List Byte) : decode .c (0x00 :: args) = operandsZ .nop args :=
  decode_of_row rowOf_nop rfl

end Sys2Proof

namespace Sys2Proof.Machine

theorem State.complete_self (s : State) (p : Port) (st : Status) (rs : List Byte) :
    s.complete p s.blk st rs = { s with responses := s.responses ++ [⟨p, st, rs⟩] } := rfl

theorem exec_nop (s : State) : exec .nop s = .next (s.complete .c s.blk .ok []) := rfl

/-- Settles O4: NOP completes with the block it found, and its row of the opcode table gives port C and format Z. -/
theorem nopOperation : Obligations.NopOperation := by
  unfold Obligations.NopOperation
  refine ⟨fun s => ?effect, ?packet, fun p hp => ?wrongPort, fun x xs => ?wrongLength, ?answer⟩
  case effect => rw [exec_nop, State.complete_self]
  case packet => exact decode_nop []
  case wrongPort => exact decode_wrongPort_of_row rowOf_nop hp.symm
  case wrongLength => exact decode_nop (x :: xs)
  case answer => rfl

end Sys2Proof.Machine
end

section
/-! The values every element has after power-on (10_state R40, 70_reset R160). -/

namespace Sys2Proof.Machine

theorem State.resetWith_blk (n : Nat) : (State.resetWith n).blk = Block.resetWith n := rfl

theorem State.reset_eq_resetWith_params : State.reset = State.resetWith Config.params.poolN := rfl

theorem resetWith_buffer_free {n h : Nat} (hh : h < n) :
    (Block.resetWith n).own h = some .free ∧ (Block.resetWith n).len h = some 0 := by
  rw [resetWith_own, resetWith_len, if_pos hh, if_pos hh]
  exact ⟨rfl, rfl⟩

/-- Settles O1: the buffers by the pool's reset law, every other group by the record's own fields. -/
theorem resetStateValues : Obligations.ResetStateValues := by
  unfold Obligations.ResetStateValues
  refine ⟨State.reset_eq_resetWith_params, fun n => ?_⟩
  rw [State.resetWith_blk]
  refine ⟨?flags, ?configuration, ?paths, ?assembly, fun _ hh => resetWith_buffer_free hh, ?traces⟩
  case flags => exact ⟨rfl, rfl, rfl, rfl, rfl⟩
  case configuration => exact ⟨rfl, rfl, rfl, rfl, rfl, rfl⟩
  case paths => exact ⟨rfl, rfl, rfl, rfl, rfl, rfl⟩
  case assembly => exact ⟨rfl, rfl, rfl, rfl, rfl, rfl⟩
  case traces => exact ⟨rfl, rfl, rfl, rfl⟩

end Sys2Proof.Machine
end

section
/-! The encoding in both directions (30_encoding R63, R64, R73, R77): a packet against its row of the opcode table, then
its operands against their format. -/

namespace Sys2Proof

/-! ### From an operation to its packet -/

/-- Every operation's packet carries its own row of the opcode table. -/
theorem opcodeStatement (i : Instr) : Laws.Opcode.Statement i := by
  cases i with
  | nop => exact Laws.Opcode.nop
  | reset => exact Laws.Opcode.reset
  | cfg wo ac thr bps sps => exact Laws.Opcode.cfg wo ac thr bps sps
  | cancel => exact Laws.Opcode.cancel
  | rdcsr idx => exact Laws.Opcode.rdcsr idx
  | txev kind data => exact Laws.Opcode.txev kind data
  | txdrain cap => exact Laws.Opcode.txdrain cap
  | rxbit b => exact Laws.Opcode.rxbit b
  | rxbyte v => exact Laws.Opcode.rxbyte v
  | dec => exact Laws.Opcode.dec
  | bufrd h off => exact Laws.Opcode.bufrd h off
  | rel h => exact Laws.Opcode.rel h

theorem encode_ne_nil (i : Instr) : encode i ≠ [] := by
  cases i with
  | cfg wo ac thr bps sps => cases ac <;> exact List.cons_ne_nil _ _
  | _ => exact List.cons_ne_nil _ _

/-- The decoder reaches the operands of an operation's own mnemonic. -/
theorem decode_encode_eq_operands {i : Instr} (hw : i.wellFormed = true) :
    decode i.port (encode i) = operands i.mnemonic ((encode i)[0]?.getD 0) (encode i).tail := by
  obtain ⟨r, hrow, hop, hport, -⟩ := opcodeStatement i hw
  obtain ⟨c0, args, hc⟩ := List.exists_cons_of_ne_nil (encode_ne_nil i)
  rw [hc] at hrow ⊢
  rw [← hop]
  exact decode_of_row hrow hport

theorem operandsV_bytes16 (f : Byte → List Byte → Instr) (kind : Byte) {data : List Byte} (h : data.length < 65536) :
    operandsV f (kind :: (bytes16 (BitVec.ofNat 16 data.length) ++ data)) = .ok (f kind data) := by
  have hlen : data.length = (BitVec.ofNat 16 data.length).toNat := by
    rw [BitVec.toNat_ofNat, Nat.mod_eq_of_lt h]
  simp only [bytes16, List.cons_append, List.nil_append, operandsV, be16_bytes16]
  rw [if_pos hlen]

theorem cfgFlags_fields (wo acp : Bool) :
    (cfgFlags wo acp).extractLsb' 2 6 = 0 ∧ (cfgFlags wo acp).getLsbD 1 = acp ∧ (cfgFlags wo acp).getLsbD 0 = wo := by
  revert wo acp
  decide

theorem operandsK_without_code (wo : Bool) (thr bps : Byte) (sps : BitVec 32) :
    operandsK ([cfgFlags wo false, thr, bps] ++ bytes32 sps ++ [0x00]) = .ok (.cfg wo none thr bps sps) := by
  obtain ⟨hres, hacp, hwo⟩ := cfgFlags_fields wo false
  simp only [bytes32, List.cons_append, List.nil_append, operandsK, be32_bytes32, hres, hacp, hwo]
  rfl

theorem operandsK_with_code (wo : Bool) {ac : List Byte} (thr bps : Byte) (sps : BitVec 32) (h : ac.length < 256) :
    operandsK ([cfgFlags wo true, thr, bps] ++ bytes32 sps ++ (BitVec.ofNat 8 ac.length :: ac)) =
      .ok (.cfg wo (some ac) thr bps sps) := by
  obtain ⟨hres, hacp, hwo⟩ := cfgFlags_fields wo true
  have hlen : ac.length = (BitVec.ofNat 8 ac.length).toNat := by
    rw [BitVec.toNat_ofNat, Nat.mod_eq_of_lt h]
  simp only [bytes32, List.cons_append, List.nil_append, operandsK, be32_bytes32, hres, hacp, hwo]
  rw [if_neg (not_not.2 hlen), if_neg (not_not.2 rfl)]
  exact if_pos trivial

/-- The formats read back the operands that the encoder wrote. -/
theorem operands_encode {i : Instr} (hw : i.wellFormed = true) :
    operands i.mnemonic ((encode i)[0]?.getD 0) (encode i).tail = .ok i := by
  cases i with
  | cfg wo ac thr bps sps =>
    cases ac with
    | none => exact operandsK_without_code wo thr bps sps
    | some ac => exact operandsK_with_code wo thr bps sps (of_decide_eq_true hw)
  | txev kind data => exact operandsV_bytes16 .txev kind (of_decide_eq_true hw)
  | txdrain cap => exact congrArg (fun v => Except.ok (Instr.txdrain v)) (be16_bytes16 cap)
  | bufrd h off => exact congrArg (fun v => Except.ok (Instr.bufrd h v)) (be16_bytes16 off)
  | rxbit b => cases b <;> rfl
  | _ => rfl

/-- Settles O52: an operation's packet has the operation's own row, and the row's format reads its operands back. -/
theorem decodeEncode : Obligations.DecodeEncode := by
  unfold Obligations.DecodeEncode
  intro i hw
  rw [decode_encode_eq_operands hw, operands_encode hw]

/-! ### From a packet to its operation -/

/-- The first byte of a mnemonic's packets; `RXBIT` has its bit in place of bit 0. -/
def Mnemonic.opcode : Mnemonic → Byte
  | .nop => 0x00
  | .reset => 0x01
  | .cfg => 0x02
  | .cancel => 0x03
  | .rdcsr => 0x04
  | .txev => 0x10
  | .txdrain => 0x11
  | .rxbit => 0x20
  | .rxbyte => 0x22
  | .dec => 0x30
  | .bufrd => 0x31
  | .rel => 0x32

theorem opTable_value : ∀ r ∈ opTable, r.value = r.op.opcode := by decide

/-- A byte that opens the packets of a mnemonic. -/
def Mnemonic.Opens (op : Mnemonic) (c0 : Byte) : Prop :=
  if op = .rxbit then c0 = (if c0.getLsbD 0 then 0x21 else 0x20) else c0 = op.opcode

theorem opens_of_row {c0 : Byte} {r : OpRow} (h : rowOf c0 = some r) : r.port = r.op.port ∧ r.op.Opens c0 := by
  obtain ⟨hport, hmem, hval⟩ := row_of_opcode c0 r h
  rw [opTable_value r hmem] at hval
  exact ⟨hport, hval⟩

theorem decode_ok {p : Port} {c : Packet} {i : Instr} (h : decode p c = .ok i) :
    ∃ c0 args r, c = c0 :: args ∧ rowOf c0 = some r ∧ r.port = p ∧ operands r.op c0 args = .ok i := by
  unfold decode at h
  split at h
  · cases h
  split at h
  · cases h
  rename_i r hrow
  split at h
  · rename_i hp; exact ⟨_, _, r, rfl, hrow, hp, h⟩
  · cases h

theorem operandsZ_ok {j i : Instr} {args : List Byte} (h : operandsZ j args = .ok i) : args = [] ∧ i = j := by
  unfold operandsZ at h
  split at h <;> cases h
  exact ⟨rfl, rfl⟩

theorem operandsA_ok {f : Byte → Instr} {i : Instr} {args : List Byte} (h : operandsA f args = .ok i) :
    ∃ x, args = [x] ∧ i = f x := by
  unfold operandsA at h
  split at h <;> cases h
  exact ⟨_, rfl, rfl⟩

theorem operandsW_ok {f : BitVec 16 → Instr} {i : Instr} {args : List Byte} (h : operandsW f args = .ok i) :
    ∃ v, args = bytes16 v ∧ i = f v := by
  unfold operandsW at h
  split at h <;> cases h
  exact ⟨_, (bytes16_be16 _ _).symm, rfl⟩

theorem operandsH_ok {f : Byte → BitVec 16 → Instr} {i : Instr} {args : List Byte} (h : operandsH f args = .ok i) :
    ∃ x v, args = x :: bytes16 v ∧ i = f x v := by
  unfold operandsH at h
  split at h <;> cases h
  exact ⟨_, _, congrArg _ (bytes16_be16 _ _).symm, rfl⟩

theorem operandsV_ok {f : Byte → List Byte → Instr} {i : Instr} {args : List Byte} (h : operandsV f args = .ok i) :
    ∃ kind data, data.length < 65536 ∧ args = kind :: (bytes16 (BitVec.ofNat 16 data.length) ++ data) ∧
      i = f kind data := by
  unfold operandsV at h
  split at h
  · rename_i kind hi lo data
    split at h <;> cases h
    rename_i hlen
    refine ⟨kind, data, hlen ▸ (be16 hi lo).isLt, ?_, rfl⟩
    rw [hlen, BitVec.ofNat_toNat, BitVec.setWidth_eq, bytes16_be16]
    rfl
  · cases h

theorem operandsK_ok {i : Instr} {args : List Byte} (h : operandsK args = .ok i) :
    (∃ wo thr bps sps, args = [cfgFlags wo false, thr, bps] ++ bytes32 sps ++ [0x00] ∧
      i = .cfg wo none thr bps sps) ∨
    (∃ wo ac thr bps sps, ac.length < 256 ∧
      args = [cfgFlags wo true, thr, bps] ++ bytes32 sps ++ (BitVec.ofNat 8 ac.length :: ac) ∧
      i = .cfg wo (some ac) thr bps sps) := by
  unfold operandsK at h
  split at h
  case h_2 => cases h
  case h_1 fl thr bps s3 s2 s1 s0 alen ac =>
    split at h
    · cases h
    rename_i hlen
    have hlen : ac.length = alen.toNat := not_not.1 hlen
    split at h
    · cases h
    rename_i hres
    have hfl := cfgFlags_eq fl (not_not.1 hres)
    split at h
    · rename_i hacp
      cases h
      refine .inr ⟨fl.getLsbD 0, ac, thr, bps, be32 s3 s2 s1 s0, hlen ▸ alen.isLt, ?_, rfl⟩
      rw [← hacp, ← hfl, bytes32_be32, hlen, BitVec.ofNat_toNat, BitVec.setWidth_eq]
      rfl
    rename_i hacp
    have hacp : fl.getLsbD 1 = false := Bool.eq_false_iff.2 hacp
    split at h
    · cases h
    rename_i halen
    obtain rfl : alen = 0 := not_not.1 halen
    obtain rfl : ac = [] := List.eq_nil_of_length_eq_zero hlen
    cases h
    refine .inl ⟨fl.getLsbD 0, thr, bps, be32 s3 s2 s1 s0, ?_, rfl⟩
    rw [← hacp, ← hfl, bytes32_be32]
    rfl

/-- What a format accepts is what the encoder writes, byte for byte. -/
theorem operands_sound {op : Mnemonic} {c0 : Byte} {args : List Byte} {i : Instr} (hc : op.Opens c0)
    (h : operands op c0 args = .ok i) : i.wellFormed = true ∧ i.mnemonic = op ∧ encode i = c0 :: args := by
  cases op with
  | nop | reset | cancel | dec =>
    obtain ⟨rfl, rfl⟩ := operandsZ_ok h
    exact ⟨rfl, rfl, congrArg (fun c => [c]) (Eq.symm hc)⟩
  | rdcsr | rxbyte | rel =>
    obtain ⟨x, rfl, rfl⟩ := operandsA_ok h
    exact ⟨rfl, rfl, congrArg (fun c => [c, x]) (Eq.symm hc)⟩
  | rxbit =>
    obtain ⟨rfl, rfl⟩ := operandsZ_ok h
    exact ⟨rfl, rfl, congrArg (fun c => [c]) (Eq.symm hc)⟩
  | txdrain =>
    obtain ⟨v, rfl, rfl⟩ := operandsW_ok h
    exact ⟨rfl, rfl, congrArg (fun c => c :: bytes16 v) (Eq.symm hc)⟩
  | bufrd =>
    obtain ⟨x, v, rfl, rfl⟩ := operandsH_ok h
    exact ⟨rfl, rfl, congrArg (fun c => c :: x :: bytes16 v) (Eq.symm hc)⟩
  | txev =>
    obtain ⟨kind, data, hlen, rfl, rfl⟩ := operandsV_ok h
    exact ⟨decide_eq_true hlen, rfl, congrArg (fun c => c :: _) (Eq.symm hc)⟩
  | cfg =>
    obtain ⟨wo, thr, bps, sps, rfl, rfl⟩ | ⟨wo, ac, thr, bps, sps, hlen, rfl, rfl⟩ := operandsK_ok h
    · exact ⟨rfl, rfl, congrArg (fun c => c :: _) (Eq.symm hc)⟩
    · exact ⟨decide_eq_true hlen, rfl, congrArg (fun c => c :: _) (Eq.symm hc)⟩

/-- Settles O53: the first byte fixes the row and so the port, the format fixes every other byte. -/
theorem encodeDecode : Obligations.EncodeDecode := by
  unfold Obligations.EncodeDecode
  intro p c i h
  obtain ⟨c0, args, r, rfl, hrow, rfl, hops⟩ := decode_ok h
  obtain ⟨hport, hopens⟩ := opens_of_row hrow
  obtain ⟨hw, hmn, henc⟩ := operands_sound hopens hops
  exact ⟨hw, by rw [hport, ← hmn]; rfl, henc⟩

end Sys2Proof
end

section
/-! What an operation can do, said once: the block it leaves, with the status it answers, and what becomes of the state
around the block. -/

namespace Sys2Proof.Machine

/-- What an operation that answers `st` can do to the block. -/
inductive BlockChange (P : Config.Params) (k : Block) : Instr → Status → Block → Prop where
  /-- Nothing; every refusal is of this kind, but for the `DEC` that raises `FAULT`. -/
  | kept {i : Instr} {st : Status} : BlockChange P k i st k
  /-- `RESET` (45_system R138). -/
  | reset : BlockChange P k .reset .ok (Block.resetWith P.poolN)
  /-- `CFG` with an invalid access code (40_config R86). -/
  | configError {wo : Bool} {ac : Option (List Byte)} {thr bps : Byte} {sps : BitVec 32} {cause : BitVec 2}
      (hfault : k.fault = false) (hready : k.ready = false)
      (hcause : accessCodeCause (accessCodeOf P ac) = some cause) :
      BlockChange P k (.cfg wo ac thr bps sps) .cfgErr (k.flagConfigError cause)
  /-- `CFG` that constructs the component (40_config R86). -/
  | constructed {wo : Bool} {ac : Option (List Byte)} {thr bps : Byte} {sps : BitVec 32}
      (hfault : k.fault = false) (hready : k.ready = false)
      (hcause : accessCodeCause (accessCodeOf P ac) = none) :
      BlockChange P k (.cfg wo ac thr bps sps) .ok (k.construct P.poolN (accessCodeOf P ac) wo thr bps sps)
  /-- `CANCEL` (45_system R139). -/
  | stopped : BlockChange P k .cancel .ok k.flagStop
  /-- `TXEV` of a datagram that fits (41_encoder R96). -/
  | encoded {data : List Byte} (hrun : k.Running) (hfits : (bodyOf P k data k.wOff).length ≤ Config.bodyMax) :
      BlockChange P k (.txev 0x01 data) .ok (k.encodeDatagram P data)
  /-- `TXDRAIN` of an empty queue (42_output_queue R103). -/
  | idled {cap : BitVec 16} (hrun : k.Running) (hempty : k.pq = []) :
      BlockChange P k (.txdrain cap) .idle (k.sleepIdle P)
  /-- `TXDRAIN` of some bytes (42_output_queue R104). -/
  | drained {cap : BitVec 16} (hrun : k.Running) (hne : k.pq ≠ []) :
      BlockChange P k (.txdrain cap) .ok (k.drain (k.drainCount cap))
  /-- `RXBIT` and `RXBYTE` (43_correlator R112, R117). -/
  | received {i : Instr} {bs : List Bool} (hport : i.port = .r) (hrun : k.Running) : BlockChange P k i .ok (k.rxBits bs)
  /-- `DEC` of a candidate whose unpack fails (44_decoder_pool R125). -/
  | failed {c : Candidate} {rest : List Candidate} (hrun : k.Running) (hcq : k.cq = c :: rest)
      (hfails : decodeCandidate P c = .failure) : BlockChange P k .dec .ok (k.postFail rest)
  /-- `DEC` with no free buffer (44_decoder_pool R127). -/
  | backedOff (hrun : k.Running) (hnone : ∀ h : Nat, k.own h ≠ some .free) :
      BlockChange P k .dec .backoff (k.sleepBackoff P)
  /-- `DEC` of a payload over `POOL_C` (44_decoder_pool R129). -/
  | overflowed (hrun : k.Running) : BlockChange P k .dec .faulted k.flagFault
  /-- `DEC` that hands a payload over to the buffer the arbiter grants (44_decoder_pool R126). -/
  | handedOver {c : Candidate} {rest : List Candidate} {h0 : Nat} {hs : List Nat} {payload : List Byte}
      (hrun : k.Running) (hcq : k.cq = c :: rest) (hpayload : (P.unpack c.raw c.aux).2 = payload)
      (hfree : k.freeHandles = h0 :: hs) (hfits : payload.length ≤ P.poolC) :
      BlockChange P k .dec .ok (k.handOver (grant P h0 hs) payload rest)
  /-- `REL` (44_decoder_pool R133). -/
  | released {b : Byte} (hrun : k.Running) (hown : k.own b.toNat = some .inflight) :
      BlockChange P k (.rel b) .ok (k.setOwn b.toNat .free)

/-- The state in which an operation ends that leaves the block `k` and answers `st` with `rs`: `DEC` is held no more,
`RESET` and `CANCEL` may end the hold of another (log 6). -/
def State.finish (s : State) (i : Instr) (k : Block) (st : Status) (rs : List Byte) : State :=
  match i with
  | .dec => s.completeDec k st rs
  | .reset => (s.complete .c k st rs).endHold
  | .cancel => (s.complete .c k st rs).endHold
  | i => s.complete i.port k st rs

section finish
variable (s : State) (i : Instr) (k : Block) (st : Status) (rs : List Byte)

/-- `finish` is `complete`, `complete` and then `endHold`, or `completeDec`. -/
theorem State.finish_cases :
    (i = .dec ∧ s.finish i k st rs = s.completeDec k st rs) ∨
    ((i = .reset ∨ i = .cancel) ∧ s.finish i k st rs = (s.complete .c k st rs).endHold) ∨
    (i ≠ .dec ∧ i ≠ .reset ∧ i ≠ .cancel ∧ s.finish i k st rs = s.complete i.port k st rs) := by
  cases i <;> simp [State.finish]

@[simp] theorem State.finish_blk : (s.finish i k st rs).blk = k := by
  obtain ⟨-, e⟩ | ⟨-, e⟩ | ⟨-, -, -, e⟩ := s.finish_cases i k st rs <;> simp [e]

@[simp] theorem State.finish_rxPend : (s.finish i k st rs).rxPend = s.rxPend := by
  obtain ⟨-, e⟩ | ⟨-, e⟩ | ⟨-, -, -, e⟩ := s.finish_cases i k st rs <;> simp [e]

end finish

section inversion
variable {P : Config.Params} {s t : State}

/-- An operation ends, with one of the changes of the block, or it is a `DEC` that is held (20_memory R55). -/
def Ends (P : Config.Params) (i : Instr) (s t : State) : Prop :=
  ∃ k st rs, BlockChange P s.blk i st k ∧ t = s.finish i k st rs

theorem execCfgWith_ends {wo : Bool} {ac : Option (List Byte)} {thr bps : Byte} {sps : BitVec 32}
    (h : execCfgWith P wo ac thr bps sps s = .next t) : Ends P (.cfg wo ac thr bps sps) s t := by
  obtain ⟨-, rfl⟩ | ⟨-, -, rfl⟩ | ⟨hf, hr, cause, hc, rfl⟩ | ⟨hf, hr, hc, -, rfl⟩ := execCfgWith_cases h
  · exact ⟨_, _, _, .kept, rfl⟩
  · exact ⟨_, _, _, .kept, rfl⟩
  · exact ⟨_, _, _, .configError hf hr hc, rfl⟩
  · exact ⟨_, _, _, .constructed hf hr hc, rfl⟩

theorem execTxevWith_ends {kind : Byte} {data : List Byte} (h : execTxevWith P kind data s = .next t) :
    Ends P (.txev kind data) s t := by
  obtain ⟨_, -, rfl⟩ | ⟨-, -, rfl⟩ | ⟨-, -, -, rfl⟩ | ⟨hrun, rfl, hfits, rfl⟩ := execTxevWith_cases h
  · exact ⟨_, _, _, .kept, rfl⟩
  · exact ⟨_, _, _, .kept, rfl⟩
  · exact ⟨_, _, _, .kept, rfl⟩
  · exact ⟨_, _, _, .encoded hrun hfits, rfl⟩

theorem execTxdrainWith_ends {cap : BitVec 16} (h : execTxdrainWith P cap s = .next t) : Ends P (.txdrain cap) s t := by
  obtain ⟨_, -, rfl⟩ | ⟨hrun, hempty, rfl⟩ | ⟨hrun, hne, rfl⟩ := execTxdrainWith_cases h
  · exact ⟨_, _, _, .kept, rfl⟩
  · exact ⟨_, _, _, .idled hrun hempty, rfl⟩
  · exact ⟨_, _, _, .drained hrun hne, rfl⟩

theorem execRxbit_ends {b : Bool} (h : execRxbit b s = .next t) : Ends P (.rxbit b) s t := by
  obtain ⟨_, -, rfl⟩ | ⟨hrun, rfl⟩ := execRxbit_cases h
  · exact ⟨_, _, _, .kept, rfl⟩
  · exact ⟨_, _, _, .received (bs := [b]) rfl hrun, rfl⟩

theorem execRxbyte_ends {v : Byte} (h : execRxbyte v s = .next t) : Ends P (.rxbyte v) s t := by
  obtain ⟨_, -, rfl⟩ | ⟨hrun, rfl⟩ := execRxbyte_cases h
  · exact ⟨_, _, _, .kept, rfl⟩
  · exact ⟨_, _, _, .received rfl hrun, rfl⟩

theorem unpack_of_decodeCandidate {c : Candidate} {payload : List Byte} (h : decodeCandidate P c = .success payload) :
    (P.unpack c.raw c.aux).2 = payload := by
  obtain ⟨-, hd⟩ | ⟨-, hd⟩ := decodeCandidate_cases P c <;> rw [hd] at h <;> cases h
  rfl

theorem execDecWith_ends (h : execDecWith P s = .next t) :
    (s.blk.Running ∧ s.blk.stop = false ∧ s.blk.cq = [] ∧ t = { s with decHeld := true }) ∨ Ends P .dec s t := by
  obtain ⟨_, -, rfl⟩ | held | ⟨hrun, -, c, rest, hcq, hfails, rfl⟩ | ⟨hrun, -, c, rest, payload, hcq, hd, rfl⟩ :=
    execDecWith_cases h
  · exact .inr ⟨_, _, _, .kept, rfl⟩
  · exact .inl held
  · exact .inr ⟨_, _, _, .failed hrun hcq hfails, rfl⟩
  obtain ⟨hnone, e⟩ | ⟨_, _, -, -, e⟩ | ⟨h0, hs, hfree, hfits, e⟩ := acquireAndPost_cases P payload rest s <;> rw [e]
  · exact .inr ⟨_, _, _, .backedOff hrun hnone, rfl⟩
  · exact .inr ⟨_, _, _, .overflowed hrun, rfl⟩
  · exact .inr ⟨_, _, _, .handedOver hrun hcq (unpack_of_decodeCandidate hd) hfree hfits, rfl⟩

theorem execRel_ends {b : Byte} (h : execRel b s = .next t) : Ends P (.rel b) s t := by
  obtain ⟨_, -, rfl⟩ | ⟨-, -, rfl⟩ | ⟨hrun, hown, rfl⟩ := execRel_cases h
  · exact ⟨_, _, _, .kept, rfl⟩
  · exact ⟨_, _, _, .kept, rfl⟩
  · exact ⟨_, _, _, .released hrun hown, rfl⟩

theorem execRdcsr_ends {idx : Byte} (h : execRdcsr idx s = .next t) : Ends P (.rdcsr idx) s t := by
  obtain ⟨_, -, rfl⟩ | ⟨-, rfl⟩ := execRdcsr_cases h
  · exact ⟨_, _, _, .kept, rfl⟩
  · exact ⟨_, _, _, .kept, rfl⟩

/-- Everything an operation can do: a `DEC` is held, or the operation ends. -/
theorem execWith_cases {i : Instr} (h : execWith P i s = .next t) :
    (i = .dec ∧ s.blk.Running ∧ s.blk.stop = false ∧ s.blk.cq = [] ∧ t = { s with decHeld := true }) ∨
    Ends P i s t := by
  cases i with
  | nop => obtain rfl := execNop_cases h; exact .inr ⟨_, _, _, .kept, rfl⟩
  | reset => obtain rfl := execResetWith_cases h; exact .inr ⟨_, _, _, .reset, rfl⟩
  | cfg wo ac thr bps sps => exact .inr (execCfgWith_ends h)
  | cancel => obtain rfl := execCancel_cases h; exact .inr ⟨_, _, _, .stopped, rfl⟩
  | rdcsr idx => exact .inr (execRdcsr_ends h)
  | txev kind data => exact .inr (execTxevWith_ends h)
  | txdrain cap => exact .inr (execTxdrainWith_ends h)
  | rxbit b => exact .inr (execRxbit_ends h)
  | rxbyte v => exact .inr (execRxbyte_ends h)
  | dec => exact (execDecWith_ends h).imp_left fun held => ⟨rfl, held⟩
  | bufrd hb off => obtain ⟨_, _, rfl⟩ := execBufrdWith_cases h; exact .inr ⟨_, _, _, .kept, rfl⟩
  | rel b => exact .inr (execRel_ends h)

/-- The change of the block, held or ended. -/
theorem execWith_blockChange {i : Instr} (h : execWith P i s = .next t) : ∃ st, BlockChange P s.blk i st t.blk := by
  obtain ⟨-, -, -, -, rfl⟩ | ⟨k, st, rs, hc, rfl⟩ := execWith_cases h
  · exact ⟨.ok, .kept⟩
  · exact ⟨st, by rwa [State.finish_blk]⟩

theorem exec_blockChange {i : Instr} (h : exec i s = .next t) :
    ∃ st, BlockChange Config.params s.blk i st t.blk :=
  execWith_blockChange (exec_eq_execWith i s ▸ h)

end inversion

/-! ### What all changes but those of `CFG` and `RESET` keep -/

/-- Two blocks with the same lifecycle and configuration registers, but for `STOP` and `FAULT`. -/
structure SameConfig (k l : Block) : Prop where
  ready : l.ready = k.ready
  cfgErr : l.cfgErr = k.cfgErr
  cfgCause : l.cfgCause = k.cfgCause
  acLen : l.acLen = k.acLen
  pat : l.pat = k.pat
  thr : l.thr = k.thr
  wen : l.wen = k.wen
  sps : l.sps = k.sps
  bps : l.bps = k.bps

theorem rxBits_sameConfig (k : Block) (bs : List Bool) : SameConfig k (k.rxBits bs) := by
  rw [rxBits_frame]
  exact ⟨rfl, rfl, rfl, rfl, rfl, rfl, rfl, rfl, rfl⟩

theorem encodeDatagram_sameConfig (P : Config.Params) (k : Block) (data : List Byte) :
    SameConfig k (k.encodeDatagram P data) := by
  rw [Block.encodeDatagram_eq]
  exact ⟨rfl, rfl, rfl, rfl, rfl, rfl, rfl, rfl, rfl⟩

/-- Only `RESET`, and a `CFG` of an unconfigured block, change these registers (20_memory R60). -/
theorem BlockChange.sameConfig {P : Config.Params} {k l : Block} {i : Instr} {st : Status}
    (hc : BlockChange P k i st l) (hi : i ≠ .reset) (hcfg : isCfg i = false ∨ k.ready = true) : SameConfig k l := by
  cases hc with
  | reset => exact absurd rfl hi
  | configError _ hready | constructed _ hready =>
    exact absurd (hcfg.resolve_left nofun) (Bool.eq_false_iff.1 hready)
  | encoded => exact encodeDatagram_sameConfig P k _
  | received => exact rxBits_sameConfig k _
  | kept | stopped | idled | drained | failed | backedOff | overflowed | handedOver | released =>
    exact ⟨rfl, rfl, rfl, rfl, rfl, rfl, rfl, rfl, rfl⟩

end Sys2Proof.Machine
end

section
/-! The invariants of 10_state R39: at reset, and over every step. -/

namespace Sys2Proof.Machine

/-! ### The lifecycle (10_state R39 (a), (b), (c), (g); R18) -/

/-- A change of a ready block that leaves its configuration keeps the lifecycle invariant. -/
theorem lifecycleOk_of_sameConfig {k l : Block} (hk : k.LifecycleOk) (hready : k.ready = true) (hc : SameConfig k l)
    (hwhite : l.wen = false → l.wOff = 0) : l.LifecycleOk := by
  have hlready : l.ready = true := hc.ready.trans hready
  refine ⟨fun hr => absurd (hr.symm.trans hlready) Bool.false_ne_true, ?pattern, hwhite, fun _ => hlready, ?flag,
    ?cause⟩
  case pattern =>
    unfold Block.PatternOk
    rw [hc.ready, hc.acLen, hc.pat]
    exact hk.pattern
  case flag => rw [hc.ready, hc.cfgErr]; exact hk.errorFlag
  case cause => rw [hc.cfgErr, hc.cfgCause]; exact hk.errorCause

theorem rxBits_lifecycle {k : Block} (bs : List Bool) (hk : k.LifecycleOk) (hready : k.ready = true) :
    (k.rxBits bs).LifecycleOk :=
  lifecycleOk_of_sameConfig hk hready (rxBits_sameConfig k bs) (by rw [rxBits_frame]; exact hk.whitener)

theorem encodeDatagram_whitener {P : Config.Params} {k : Block} (data : List Byte)
    (hwhite : k.wen = false → k.wOff = 0) :
    (k.encodeDatagram P data).wen = false → (k.encodeDatagram P data).wOff = 0 := by
  rw [Block.encodeDatagram_eq]
  intro hwen
  have hwen : k.wen = false := hwen
  simp only [hwen, Bool.false_eq_true, if_false]
  exact hwhite hwen

theorem flagStop_lifecycle {k : Block} (hk : k.LifecycleOk) : k.flagStop.LifecycleOk :=
  ⟨fun hr => congrArg Block.flagStop (hk.unconfigured hr), hk.pattern, hk.whitener, hk.faulted, hk.errorFlag,
    hk.errorCause⟩

theorem flagConfigError_lifecycle {k : Block} {cause : BitVec 2} (hk : k.LifecycleOk) (hready : k.ready = false)
    (hcause : cause ≠ 0) : (k.flagConfigError cause).LifecycleOk :=
  ⟨fun hr => congrArg (Block.flagConfigError · cause) (hk.unconfigured hr), hk.pattern, hk.whitener, hk.faulted,
    fun _ => hready, ⟨nofun, fun h => absurd h hcause⟩⟩

theorem accessCode_length {str : List Byte} (h : accessCodeCause str = none) : 1 ≤ str.length ∧ str.length ≤ 64 := by
  unfold accessCodeCause at h
  split at h
  · cases h
  rename_i hmin
  split at h
  · cases h
  rename_i hmax
  exact ⟨Nat.le_of_not_lt hmin, Nat.le_of_not_lt hmax⟩

theorem construct_lifecycle {k : Block} {n : Nat} {str : List Byte} {wo : Bool} {thr bps : Byte} {sps : BitVec 32}
    (h : accessCodeCause str = none) : (k.construct n str wo thr bps sps).LifecycleOk := by
  obtain ⟨hmin, hmax⟩ := accessCode_length h
  refine ⟨nofun, fun _ => ?pattern, fun _ => rfl, nofun,
    nofun, ⟨fun _ => rfl, fun _ => rfl⟩⟩
  case pattern =>
    rw [Block.construct_pat, k.construct_acLen_toNat n str wo thr bps sps hmax]
    exact ⟨hmin, hmax, patternOf_lt str⟩

theorem resetWith_lifecycle (n : Nat) : (Block.resetWith n).LifecycleOk := by
  refine ⟨fun _ => ?unconfigured, nofun, fun _ => rfl, nofun,
    fun _ => rfl, ⟨fun _ => rfl, fun _ => rfl⟩⟩
  case unconfigured =>
    rw [resetWith_pool, List.length_replicate]

theorem BlockChange.lifecycle {P : Config.Params} {k l : Block} {i : Instr} {st : Status}
    (hc : BlockChange P k i st l) (hk : k.LifecycleOk) : l.LifecycleOk := by
  cases hc with
  | kept => exact hk
  | reset => exact resetWith_lifecycle P.poolN
  | configError _ hready hcause => exact flagConfigError_lifecycle hk hready (accessCodeCause_ne _ _ hcause)
  | constructed _ _ hcause => exact construct_lifecycle hcause
  | stopped => exact flagStop_lifecycle hk
  | encoded hrun =>
    exact lifecycleOk_of_sameConfig hk hrun.2 (encodeDatagram_sameConfig P k _)
      (encodeDatagram_whitener _ hk.whitener)
  | received _ hrun => exact rxBits_lifecycle _ hk hrun.2
  | idled hrun | drained hrun | failed hrun | backedOff hrun | overflowed hrun | handedOver hrun | released hrun =>
    exact lifecycleOk_of_sameConfig hk hrun.2 ⟨rfl, rfl, rfl, rfl, rfl, rfl, rfl, rfl, rfl⟩ hk.whitener

/-- Settles O56: every change of the block, and every bit received by a ready block, keeps the invariant. -/
theorem lifecycleKept : Obligations.LifecycleKept := by
  unfold Obligations.LifecycleKept
  intro s t hs hstep
  refine step_keeps Block.LifecycleOk (fun i s t hk hexec => ?operation) (fun k b hk hr => ?bit) hs hstep
  case operation =>
    obtain ⟨_, hc⟩ := exec_blockChange hexec
    exact hc.lifecycle hk
  case bit => exact rxBits_lifecycle [b] hk hr

/-! ### The assembler (10_state R39 (d)) -/

theorem rxBits_assembler (bs : List Bool) {k : Block} (hk : k.AssemblerOk) : (k.rxBits bs).AssemblerOk := by
  induction bs generalizing k with
  | nil => exact hk
  | cons b bs ih => exact ih (rxBit_assembler k b hk)

/-- An assembler that searches and has received nothing is well formed. -/
theorem assemblerOk_of_reset {k : Block} (hstate : k.rxState = .search) (hcnt : k.rxCnt = 0) (hfill : k.fill = 0)
    (hraw : k.raw = []) (hcq : k.cq = []) : k.AssemblerOk := by
  refine ⟨⟨fun _ => hcnt, fun _ => hstate⟩, ?_, ?_, ?_, ?_, ?_⟩ <;> simp [hstate, hfill, hraw, hcq]

theorem BlockChange.assembler {P : Config.Params} {k l : Block} {i : Instr} {st : Status}
    (hc : BlockChange P k i st l) (hk : k.AssemblerOk) : l.AssemblerOk := by
  cases hc with
  | kept => exact hk
  | reset | constructed => exact assemblerOk_of_reset rfl rfl rfl rfl rfl
  | received => exact rxBits_assembler _ hk
  | encoded =>
    rw [Block.encodeDatagram_eq]
    exact assembler_cq hk rfl rfl rfl rfl rfl fun _ h => h
  | failed _ hcq | handedOver _ hcq =>
    exact assembler_cq hk rfl rfl rfl rfl rfl fun _ h => hcq ▸ List.mem_cons_of_mem _ h
  | configError | stopped | idled | drained | backedOff | overflowed | released =>
    exact assembler_cq hk rfl rfl rfl rfl rfl fun _ h => h

/-- Settles O57: every change of the block, and every received bit, keeps the invariant. -/
theorem assemblerKept : Obligations.AssemblerKept := by
  unfold Obligations.AssemblerKept
  intro s t hs hstep
  refine step_keeps Block.AssemblerOk (fun i s t hk hexec => ?operation) (fun k b hk _ => ?bit) hs hstep
  case operation =>
    obtain ⟨_, hc⟩ := exec_blockChange hexec
    exact hc.assembler hk
  case bit => exact rxBit_assembler k b hk

/-! ### The pool (10_state R39 (e), 20_memory R43) -/

theorem params_sizesFit : Config.params.SizesFit := by
  show 0 < Config.poolN ∧ Config.poolN ≤ 64 ∧ 0 < Config.poolC ∧ Config.poolC < 2 ^ 13
  decide

/-- The buffers after reset: `FREE` and empty, so that no byte and no event is asked for. -/
theorem poolOk_of_reset {P : Config.Params} {k : Block} {n : Nat} (hpool : k.pool = (Block.resetWith n).pool) :
    k.PoolOk P := by
  have empty : ∀ (h : Nat) (b : Buf), k.pool[h]? = some b → b = ⟨.free, 0⟩ := fun h b hb =>
    resetWith_pool_get n h b (hpool ▸ hb)
  refine ⟨fun h b hb => ?_, fun h b hb ho => ?_, fun h b hb ho => ?_⟩ <;> obtain rfl := empty h b hb
  · exact Nat.zero_le _
  · cases ho
  · cases ho

/-- A buffer that returns to the pool takes its claims with it. -/
theorem poolOk_setOwn_free {P : Config.Params} {k : Block} (h : Nat) (hk : k.PoolOk P) :
    (k.setOwn h .free).PoolOk P := by
  have before : ∀ (g : Nat) (b : Buf), (k.setOwn h .free).pool[g]? = some b →
      ∃ b', k.pool[g]? = some b' ∧ b'.len = b.len ∧ (b.own = .inflight → b' = b) := by
    intro g b hb
    rw [setOwn_get] at hb
    split at hb
    · obtain ⟨b', hb', rfl⟩ := Option.map_eq_some_iff.1 hb
      exact ⟨b', hb', rfl, fun ho => by cases ho⟩
    · exact ⟨b, hb, rfl, fun _ => rfl⟩
  refine ⟨fun g b hb => ?_, fun g b hb ho => ?_, fun g b hb ho => ?_⟩ <;> obtain ⟨b', hb', hlen, hsame⟩ := before g b hb
  · exact hlen ▸ hk.bounded g b' hb'
  · obtain rfl := hsame ho; exact hk.announced g b' hb' ho
  · obtain rfl := hsame ho; exact hk.written g b' hb' ho

theorem rxBits_poolOk {P : Config.Params} {k : Block} (bs : List Bool) (hk : k.PoolOk P) : (k.rxBits bs).PoolOk P := by
  rw [rxBits_frame]
  exact poolOk_congr hk rfl rfl rfl

/-- A `Fail` event says nothing of any buffer. -/
theorem postFail_poolOk {P : Config.Params} {k : Block} (rest : List Candidate) (hk : k.PoolOk P) :
    (k.postFail rest).PoolOk P :=
  ⟨hk.bounded, fun h b hb ho => (lastDatagram_append_fail h k.evOut).trans (hk.announced h b hb ho), hk.written⟩

theorem BlockChange.pool {P : Config.Params} {k l : Block} {i : Instr} {st : Status} (hP : P.SizesFit)
    (hc : BlockChange P k i st l) (hk : k.PoolOk P) : l.PoolOk P := by
  cases hc with
  | kept => exact hk
  | reset | constructed => exact poolOk_of_reset (n := P.poolN) rfl
  | received => exact rxBits_poolOk _ hk
  | encoded =>
    rw [Block.encodeDatagram_eq]
    exact poolOk_congr hk rfl rfl rfl
  | failed => exact postFail_poolOk _ hk
  | handedOver _ _ _ hfree hfits => exact poolOk_handOver hP hk _ _ _ (grant_free P k _ _ hfree) hfits
  | released => exact poolOk_setOwn_free _ hk
  | configError | stopped | idled | drained | backedOff | overflowed => exact poolOk_congr hk rfl rfl rfl

theorem stepWith_poolOk {P : Config.Params} (hP : P.SizesFit) {s t : State} (hs : s.blk.PoolOk P)
    (hstep : stepWith (execWith P) s = .next t) : t.blk.PoolOk P := by
  refine step_keeps (Block.PoolOk P) (fun i s t hk hexec => ?operation) (fun k b hk _ => ?bit) hs hstep
  case operation =>
    obtain ⟨_, hc⟩ := execWith_blockChange hexec
    exact hc.pool hP hk
  case bit => exact rxBits_poolOk [b] hk

/-- `step` is the case `P = Config.params`. -/
theorem step_eq_stepWith (s : State) : step s = stepWith (execWith Config.params) s := by
  rw [step, exec_fun]

/-- Settles O58, from the step of any parameters. -/
theorem poolKept : Obligations.PoolKept := by
  unfold Obligations.PoolKept
  constructor
  · intro s t hs hstep
    exact stepWith_poolOk params_sizesFit hs (step_eq_stepWith s ▸ hstep)
  · intro P s t hP hs hstep
    exact stepWith_poolOk hP hs hstep

/-! ### The form of the pool memory (20_memory R43) -/

/-- The memory invariant looks at the number of buffers and at the listed bytes. -/
theorem memoryOk_congr {P : Config.Params} {k l : Block} (hk : k.MemoryOk P) (hpool : l.pool.length = k.pool.length)
    (hmem : l.mem = k.mem) : l.MemoryOk P :=
  ⟨hpool.trans hk.sized, hmem ▸ hk.canonical⟩

theorem rxBits_memoryOk {P : Config.Params} {k : Block} (bs : List Bool) (hk : k.MemoryOk P) :
    (k.rxBits bs).MemoryOk P := by
  rw [rxBits_frame]
  exact memoryOk_congr hk rfl rfl

theorem resetWith_memoryOk (P : Config.Params) : (Block.resetWith P.poolN).MemoryOk P :=
  ⟨List.length_replicate, rfl⟩

theorem BlockChange.memory {P : Config.Params} {k l : Block} {i : Instr} {st : Status} (hP : P.SizesFit)
    (hc : BlockChange P k i st l) (hk : k.MemoryOk P) : l.MemoryOk P := by
  cases hc with
  | kept => exact hk
  | reset => exact resetWith_memoryOk P
  | constructed => exact ⟨List.length_replicate, hk.canonical⟩
  | received => exact rxBits_memoryOk _ hk
  | encoded =>
    rw [Block.encodeDatagram_eq]
    exact memoryOk_congr hk rfl rfl
  | handedOver _ _ _ hfree hfits =>
    exact memoryOk_handOver hP hk _ _ _ (own_lt k _ _ (grant_free P k _ _ hfree)) hfits
  | released => exact memoryOk_congr hk (List.length_modify ..) rfl
  | configError | stopped | idled | drained | failed | backedOff | overflowed => exact memoryOk_congr hk rfl rfl

theorem stepWith_memoryOk {P : Config.Params} (hP : P.SizesFit) {s t : State} (hs : s.blk.MemoryOk P)
    (hstep : stepWith (execWith P) s = .next t) : t.blk.MemoryOk P := by
  refine step_keeps (Block.MemoryOk P) (fun i s t hk hexec => ?operation) (fun k b hk _ => ?bit) hs hstep
  case operation =>
    obtain ⟨_, hc⟩ := execWith_blockChange hexec
    exact hc.memory hP hk
  case bit => exact rxBits_memoryOk [b] hk

/-- Settles O59, from the step of any parameters. -/
theorem memoryKept : Obligations.MemoryKept := by
  unfold Obligations.MemoryKept
  constructor
  · intro s t hs hstep
    exact stepWith_memoryOk params_sizesFit hs (step_eq_stepWith s ▸ hstep)
  · intro P s t hP hs hstep
    exact stepWith_memoryOk hP hs hstep

/-! ### The hold and the ports (log 6, log 7, log 9) -/

/-- A hold that is looked at on a block where it is refused ends (45_system R138, R139). -/
theorem endHold_of_refused {s : State} {r : Status × List Byte} (h : s.blk.decRefusal = some r) :
    s.endHold = { s with
      decHeld := false, responses := s.responses ++ (if s.decHeld then [⟨.d, r.1, r.2⟩] else []) } := by
  obtain ⟨k, held, pend, inputs, turns, responses⟩ := s
  cases held with
  | false => simp [State.endHold]
  | true => simp [State.endHold, h, State.completeDec, State.complete]

/-- The premise of a hold: the block runs and is not canceled (44_decoder_pool R124). -/
def Block.Undisturbed (k : Block) : Prop := k.Running ∧ k.stop = false

/-- The timers have run out. -/
def Block.TimersOut (k : Block) : Prop := k.idleTmr = 0 ∧ k.bkoTmr = 0

theorem rxBits_undisturbed {k : Block} (bs : List Bool) (hk : k.Undisturbed) : (k.rxBits bs).Undisturbed := by
  rw [rxBits_frame]
  exact hk

theorem rxBits_timersOut {k : Block} (bs : List Bool) (hk : k.TimersOut) : (k.rxBits bs).TimersOut := by
  rw [rxBits_frame]
  exact hk

theorem BlockChange.undisturbed {P : Config.Params} {k l : Block} {i : Instr} {st : Status}
    (hc : BlockChange P k i st l) (hdec : i ≠ .dec) (hreset : i ≠ .reset) (hcancel : i ≠ .cancel)
    (hk : k.Undisturbed) : l.Undisturbed := by
  have hready := hk.1.2
  cases hc with
  | kept => exact hk
  | reset => exact absurd rfl hreset
  | stopped => exact absurd rfl hcancel
  | configError _ hr | constructed _ hr => exact absurd (hr.symm.trans hready) Bool.false_ne_true
  | encoded => rw [Block.encodeDatagram_eq]; exact hk
  | received => exact rxBits_undisturbed _ hk
  | idled | drained | released => exact hk
  | failed | backedOff | overflowed | handedOver => exact absurd rfl hdec

theorem BlockChange.timersOut {P : Config.Params} {k l : Block} {i : Instr} {st : Status}
    (hc : BlockChange P k i st l) (hk : k.TimersOut) : l.TimersOut := by
  cases hc with
  | reset | constructed => exact ⟨rfl, rfl⟩
  | encoded => rw [Block.encodeDatagram_eq]; exact hk
  | received => exact rxBits_timersOut _ hk
  | idled => exact ⟨rfl, hk.2⟩
  | backedOff => exact ⟨hk.1, rfl⟩
  | kept | configError | stopped | drained | failed | overflowed | handedOver | released => exact hk

theorem decRefusal_resetWith (n : Nat) : (Block.resetWith n).decRefusal = some (.notReady, []) := rfl

theorem decRefusal_flagStop (k : Block) : ∃ r, k.flagStop.decRefusal = some r := by
  refine Option.ne_none_iff_exists'.1 fun h => ?_
  exact Bool.noConfusion ((decRefusal_eq_none _).1 h).2

/-- `RESET` ends every hold (45_system R138). -/
theorem execResetWith_decHeld {P : Config.Params} {s t : State} (h : execResetWith P s = .next t) :
    t.decHeld = false := by
  obtain rfl := execResetWith_cases h
  rw [endHold_of_refused (decRefusal_resetWith P.poolN)]

/-- `CANCEL` ends every hold (45_system R139). -/
theorem execCancel_decHeld {s t : State} (h : execCancel s = .next t) : t.decHeld = false := by
  obtain rfl := execCancel_cases h
  obtain ⟨_, hr⟩ := decRefusal_flagStop s.blk
  rw [endHold_of_refused hr]

theorem execWith_holdOk {P : Config.Params} {i : Instr} {s t : State} (h : execWith P i s = .next t)
    (hs : s.HoldOk) : t.HoldOk := by
  intro hheld
  obtain ⟨-, hrun, hstop, -, rfl⟩ | ⟨k, st, rs, hc, rfl⟩ := execWith_cases h
  · exact ⟨hrun, hstop⟩
  rw [State.finish_blk]
  obtain ⟨-, e⟩ | ⟨rfl | rfl, -⟩ | ⟨hdec, hreset, hcancel, e⟩ := s.finish_cases i k st rs
  · exact Bool.noConfusion ((congrArg State.decHeld e).symm.trans hheld)
  · exact Bool.noConfusion ((execResetWith_decHeld h).symm.trans hheld)
  · exact Bool.noConfusion ((execCancel_decHeld h).symm.trans hheld)
  · exact hc.undisturbed hdec hreset hcancel (hs ((congrArg State.decHeld e).symm.trans hheld))

theorem execWith_quietOk {P : Config.Params} {i : Instr} {s t : State} (h : execWith P i s = .next t)
    (hs : s.QuietOk) : t.QuietOk := by
  obtain ⟨-, -, -, -, rfl⟩ | ⟨k, st, rs, hc, rfl⟩ := execWith_cases h
  · exact hs
  · exact ⟨by rw [State.finish_rxPend]; exact hs.1, by rw [State.finish_blk]; exact hc.timersOut hs.2⟩

theorem byteSteps_undisturbed {k : Block} (bs : List Bool) (hk : k.Undisturbed) : (k.byteSteps bs).Undisturbed := by
  rw [byteSteps_frame]
  exact hk

theorem byteSteps_timersOut {k : Block} (bs : List Bool) (hk : k.TimersOut) : (k.byteSteps bs).TimersOut := by
  rw [byteSteps_frame]
  exact hk

theorem rxContinue_portsOk (now : List Bool) {later : List Bool} {s : State} (hlater : later.length ≤ 7)
    (hhold : s.HoldOk) (hquiet : s.QuietOk) :
    (rxContinue now later s).HoldOk ∧ (rxContinue now later s).QuietOk := by
  have hold : s.decHeld = true → (s.blk.byteSteps now).Undisturbed := fun hd => byteSteps_undisturbed now (hhold hd)
  have timers : (s.blk.byteSteps now).TimersOut := byteSteps_timersOut now hquiet.2
  obtain ⟨-, e⟩ | ⟨-, e⟩ := rxContinue_cases now later s <;> rw [e]
  · exact ⟨hold, Nat.zero_le _, timers⟩
  · exact ⟨hold, hlater, timers⟩

/-- Settles O60, over everything a step can do. -/
theorem portsKept : Obligations.PortsKept := by
  unfold Obligations.PortsKept
  intro s t hhold hquiet hstep
  obtain ⟨u, ⟨hblk, hheld, hpend, -⟩, hcases⟩ := stepWith_cases hstep
  have huhold : u.HoldOk := by unfold State.HoldOk; rw [hblk, hheld]; exact hhold
  have huquiet : u.QuietOk := by unfold State.QuietOk; rw [hblk, hpend]; exact hquiet
  obtain rfl | ⟨i, hexec⟩ | ⟨p, rfl⟩ | ⟨st, -, rfl⟩ | ⟨now, later, hlater, rfl⟩ := hcases
  · exact ⟨huhold, huquiet⟩
  · rw [exec_eq_execWith] at hexec
    exact ⟨execWith_holdOk hexec huhold, execWith_quietOk hexec huquiet⟩
  · exact ⟨huhold, huquiet⟩
  · exact ⟨huhold, huquiet⟩
  · have hseven : s.rxPend.length ≤ 7 := hquiet.1
    exact rxContinue_portsOk now (by omega) huhold huquiet

/-! ### After reset -/

theorem resetWith_inv (P : Config.Params) : (State.resetWith P.poolN).Inv P where
  lifecycle := resetWith_lifecycle P.poolN
  assembler := assemblerOk_of_reset rfl rfl rfl rfl rfl
  pool := poolOk_of_reset (n := P.poolN) rfl
  memory := resetWith_memoryOk P
  hold := nofun
  quiet := ⟨Nat.zero_le _, rfl, rfl⟩

/-- Settles O55: `State.reset` is the machine of `Config.params` after reset. -/
theorem invariantsAtReset : Obligations.InvariantsAtReset := by
  unfold Obligations.InvariantsAtReset
  exact ⟨State.reset_eq_resetWith_params ▸ resetWith_inv Config.params, resetWith_inv⟩

end Sys2Proof.Machine
end

section
/-! The control port: RESET and CANCEL (45_system R138, R139), the CSR map (10_state R37) with RDCSR (45_system R140),
and CFG (40_config). -/

namespace Sys2Proof.Machine

/-! ### RESET and CANCEL -/

/-- Settles O2: on the block that `RESET` leaves a held `DEC` is `NOTREADY`. -/
theorem resetOperation : Obligations.ResetOperation := by
  unfold Obligations.ResetOperation
  intro s
  refine ⟨_, rfl, ?_⟩
  rw [endHold_of_refused (decRefusal_resetWith _)]
  exact ⟨rfl, rfl, rfl, rfl, rfl, rfl⟩

/-- Where a held `DEC` has found the block running, it is `CANCELED` once `STOP` is set (44_decoder_pool R128). -/
theorem endHold_flagStop {s : State} (h : s.HoldOk) :
    (s.complete .c s.blk.flagStop .ok []).endHold = { s with
      blk := s.blk.flagStop
      decHeld := false
      responses := s.responses ++ [⟨.c, .ok, []⟩] ++ (if s.decHeld then [⟨.d, .canceled, [0x00]⟩] else []) } := by
  cases hheld : s.decHeld with
  | true =>
    have hrefused : s.blk.flagStop.decRefusal = some (.canceled, [0x00]) := decRefusal_of_stop _ (h hheld).1 rfl
    rw [endHold_of_refused hrefused, State.complete_decHeld, hheld]
    rfl
  | false => simp [State.endHold, State.complete, hheld]

/-- Settles O3, from the end of a hold under `HoldOk`. -/
theorem cancelOperation : Obligations.CancelOperation := by
  unfold Obligations.CancelOperation
  intro s hhold
  exact congrArg Host.Outcome.next (endHold_flagStop hhold)

/-! ### CSRs -/

/-- The `FRAMEHDR` word as a number (10_state R37). -/
theorem frameHdr_eq (a : BitVec 4) (n : BitVec 12) :
    (a ++ n).setWidth 64 = BitVec.ofNat 64 (a.toNat * 4096 + n.toNat) := by
  apply BitVec.eq_of_toNat_eq
  rw [BitVec.toNat_setWidth, BitVec.toNat_append, BitVec.toNat_ofNat, ← Nat.shiftLeft_add_eq_or_of_lt n.isLt,
    Nat.shiftLeft_eq]

/-- The `BUFLEN` indices (10_state R37). -/
theorem csr_bufLen (k : Block) {idx : Byte} {h : Nat} (hidx : idx.toNat = 0x10 + h) (hh : h < 16) :
    k.csr idx = (k.len h).map (BitVec.setWidth 64) := by
  unfold Block.csr
  rw [hidx]
  interval_cases h <;> rfl

/-- Settles O5: an index below 0x10 is evaluated, the others are `BUFLEN` or reserved. -/
theorem csrMap : Obligations.CsrMap := by
  unfold Obligations.CsrMap
  intro k
  refine ⟨?registers, ⟨k.poolFree, rfl, poolFree_bit k⟩, fun h n hh hlen => ?lengths, csr_none k⟩
  case registers =>
    exact ⟨rfl, rfl, rfl, rfl, rfl, rfl, rfl, rfl, rfl, rfl, rfl, rfl, congrArg some (frameHdr_eq k.aux k.bLen), rfl⟩
  case lengths =>
    have hidx : (BitVec.ofNat 8 (0x10 + h)).toNat = 0x10 + h := by
      rw [BitVec.toNat_ofNat, Nat.mod_eq_of_lt (by omega)]
    rw [csr_bufLen k hidx hh, hlen]
    rfl

theorem exec_rdcsr_of_some {s : State} {idx : Byte} {v : BitVec 64} (h : s.blk.csr idx = some v) :
    exec (.rdcsr idx) s = .next (s.complete .c s.blk .ok (bytes64 v)) := by
  simp [exec_rdcsr, execRdcsr, h]

theorem exec_rdcsr_of_none {s : State} {idx : Byte} (h : s.blk.csr idx = none) :
    exec (.rdcsr idx) s = .next (s.complete .c s.blk .badArg []) := by
  simp [exec_rdcsr, execRdcsr, h]

/-- Settles O7: `RDCSR` answers what the CSR map gives, in eight bytes. -/
theorem rdcsrOperation : Obligations.RdcsrOperation := by
  unfold Obligations.RdcsrOperation
  intro s idx
  split
  · rename_i hreserved
    exact exec_rdcsr_of_none ((csr_none s.blk idx).2 hreserved)
  · rename_i hdefined
    obtain ⟨v, hv⟩ := Option.ne_none_iff_exists'.1 (mt (csr_none s.blk idx).1 hdefined)
    exact ⟨v, bytes64 v, hv, rfl, bytes64_value v, exec_rdcsr_of_some hv⟩

/-! ### The access code and the operands of CFG -/

theorem isBitChar_iff (c : Byte) : isBitChar c = true ↔ c = 0x30 ∨ c = 0x31 := by
  simp [isBitChar]

theorem accessCodeCause_of_long {str : List Byte} (h : 64 < str.length) : accessCodeCause str = some 2 := by
  have hmin : ¬ str.length < 1 := by omega
  simp only [accessCodeCause, Config.acMin, Config.acMax, if_neg hmin, if_pos h]

/-- A string of 1 to 64 characters fails by its symbols only (40_config R86). -/
theorem accessCodeCause_of_fits {str : List Byte} (hmin : 1 ≤ str.length) (hmax : str.length ≤ 64) :
    accessCodeCause str = if ∀ c ∈ str, c = 0x30 ∨ c = 0x31 then none else some 3 := by
  simp only [accessCodeCause, Config.acMin, Config.acMax, if_neg (Nat.not_lt.2 hmin), if_neg (Nat.not_lt.2 hmax),
    List.all_eq_true, isBitChar_iff]

theorem cfgOperandsMeaningful_iff (thr bps : Byte) (sps : BitVec 32) :
    cfgOperandsMeaningful thr bps sps = true ↔ -1 ≤ thr.toInt ∧ bps ≠ 0 ∧ sps ≠ 0 := by
  simp only [cfgOperandsMeaningful, Bool.and_eq_true, decide_eq_true_eq, and_assoc]

/-- The threshold that is used (40_config R84). -/
theorem resolvedThreshold_toNat {thr : Byte} (h : -1 ≤ thr.toInt) :
    ((resolvedThreshold thr).toNat : Int) = if thr.toInt = -1 then 12 else thr.toInt := by
  unfold resolvedThreshold
  split
  · rfl
  · rename_i hthr
    have hthr : thr.toInt ≠ -1 := hthr
    have hsmall : thr.toInt = thr.toNat ∧ thr.toNat < 128 := by
      rw [BitVec.toInt_eq_toNat_cond] at h hthr ⊢
      split <;> omega
    rw [hsmall.1, BitVec.toNat_setWidth, Nat.mod_eq_of_lt hsmall.2]

/-! ### CFG -/

section cfg
variable {P : Config.Params} {s : State} {wo : Bool} {str : List Byte} {ac : Option (List Byte)} {thr bps : Byte}
  {sps : BitVec 32}

theorem exec_cfg : exec (.cfg wo ac thr bps sps) s = execCfgWith Config.params wo ac thr bps sps s := rfl

/-- A `CFG` with a string whose construction fails (40_config R86). -/
theorem execCfgWith_of_cause {cause : BitVec 2} (hfault : s.blk.fault = false) (hready : s.blk.ready = false)
    (hcause : accessCodeCause str = some cause) :
    execCfgWith P wo (some str) thr bps sps s =
      .next (s.complete .c (s.blk.flagConfigError cause) .cfgErr [cause.setWidth 8]) := by
  simp [execCfgWith, hfault, hready, accessCodeOf, hcause]

/-- A `CFG` with a valid string: the construction, or the refusal of operands without a meaning (log 4). -/
theorem execCfgWith_of_valid (hfault : s.blk.fault = false) (hready : s.blk.ready = false)
    (hmin : 1 ≤ str.length) (hmax : str.length ≤ 64) (hsym : ∀ c ∈ str, c = 0x30 ∨ c = 0x31) :
    execCfgWith P wo (some str) thr bps sps s =
      if cfgOperandsMeaningful thr bps sps then
        .next (s.complete .c (s.blk.construct P.poolN str wo thr bps sps) .ok [])
      else .refused .cfgOperandUnspecified := by
  have hcause : accessCodeCause str = none := (accessCodeCause_of_fits hmin hmax).trans (if_pos hsym)
  simp [execCfgWith, hfault, hready, accessCodeOf, hcause]

end cfg

/-- Settles O8: the constructed block, field by field. -/
theorem cfgConstructs : Obligations.CfgConstructs := by
  unfold Obligations.CfgConstructs
  intro s wo ac thr bps sps hfault hready hmin hmax hsym hthr hbps hsps
  have hmean := (cfgOperandsMeaningful_iff thr bps sps).2 ⟨hthr, hbps, hsps⟩
  refine ⟨s.complete .c (s.blk.construct Config.params.poolN ac wo thr bps sps) .ok [], ?runs, ?flags, ?configuration,
    ?paths, ?buffers, fun h off => rfl, ⟨rfl, rfl, rfl, rfl⟩, rfl⟩
  case runs => rw [exec_cfg, execCfgWith_of_valid hfault hready hmin hmax hsym, if_pos hmean]
  case flags => exact ⟨rfl, rfl, rfl, rfl, rfl⟩
  case configuration =>
    exact ⟨s.blk.construct_acLen_toNat _ ac wo thr bps sps hmax, rfl, resolvedThreshold_toNat hthr, rfl, rfl, rfl⟩
  case paths => exact ⟨rfl, rfl, rfl, rfl, rfl, rfl, rfl, rfl, rfl, rfl, rfl, rfl⟩
  case buffers => exact fun h hh => resetWith_buffer_free (n := 16) hh

/-- Settles O9: each of the three causes is the one that `accessCodeCause` gives. -/
theorem cfgErrors : Obligations.CfgErrors := by
  unfold Obligations.CfgErrors
  intro s wo ac thr bps sps cause hfault hready hwhy
  have hcause : accessCodeCause ac = some cause := by
    obtain ⟨hlen, rfl⟩ | ⟨hlen, rfl⟩ | ⟨hmin, hmax, ⟨c, hc, h0, h1⟩, rfl⟩ := hwhy
    · rw [List.eq_nil_of_length_eq_zero hlen]
      rfl
    · exact accessCodeCause_of_long hlen
    · exact (accessCodeCause_of_fits hmin hmax).trans (if_neg fun hsym => (hsym c hc).elim h0 h1)
  rw [exec_cfg, execCfgWith_of_cause hfault hready hcause]
  rfl

/-- Settles O10: `FAULT` and `READY` are looked at before any operand. -/
theorem cfgNotAccepted : Obligations.CfgNotAccepted := by
  unfold Obligations.CfgNotAccepted
  intro s wo ac thr bps sps
  constructor
  · intro hfault
    rw [exec_cfg, execCfgWith, if_pos hfault, State.complete_self]
  · intro hfault hready
    rw [exec_cfg, execCfgWith, if_neg (Bool.eq_false_iff.1 hfault), if_pos hready, State.complete_self]

/-- Settles O11: an operand left out reads as the default string; an empty one is a string of length 0. -/
theorem cfgDefaultCode : Obligations.CfgDefaultCode := by
  unfold Obligations.CfgDefaultCode
  constructor
  · intro s wo thr bps sps
    rw [exec_cfg, exec_cfg]
    rfl
  · intro s wo thr bps sps hfault hready
    have hempty : accessCodeCause [] = some 1 := rfl
    refine ⟨s.complete .c (s.blk.flagConfigError 1) .cfgErr [0x01], ?_, hready, rfl, rfl⟩
    rw [exec_cfg, execCfgWith_of_cause hfault hready hempty]
    rfl

/-- Settles O12: a `CFG` with a valid string constructs exactly where its operands have a meaning. -/
theorem cfgRefusedOperands : Obligations.CfgRefusedOperands := by
  unfold Obligations.CfgRefusedOperands
  intro s wo ac thr bps sps hfault hready hmin hmax hsym
  rw [exec_cfg, execCfgWith_of_valid hfault hready hmin hmax hsym]
  have hmean := cfgOperandsMeaningful_iff thr bps sps
  by_cases h : cfgOperandsMeaningful thr bps sps = true
  · obtain ⟨hthr, hbps, hsps⟩ := hmean.1 h
    rw [if_pos h]
    refine ⟨nofun, ?_⟩
    rintro (h0 | h0 | h0)
    · exact absurd h0 hsps
    · exact absurd h0 hbps
    · omega
  · rw [if_neg h]
    refine ⟨fun _ => ?_, fun _ => rfl⟩
    by_contra hnone
    push Not at hnone
    obtain ⟨hsps, hbps, hthr⟩ := hnone
    exact h (hmean.2 ⟨by omega, hbps, hsps⟩)

/-! ### What the control operations leave unchanged -/

/-- The end of a hold touches the hold and the responses only. -/
theorem endHold_frame (s : State) :
    s.endHold = { s with decHeld := s.endHold.decHeld, responses := s.endHold.responses } := by
  obtain h | ⟨r, -, -, h⟩ := endHold_cases s <;> rw [h]
  rfl

/-- A `CFG` leaves `STOP`, `FAULT` and the bytes of the pool (40_config R86, 10_state R40). -/
theorem execCfgWith_frame {P : Config.Params} {s t : State} {wo : Bool} {ac : Option (List Byte)} {thr bps : Byte}
    {sps : BitVec 32} (h : execCfgWith P wo ac thr bps sps s = .next t) :
    t = { s with blk := t.blk, responses := t.responses } ∧ t.blk.stop = s.blk.stop ∧ t.blk.fault = s.blk.fault ∧
      t.blk.mem = s.blk.mem := by
  obtain ⟨-, rfl⟩ | ⟨-, -, rfl⟩ | ⟨-, -, _, -, rfl⟩ | ⟨hfault, -, -, -, rfl⟩ := execCfgWith_cases h
  · exact ⟨rfl, rfl, rfl, rfl⟩
  · exact ⟨rfl, rfl, rfl, rfl⟩
  · exact ⟨rfl, rfl, rfl, rfl⟩
  · exact ⟨rfl, rfl, hfault.symm, rfl⟩

/-- The bytes of the pool are those listed. -/
theorem poolByte_congr {k l : Block} (h : l.mem = k.mem) (g off : Nat) : l.poolByte g off = k.poolByte g off := by
  simp only [Block.poolByte, h]

/-- Settles O47, operation by operation. -/
theorem controlFrame : Obligations.ControlFrame := by
  unfold Obligations.ControlFrame
  refine ⟨fun s t idx h => ?reads, fun s t h => ?cancel, fun s t wo ac thr bps sps h => ?cfg⟩
  case reads =>
    obtain h | h := h
    · obtain rfl := execNop_cases h
      exact ⟨rfl, fun _ _ => rfl⟩
    · obtain ⟨_, -, rfl⟩ | ⟨-, rfl⟩ := execRdcsr_cases h <;> exact ⟨rfl, fun _ _ => rfl⟩
  case cancel =>
    obtain rfl := execCancel_cases h
    rw [endHold_frame]
    exact ⟨rfl, fun _ _ => rfl⟩
  case cfg =>
    obtain ⟨hframe, hstop, hfault, hmem⟩ := execCfgWith_frame h
    exact ⟨hframe, hstop, hfault, poolByte_congr hmem⟩

end Sys2Proof.Machine
end

section
/-! The transmit path: TXEV and the frame (41_encoder), TXDRAIN and the stream on port T (42_output_queue). -/

namespace Sys2Proof.Machine

/-! ### Operations one after the other -/

section execAll
variable {ex : Meaning} {i : Instr} {is js : List Instr} {s t : State}

theorem execAll_cons (h : ex i s = .next t) : execAll ex (i :: is) s = execAll ex is t := by
  simp only [execAll, h]

theorem execAll_singleton : execAll ex [i] s = ex i s := by
  simp only [execAll]
  split <;> rename_i h <;> rw [h]

theorem execAll_append (h : execAll ex is s = .next t) : execAll ex (is ++ js) s = execAll ex js t := by
  induction is generalizing s with
  | nil => cases h; rfl
  | cons i is ih =>
    simp only [execAll, List.cons_append] at h ⊢
    cases hi : ex i s with
    | next u => exact ih (by simpa only [hi] using h)
    | fault r => simp only [hi] at h; cases h
    | refused r => simp only [hi] at h; cases h

end execAll

/-! ### The bits of a frame -/

theorem frameBits_length (pre : List Bool) (k : Block) (o : BitVec 4) (body : List Byte) :
    (frameBits pre k o body).length = pre.length + k.acLen.toNat + 32 + 8 * body.length := by
  simp only [frameBits, List.length_append, codeBits_length, headerBits_length, bodyBits_length]

/-- The padding fills the bits up to whole bytes. -/
theorem padBits_length (n : Nat) : (padBits n).length < 8 ∧ (n + (padBits n).length) % 8 = 0 ∧
    (n + (padBits n).length) / 8 = (n + 7) / 8 := by
  rw [padBits, List.length_replicate]
  omega

/-- A frame read as bits (41_encoder R91). -/
theorem flatMap_frameOf (pre : List Bool) (k : Block) (o : BitVec 4) (body : List Byte) :
    (frameOf pre k o body).flatMap byteBits =
      frameBits pre k o body ++ padBits (frameBits pre k o body).length := by
  refine flatMap_bytesOfBits _ ?_
  rw [List.length_append]
  exact (padBits_length _).2.1

theorem frameOf_length (pre : List Bool) (k : Block) (o : BitVec 4) (body : List Byte) :
    (frameOf pre k o body).length = (pre.length + k.acLen.toNat + 32 + 8 * body.length + 7) / 8 := by
  rw [frameOf, bytesOfBits_length, List.length_append, (padBits_length _).2.2, frameBits_length]

/-- Settles O15: `frameBits`, with each part as its bits. -/
theorem frameLayout : Obligations.FrameLayout := by
  unfold Obligations.FrameLayout
  intro P k payload o body _
  refine ⟨padBits (frameBits P.preamble k o body).length, (padBits_length _).1, fun b hb => List.eq_of_mem_replicate hb,
    ?bits, frameOf_length P.preamble k o body⟩
  have hbytes : (fun v : Byte => (List.range 8).map fun j => v.getLsbD (7 - j)) = byteBits :=
    funext fun v => (byteBits_eq_map v).symm
  have hcode : codeBits k = (List.range k.acLen.toNat).map fun j => k.pat.getLsbD (k.acLen.toNat - 1 - j) :=
    bitsMsb_eq_map _ _
  have hword : bitsMsb 16 (headerWord o body.length) =
      (List.range 16).map fun j => (o.toNat * 4096 + body.length).testBit (15 - j) := bitsMsb_eq_map _ _
  rw [hbytes, ← hcode, ← hword]
  refine (flatMap_frameOf P.preamble k o body).trans ?_
  simp only [frameBits, headerBits, bodyBits, List.append_assoc]

/-! ### TXEV -/

section txev
variable {P : Config.Params} {s : State}

/-- `TXEV` on a running block (41_encoder R96). -/
theorem execTxevWith_of_running (kind : Byte) (data : List Byte) (hrun : s.blk.Running) :
    execTxevWith P kind data s =
      if kind ≠ 0x01 then .next (s.complete .t s.blk .ok [])
      else if Config.bodyMax < (bodyOf P s.blk data s.blk.wOff).length then .next (s.complete .t s.blk .tooLong [])
      else .next (s.complete .t (s.blk.encodeDatagram P data) .ok []) := by
  simp only [execTxevWith, gate_of_running _ hrun]

theorem execWith_txev_of_fits {data : List Byte} (hrun : s.blk.Running)
    (hfits : (P.packBody data s.blk.sps s.blk.bps s.blk.wOff).length ≤ Config.bodyMax) :
    execWith P (.txev 0x01 data) s = .next (s.complete .t (s.blk.encodeDatagram P data) .ok []) := by
  have hle : ¬ Config.bodyMax < (bodyOf P s.blk data s.blk.wOff).length := Nat.not_lt.2 hfits
  refine (execTxevWith_of_running 0x01 data hrun).trans ?_
  rw [if_neg (not_not.2 rfl), if_neg hle]

theorem encodeDatagram_running {k : Block} (data : List Byte) (hrun : k.Running) :
    (k.encodeDatagram P data).Running := by
  rw [Block.encodeDatagram_eq]
  exact hrun

theorem encodeDatagram_wOff (k : Block) (data : List Byte) :
    (k.encodeDatagram P data).wOff.toNat = if k.wen then (k.wOff.toNat + 1) % 16 else k.wOff.toNat := by
  rw [Block.encodeDatagram_eq]
  split
  · exact (BitVec.toNat_ofNat _ _).trans (Nat.mod_mod _ _)
  · rfl

end txev

/-- Settles O14: the three outcomes of `execTxevWith_of_running`, the last as its two fields. -/
theorem txevOperation : Obligations.TxevOperation := by
  unfold Obligations.TxevOperation
  intro s kind data hrun
  refine (execTxevWith_of_running kind data hrun).trans ?_
  rw [Block.encodeDatagram_eq]
  by_cases hkind : kind ≠ 0x01
  · rw [if_pos hkind, if_pos hkind, State.complete_self]
  · rw [if_neg hkind, if_neg hkind, apply_ite Host.Outcome.next]
    rfl

/-- Settles O16, by induction on the datagrams: each keeps `SPS`, `BPS` and `WEN` and advances `WOFF` by one. -/
theorem whitenerSequence : Obligations.WhitenerSequence := by
  unfold Obligations.WhitenerSequence
  intro P s datas
  induction datas generalizing s with
  | nil =>
    intro _ _
    refine ⟨s, rfl, ?_⟩
    have hlt := s.blk.wOff.isLt
    rw [List.length_nil, Nat.add_zero, Nat.mod_eq_of_lt hlt, ite_self]
  | cons data datas ih =>
    intro hrun hfits
    obtain ⟨hfit, hrest⟩ := List.forall_mem_cons.1 hfits
    have hconf := encodeDatagram_sameConfig P s.blk data
    obtain ⟨t, hexec, hoff⟩ := ih (s.complete .t (s.blk.encodeDatagram P data) .ok [])
      (encodeDatagram_running data hrun)
      (fun d hd o => by rw [State.complete_blk, hconf.sps, hconf.bps]; exact hrest d hd o)
    refine ⟨t, (execAll_cons (execWith_txev_of_fits hrun (hfit _))).trans hexec, ?_⟩
    rw [hoff, State.complete_blk, hconf.wen, encodeDatagram_wOff, List.length_cons]
    split <;> omega

/-! ### TXDRAIN -/

/-- The two bytes of a 16-bit count, for any number. -/
theorem bytes16_ofNat (n : Nat) : bytes16 (BitVec.ofNat 16 n) = [BitVec.ofNat 8 (n / 256), BitVec.ofNat 8 n] := by
  simp only [bytes16, List.cons.injEq, and_true]
  constructor <;> apply BitVec.eq_of_toNat_eq <;>
    simp only [byteOf, BitVec.extractLsb'_toNat, BitVec.toNat_ofNat, Nat.shiftRight_eq_div_pow] <;> omega

section txdrain
variable {P : Config.Params} {s : State} (cap : BitVec 16)

/-- `TXDRAIN` on a running block (42_output_queue R102). -/
theorem execTxdrainWith_of_running (hrun : s.blk.Running) : execTxdrainWith P cap s =
    if s.blk.pq = [] then .next (s.complete .t (s.blk.sleepIdle P) .idle (bytes16 0))
    else .next (s.complete .t (s.blk.drain (s.blk.drainCount cap)) .ok
      (bytes16 (BitVec.ofNat 16 (s.blk.drainCount cap)) ++ s.blk.pq.take (s.blk.drainCount cap))) := by
  simp only [execTxdrainWith, gate_of_running _ hrun, List.isEmpty_iff]

theorem drain_drainCount (k : Block) (cap : BitVec 16) : k.drain (k.drainCount cap) = { k with
    pq := k.pq.drop cap.toNat, txOut := k.txOut ++ k.pq.take cap.toNat } := by
  rw [Block.drain, Block.drainCount, ← List.take_eq_take_min, ← List.drop_eq_drop_min]

/-- The first `cap` bytes of `PQ` go out and nothing else of the block changes but the idle timer, with a queue empty or
not. -/
theorem execWith_txdrain_moves (hrun : s.blk.Running) :
    ∃ t, execWith P (.txdrain cap) s = .next t ∧ t.blk = { s.blk with
      pq := s.blk.pq.drop cap.toNat, txOut := s.blk.txOut ++ s.blk.pq.take cap.toNat, idleTmr := t.blk.idleTmr } := by
  by_cases hempty : s.blk.pq = []
  · refine ⟨s.complete .t (s.blk.sleepIdle P) .idle (bytes16 0),
      (execTxdrainWith_of_running cap hrun).trans (if_pos hempty), ?_⟩
    rw [hempty, List.drop_nil, List.take_nil, List.append_nil, ← hempty]
    rfl
  · refine ⟨_, (execTxdrainWith_of_running cap hrun).trans (if_neg hempty), ?_⟩
    rw [State.complete_blk, drain_drainCount]

end txdrain

/-- Settles O17: the two outcomes of `execTxdrainWith_of_running`. -/
theorem txdrainOperation : Obligations.TxdrainOperation := by
  unfold Obligations.TxdrainOperation
  intro s cap hrun
  refine (execTxdrainWith_of_running cap hrun).trans ?_
  rw [bytes16_ofNat, ← apply_ite Host.Outcome.next]
  rfl

/-- Settles O18, by induction on the capacities: the next drain goes on where the last one stopped. -/
theorem drainSplit : Obligations.DrainSplit := by
  unfold Obligations.DrainSplit
  intro s caps
  rw [exec_fun]
  induction caps generalizing s with
  | nil =>
    intro _
    exact ⟨s, rfl, (List.append_nil _).symm, rfl⟩
  | cons cap caps ih =>
    intro hrun
    obtain ⟨u, hu, hblk⟩ := execWith_txdrain_moves (P := Config.params) cap hrun
    obtain ⟨t, ht, hout, hpq⟩ := ih u (by rw [hblk]; exact hrun)
    refine ⟨t, (execAll_cons hu).trans ht, ?_, ?_⟩
    · rw [hout, hblk, List.map_cons, List.sum_cons, List.take_add, List.append_assoc]
    · rw [hpq, hblk, List.map_cons, List.sum_cons, List.drop_drop]

/-! ### The stream on port T, and what port T leaves unchanged -/

/-- `TXOUT ++ PQ` is as it was, or has grown by the frame of an accepted datagram (42_output_queue R107). -/
def StreamStep (P : Config.Params) (i : Instr) (k l : Block) : Prop :=
  ∃ f, l.txOut ++ l.pq = k.txOut ++ k.pq ++ f ∧
    (f = [] ∨ ∃ data, i = .txev 0x01 data ∧ f = encodeFrame P k data k.wOff)

theorem StreamStep.same {P : Config.Params} {i : Instr} {k l : Block} (h : l.txOut ++ l.pq = k.txOut ++ k.pq) :
    StreamStep P i k l :=
  ⟨[], h.trans (List.append_nil _).symm, .inl rfl⟩

theorem BlockChange.stream {P : Config.Params} {k l : Block} {i : Instr} {st : Status}
    (hc : BlockChange P k i st l) (hi : i ≠ .reset) (hcfg : isCfg i = false) : StreamStep P i k l := by
  cases hc with
  | reset => exact absurd rfl hi
  | configError | constructed => cases hcfg
  | @encoded data =>
    refine ⟨encodeFrame P k data k.wOff, ?_, .inr ⟨data, rfl, rfl⟩⟩
    rw [Block.encodeDatagram_eq, List.append_assoc]
  | drained =>
    refine .same ?_
    rw [drain_drainCount, List.append_assoc, List.take_append_drop]
  | received => exact .same (by rw [rxBits_frame])
  | kept | stopped | idled | failed | backedOff | overflowed | handedOver | released => exact .same rfl

/-- Settles O19, from the change of the block. -/
theorem transmitStreamGrows : Obligations.TransmitStreamGrows := by
  unfold Obligations.TransmitStreamGrows
  intro i s t hexec hi hcfg
  obtain ⟨_, hc⟩ := exec_blockChange hexec
  exact hc.stream hi hcfg

/-- Settles O43, outcome by outcome. -/
theorem transmitFrame : Obligations.TransmitFrame := by
  unfold Obligations.TransmitFrame
  constructor
  · intro s t kind data h
    obtain ⟨_, -, rfl⟩ | ⟨-, -, rfl⟩ | ⟨-, -, -, rfl⟩ | ⟨-, -, -, rfl⟩ := execTxevWith_cases h
    · exact ⟨rfl, fun _ _ => rfl⟩
    · exact ⟨rfl, fun _ _ => rfl⟩
    · exact ⟨rfl, fun _ _ => rfl⟩
    · rw [Block.encodeDatagram_eq]
      exact ⟨rfl, fun _ _ => rfl⟩
  · intro s t cap h
    obtain ⟨_, -, rfl⟩ | ⟨-, -, rfl⟩ | ⟨-, -, rfl⟩ := execTxdrainWith_cases h
    · exact ⟨rfl, fun _ _ => rfl⟩
    · exact ⟨rfl, fun _ _ => rfl⟩
    · exact ⟨rfl, fun _ _ => rfl⟩

end Sys2Proof.Machine
end

section
/-! The receive path (43_correlator): bits shifted in, a header, a byte, a body, the candidate they deliver, and the
search for the access code that precedes them. -/

namespace Sys2Proof.Machine

/-! ### Shift registers over many bits -/

/-- A register that has taken the bits of `v`, the most significant first. -/
theorem foldl_shiftConcat_bitsMsb {w : Nat} (n v : Nat) (x : BitVec w) :
    (bitsMsb n v).foldl BitVec.shiftConcat x = BitVec.ofNat w (x.toNat * 2 ^ n + v % 2 ^ n) := by
  induction n generalizing x with
  | zero => simp [bitsMsb, Nat.mod_one]
  | succ n ih =>
    rw [bitsMsb, List.foldl_cons, ih, shiftConcat_eq, Nat.mod_pow_succ, ← Nat.toNat_testBit]
    apply BitVec.eq_of_toNat_eq
    simp only [BitVec.toNat_ofNat]
    rw [Nat.add_mod, Nat.mod_mul_mod, ← Nat.add_mod]
    congr 1
    ring

/-- The last bits taken are in front of the register, the last of all in bit 0. -/
theorem foldl_shiftConcat_getLsbD {w : Nat} (bs : List Bool) (x : BitVec w) {j : Nat} (hj : j < bs.length)
    (hw : j < w) : bs[bs.length - 1 - j]? = some ((bs.foldl BitVec.shiftConcat x).getLsbD j) := by
  induction bs using List.reverseRecOn generalizing j with
  | nil => exact absurd hj (Nat.not_lt_zero j)
  | append_singleton bs b ih =>
    rw [List.foldl_append, List.foldl_cons, List.foldl_nil, BitVec.getLsbD_shiftConcat, List.length_append,
      List.length_singleton, Nat.add_sub_cancel]
    rw [List.length_append, List.length_singleton] at hj
    cases j with
    | zero => simp [hw]
    | succ j =>
      rw [List.getElem?_append_left (by omega), show bs.length - (j + 1) = bs.length - 1 - j by omega,
        ih (by omega) (by omega)]
      simp [hw]

/-! ### Bits one by one -/

theorem rxBits_cons (k : Block) (b : Bool) (bs : List Bool) : k.rxBits (b :: bs) = (k.rxBit b).rxBits bs := rfl

theorem rxBits_append (k : Block) (bs cs : List Bool) : k.rxBits (bs ++ cs) = (k.rxBits bs).rxBits cs :=
  List.foldl_append

theorem rxBits_running {k : Block} (bs : List Bool) (h : k.Running) : (k.rxBits bs).Running := by
  rw [rxBits_frame]
  exact h

theorem rxBits_evOut (k : Block) (bs : List Bool) : (k.rxBits bs).evOut = k.evOut := by rw [rxBits_frame]

/-! ### A header (43_correlator R115) -/

/-- A header bit that is not the last. -/
theorem rxBit_header_more {k : Block} (b : Bool) (hstate : k.rxState = .header) (hcnt : 1 < k.rxCnt.toNat) :
    k.rxBit b = { k.shiftIn b with hAcc := k.hAcc.shiftConcat b, rxCnt := countDown k.rxCnt } := by
  have hne : countDown k.rxCnt ≠ 0 := fun h => by
    rw [rxCnt_eq_zero, countDown_toNat] at h
    omega
  rw [rxBit_header k b hstate]
  exact if_neg hne

/-- The last bit of a header. -/
theorem rxBit_header_last {k : Block} (b : Bool) (hstate : k.rxState = .header) (hcnt : k.rxCnt.toNat = 1) :
    k.rxBit b = Block.headerEnd { k.shiftIn b with hAcc := k.hAcc.shiftConcat b, rxCnt := countDown k.rxCnt } := by
  have hzero : countDown k.rxCnt = 0 := by rw [rxCnt_eq_zero, countDown_toNat, hcnt]
  rw [rxBit_header k b hstate]
  exact if_pos hzero

/-- The bits that complete a header reach `headerEnd` with all of them in `HACC`. -/
theorem rxBits_header_complete (bs : List Bool) {k : Block} (hstate : k.rxState = .header)
    (hcnt : k.rxCnt.toNat = bs.length) (hne : bs ≠ []) :
    ∃ m : Block, k.rxBits bs = m.headerEnd ∧ m.hAcc = bs.foldl BitVec.shiftConcat k.hAcc ∧ m.cq = k.cq := by
  induction bs generalizing k with
  | nil => exact absurd rfl hne
  | cons b bs ih =>
    rw [List.length_cons] at hcnt
    cases bs with
    | nil => exact ⟨_, rxBit_header_last b hstate hcnt, rfl, rfl⟩
    | cons c cs =>
      rw [List.length_cons] at hcnt
      rw [rxBits_cons, rxBit_header_more b hstate (by omega), List.foldl_cons]
      refine ih hstate ?_ (List.cons_ne_nil c cs)
      show (countDown k.rxCnt).toNat = _
      rw [countDown_toNat, hcnt, List.length_cons, Nat.add_sub_cancel]

theorem headerWord_fields (o : BitVec 4) {n : Nat} (hn : n ≤ 4095) :
    headerWord o n < 65536 ∧ headerWord o n % 4096 = n ∧ BitVec.ofNat 4 (headerWord o n / 4096) = o ∧
      (BitVec.ofNat 12 (headerWord o n)).toNat = n := by
  have ho := o.isLt
  unfold headerWord
  refine ⟨by omega, by omega, BitVec.eq_of_toNat_eq ?_, ?_⟩ <;> rw [BitVec.toNat_ofNat] <;> omega

/-- What 32 header bits accumulate: the header word twice. -/
theorem foldl_headerBits (o : BitVec 4) {n : Nat} (hn : n ≤ 4095) (x : BitVec 32) :
    ((headerBits o n).foldl BitVec.shiftConcat x).toNat = headerWord o n * 65536 + headerWord o n := by
  have hword : headerWord o n < 2 ^ 16 := (headerWord_fields o hn).1
  rw [headerBits, List.foldl_append, foldl_shiftConcat_bitsMsb, foldl_shiftConcat_bitsMsb]
  rw [BitVec.toNat_ofNat, BitVec.toNat_ofNat, Nat.mod_eq_of_lt hword]
  generalize headerWord o n = w at hword
  rw [Nat.add_mod, Nat.mod_mul_mod, ← Nat.add_mod, Nat.add_mul, Nat.mul_assoc, Nat.add_assoc]
  exact (Nat.mul_add_mod' ..).trans (Nat.mod_eq_of_lt (by omega))

/-- The header of a frame: an empty body is delivered, another one is awaited. -/
theorem rxBits_headerBits {k : Block} (o : BitVec 4) {n : Nat} (hn : n ≤ 4095) (hstate : k.rxState = .header)
    (hcnt : k.rxCnt = 32) :
    (k.rxBits (headerBits o n)).aux = o ∧ (k.rxBits (headerBits o n)).bLen.toNat = n ∧
    (k.rxBits (headerBits o n)).raw = [] ∧
    if n = 0 then
      (k.rxBits (headerBits o n)).rxState = .search ∧ (k.rxBits (headerBits o n)).cq = k.cq ++ [⟨[], o⟩]
    else
      (k.rxBits (headerBits o n)).rxState = .body ∧ (k.rxBits (headerBits o n)).rxCnt.toNat = 8 * n ∧
        (k.rxBits (headerBits o n)).cq = k.cq := by
  have hlen : k.rxCnt.toNat = (headerBits o n).length := by rw [hcnt, headerBits_length]; rfl
  have hne : headerBits o n ≠ [] := List.ne_nil_of_length_pos (by rw [headerBits_length]; decide)
  obtain ⟨m, hend, hacc, hcq⟩ := rxBits_header_complete _ hstate hlen hne
  obtain ⟨hword, hlow, haux, hblen⟩ := headerWord_fields o hn
  have haccNat : m.hAcc.toNat = headerWord o n * 65536 + headerWord o n := hacc ▸ foldl_headerBits o hn k.hAcc
  have hhigh : m.hAcc.toNat / 65536 = headerWord o n := by omega
  have hsame : ¬ headerWord o n ≠ m.hAcc.toNat % 65536 := by omega
  rw [hend, headerEnd_eq, hhigh, if_neg hsame, hlow, haux]
  by_cases h0 : n = 0
  · rw [if_pos h0, if_pos h0, hcq]
    exact ⟨rfl, h0.symm, rfl, rfl, rfl⟩
  · rw [if_neg h0, if_neg h0]
    refine ⟨rfl, hblen, rfl, rfl, ?_, hcq⟩
    show (BitVec.ofNat 16 (8 * n)).toNat = 8 * n
    rw [BitVec.toNat_ofNat, Nat.mod_eq_of_lt (by omega)]

/-! ### A byte of the body (43_correlator R116) -/

/-- A body bit that does not complete a byte. -/
theorem rxBit_body_more {k : Block} (b : Bool) (hstate : k.rxState = .body) (hcnt : (k.rxCnt.toNat - 1) % 8 ≠ 0) :
    k.rxBit b = { k.shiftIn b with bAcc := k.bAcc.shiftConcat b, rxCnt := countDown k.rxCnt } := by
  have hne : ¬ (countDown k.rxCnt).toNat % 8 = 0 := by rwa [countDown_toNat]
  rw [rxBit_body k b hstate]
  exact if_neg hne

/-- The block after a complete byte of the body: the byte joins `RAW`, and the last one delivers the candidate. -/
def Block.byteEnd (k : Block) : Block :=
  if k.rxCnt = 0 then
    { k with raw := k.raw ++ [k.bAcc], cq := k.cq ++ [⟨k.raw ++ [k.bAcc], k.aux⟩], rxState := .search }
  else { k with raw := k.raw ++ [k.bAcc] }

/-- A body bit that completes a byte. -/
theorem rxBit_body_last {k : Block} (b : Bool) (hstate : k.rxState = .body) (hcnt : (k.rxCnt.toNat - 1) % 8 = 0) :
    k.rxBit b = Block.byteEnd { k.shiftIn b with bAcc := k.bAcc.shiftConcat b, rxCnt := countDown k.rxCnt } := by
  have hzero : (countDown k.rxCnt).toNat % 8 = 0 := by rwa [countDown_toNat]
  rw [rxBit_body k b hstate]
  exact if_pos hzero

/-- The bits that complete a byte, `n` bytes still to come, reach `byteEnd` with all of them in `BACC`. -/
theorem rxBits_body_complete (bs : List Bool) {k : Block} {n : Nat} (hstate : k.rxState = .body)
    (hcnt : k.rxCnt.toNat = 8 * n + bs.length) (hne : bs ≠ []) (h8 : bs.length ≤ 8) :
    ∃ m : Block, k.rxBits bs = m.byteEnd ∧ m.bAcc = bs.foldl BitVec.shiftConcat k.bAcc ∧ m.rxCnt.toNat = 8 * n ∧
      m.rxState = .body ∧ m.raw = k.raw ∧ m.cq = k.cq ∧ m.aux = k.aux ∧ m.bLen = k.bLen := by
  induction bs generalizing k with
  | nil => exact absurd rfl hne
  | cons b bs ih =>
    rw [List.length_cons] at hcnt h8
    have hdown := countDown_toNat k.rxCnt
    cases bs with
    | nil =>
      rw [List.length_nil] at hcnt
      have hzero : (countDown k.rxCnt).toNat = 8 * n := by omega
      exact ⟨_, rxBit_body_last b hstate (by omega), rfl, hzero, hstate, rfl, rfl, rfl, rfl⟩
    | cons c cs =>
      rw [List.length_cons] at hcnt h8
      rw [rxBits_cons, rxBit_body_more b hstate (by omega), List.foldl_cons]
      refine ih hstate ?_ (List.cons_ne_nil c cs) (by rw [List.length_cons]; omega)
      show (countDown k.rxCnt).toNat = _
      rw [List.length_cons]
      omega

theorem foldl_byteBits (v x : Byte) : (byteBits v).foldl BitVec.shiftConcat x = v := by
  have hv := v.isLt
  rw [byteBits, foldl_shiftConcat_bitsMsb]
  apply BitVec.eq_of_toNat_eq
  rw [BitVec.toNat_ofNat]
  omega

/-- A byte of the body, `n` bytes still to come. -/
theorem rxBits_byteBits {k : Block} (v : Byte) {n : Nat} (hstate : k.rxState = .body)
    (hcnt : k.rxCnt.toNat = 8 * (n + 1)) :
    ∃ m : Block, k.rxBits (byteBits v) = m.byteEnd ∧ m.bAcc = v ∧ m.rxCnt.toNat = 8 * n ∧ m.rxState = .body ∧
      m.raw = k.raw ∧ m.cq = k.cq ∧ m.aux = k.aux ∧ m.bLen = k.bLen := by
  have hlen := byteBits_length v
  have h := rxBits_body_complete (byteBits v) (n := n) hstate (by rw [hlen]; omega)
    (List.ne_nil_of_length_pos (by omega)) (by omega)
  rwa [foldl_byteBits] at h

/-! ### The whole body, and the candidate -/

/-- The body that is awaited delivers the candidate. -/
theorem rxBits_bodyBits (body : List Byte) {k : Block} (hstate : k.rxState = .body)
    (hcnt : k.rxCnt.toNat = 8 * body.length) (hne : body ≠ []) :
    (k.rxBits (bodyBits body)).rxState = .search ∧ (k.rxBits (bodyBits body)).cq = k.cq ++ [⟨k.raw ++ body, k.aux⟩] ∧
      (k.rxBits (bodyBits body)).aux = k.aux ∧ (k.rxBits (bodyBits body)).bLen = k.bLen := by
  induction body generalizing k with
  | nil => exact absurd rfl hne
  | cons v body ih =>
    obtain ⟨m, hend, hacc, hmcnt, hmstate, hraw, hcq, haux, hblen⟩ := rxBits_byteBits v hstate hcnt
    have hsplit : k.rxBits (bodyBits (v :: body)) = m.byteEnd.rxBits (bodyBits body) := by
      rw [bodyBits, List.flatMap_cons, rxBits_append, hend]
      rfl
    rw [hsplit, ← hraw, ← hcq, ← haux, ← hblen, ← hacc]
    cases body with
    | nil =>
      have hend0 : m.byteEnd = { m with
          raw := m.raw ++ [m.bAcc], cq := m.cq ++ [⟨m.raw ++ [m.bAcc], m.aux⟩], rxState := .search } :=
        if_pos ((rxCnt_eq_zero _).2 hmcnt)
      rw [hend0]
      exact ⟨rfl, rfl, rfl, rfl⟩
    | cons w body =>
      have hmore : m.byteEnd = { m with raw := m.raw ++ [m.bAcc] } :=
        if_neg fun h0 => by rw [rxCnt_eq_zero, hmcnt, List.length_cons] at h0; omega
      obtain ⟨hs, hq, ha, hb⟩ := ih (k := m.byteEnd) (by rw [hmore]; exact hmstate) (by rw [hmore]; exact hmcnt)
        (List.cons_ne_nil w body)
      rw [hs, hq, ha, hb, hmore, List.append_assoc]
      exact ⟨rfl, rfl, rfl, rfl⟩

/-- Header and body of a frame deliver the candidate, and the assembler searches again (43_correlator R118). -/
theorem rxBits_candidate {k : Block} (o : BitVec 4) {body : List Byte} (hbody : body.length ≤ 4095)
    (hstate : k.rxState = .header) (hcnt : k.rxCnt = 32) :
    (k.rxBits (headerBits o body.length ++ bodyBits body)).cq = k.cq ++ [⟨body, o⟩] ∧
      (k.rxBits (headerBits o body.length ++ bodyBits body)).rxState = .search ∧
      (k.rxBits (headerBits o body.length ++ bodyBits body)).aux = o ∧
      (k.rxBits (headerBits o body.length ++ bodyBits body)).bLen.toNat = body.length := by
  obtain ⟨haux, hblen, hraw, hrest⟩ := rxBits_headerBits o hbody hstate hcnt
  rw [rxBits_append]
  by_cases h0 : body.length = 0
  · obtain ⟨hs, hq⟩ := (if_pos h0).mp hrest
    obtain rfl := List.eq_nil_of_length_eq_zero h0
    exact ⟨hq, hs, haux, hblen⟩
  · obtain ⟨hs, hc, hq⟩ := (if_neg h0).mp hrest
    obtain ⟨hs', hq', ha', hb'⟩ := rxBits_bodyBits body hs hc (mt (congrArg List.length) h0)
    exact ⟨by rw [hq', hq, hraw, haux]; rfl, hs', ha'.trans haux, by rw [hb', hblen]⟩

/-- A run of `RXBIT` on a running block, as the machine's own operations. -/
theorem exec_rxbits (bs : List Bool) {s : State} (h : s.blk.Running) :
    execAll exec (bs.map .rxbit) s = .next { s with
      blk := s.blk.rxBits bs, responses := s.responses ++ List.replicate bs.length ⟨.r, .ok, []⟩ } := by
  rw [exec_fun, execAll_rxbits _ bs s h]

/-- Settles O26, from the bits of header and body. -/
theorem candidateDelivered : Obligations.CandidateDelivered := by
  unfold Obligations.CandidateDelivered
  intro s o body hrun hstate hcnt hbody
  obtain ⟨hq, hs, ha, hb⟩ := rxBits_candidate o hbody hstate hcnt
  exact ⟨_, exec_rxbits _ hrun, hq, hs, ha, hb, rxBits_evOut _ _⟩

/-! ### The search (43_correlator R113, R119) -/

theorem fillUp_of_lt {f : BitVec 7} (h : f.toNat < 64) : fillUp f = BitVec.ofNat 7 (f.toNat + 1) := by
  rw [fillUp, Nat.min_eq_left (by omega)]

/-- A searching receiver with less than `L` bits in its window finds nothing yet. -/
theorem rxBit_search_filling {k : Block} (b : Bool) (hstate : k.rxState = .search)
    (hfill : k.fill.toNat + 1 < k.acLen.toNat) (hL : k.acLen.toNat ≤ 64) :
    k.rxBit b = { k with sr := k.sr.shiftConcat b, fill := BitVec.ofNat 7 (k.fill.toNat + 1) } := by
  have hmiss : ¬ (k.shiftIn b).hit = true := fun h => by
    have hle := ((hit_iff _).1 h).1
    rw [Block.shiftIn_fill, Block.shiftIn_acLen, fillUp_toNat] at hle
    omega
  rw [rxBit_search k b hstate, Block.searchStep, if_neg hmiss, Block.shiftIn, fillUp_of_lt (by omega)]

/-- The bits that fill the window for the first time are compared once, when all of them are in. -/
theorem rxBits_search_filled (bs : List Bool) {k : Block} (hstate : k.rxState = .search)
    (hfill : k.fill.toNat + bs.length = k.acLen.toNat) (hne : bs ≠ []) (hL : k.acLen.toNat ≤ 64) :
    k.rxBits bs = Block.searchStep { k with
      sr := bs.foldl BitVec.shiftConcat k.sr, fill := BitVec.ofNat 7 k.acLen.toNat } := by
  induction bs generalizing k with
  | nil => exact absurd rfl hne
  | cons b bs ih =>
    rw [List.length_cons] at hfill
    cases bs with
    | nil =>
      rw [List.length_nil] at hfill
      rw [rxBits_cons, rxBit_search k b hstate, Block.shiftIn, fillUp_of_lt (by omega), hfill]
      rfl
    | cons c cs =>
      rw [List.length_cons] at hfill
      have hnat : (BitVec.ofNat 7 (k.fill.toNat + 1)).toNat = k.fill.toNat + 1 := by
        rw [BitVec.toNat_ofNat, Nat.mod_eq_of_lt (by omega)]
      rw [rxBits_cons, rxBit_search_filling b hstate (by omega) hL]
      refine ih hstate ?_ (List.cons_ne_nil c cs) hL
      show (BitVec.ofNat 7 (k.fill.toNat + 1)).toNat + _ = k.acLen.toNat
      rw [hnat, List.length_cons]
      omega

/-- Counting from the other end. -/
theorem countP_range_mirror (p : Nat → Bool) (n : Nat) :
    (List.range n).countP (fun i => p (n - 1 - i)) = (List.range n).countP p := by
  have hmirror : (List.range n).reverse = (List.range n).map (n - 1 - ·) := by
    rw [List.range_eq_range', List.reverse_range', List.range_eq_range']
    simp
  rw [← List.countP_reverse (l := List.range n) (p := p), hmirror, List.countP_map]
  rfl

/-- The errors of a received access code (43_correlator R119). -/
def codeErrors (k : Block) (code : List Bool) : Nat :=
  (List.range k.acLen.toNat).countP fun i => code[i]? != some (k.pat.getLsbD (k.acLen.toNat - 1 - i))

/-- With the code in the window the distance is the number of errors. -/
theorem distance_eq_codeErrors {k : Block} {code : List Bool} {x : BitVec 64} (hcode : code.length = k.acLen.toNat)
    (hL : k.acLen.toNat ≤ 64) (hsr : k.sr = code.foldl BitVec.shiftConcat x) : k.distance = codeErrors k code := by
  rw [distance_eq_countP hL, codeErrors, ← countP_range_mirror]
  refine List.countP_congr fun i hi => ?_
  have hi : i < k.acLen.toNat := List.mem_range.1 hi
  have hbit := foldl_shiftConcat_getLsbD code x (j := k.acLen.toNat - 1 - i) (by omega) (by omega)
  rw [hcode, show k.acLen.toNat - 1 - (k.acLen.toNat - 1 - i) = i by omega] at hbit
  rw [hsr, hbit]
  simp

/-- The comparison of a full window that holds the code. -/
theorem searchStep_code {k : Block} {code : List Bool} {x : BitVec 64} (hstate : k.rxState = .search)
    (hcode : code.length = k.acLen.toNat) (hL : k.acLen.toNat ≤ 64) (hfull : k.acLen.toNat ≤ k.fill.toNat)
    (hsr : k.sr = code.foldl BitVec.shiftConcat x) :
    k.searchStep.cq = k.cq ∧
      if codeErrors k code ≤ k.thr.toNat then k.searchStep.rxState = .header ∧ k.searchStep.rxCnt = 32
      else k.searchStep.rxState = .search := by
  rw [searchStep_eq, distance_eq_codeErrors hcode hL hsr]
  by_cases herr : codeErrors k code ≤ k.thr.toNat
  · rw [if_pos herr, if_pos ⟨hfull, herr⟩]
    exact ⟨rfl, rfl, rfl⟩
  · rw [if_neg herr, if_neg fun h => herr h.2]
    exact ⟨rfl, hstate⟩

/-- A receiver that has received nothing finds the code it is sent exactly when at most `THR` bits are wrong. -/
theorem rxBits_code {k : Block} {code : List Bool} (hstate : k.rxState = .search) (hfill : k.fill = 0)
    (hmin : 1 ≤ k.acLen.toNat) (hL : k.acLen.toNat ≤ 64) (hcode : code.length = k.acLen.toNat) :
    (k.rxBits code).cq = k.cq ∧
      if codeErrors k code ≤ k.thr.toNat then
        (k.rxBits code).rxState = .header ∧ (k.rxBits code).rxCnt = 32
      else (k.rxBits code).rxState = .search := by
  have hne : code ≠ [] := List.ne_nil_of_length_pos (by omega)
  have hfilled : k.fill.toNat + code.length = k.acLen.toNat := by rw [hfill, hcode]; exact Nat.zero_add _
  have hfull : k.acLen.toNat ≤ (BitVec.ofNat 7 k.acLen.toNat).toNat := by
    rw [BitVec.toNat_ofNat, Nat.mod_eq_of_lt k.acLen.isLt]
  rw [rxBits_search_filled code hstate hfilled hne hL]
  exact searchStep_code (x := k.sr) hstate hcode hL hfull rfl

/-- Code, header and body of a frame deliver the candidate where at most `THR` bits of the code are wrong. -/
theorem rxBits_frame_delivered {k : Block} {code : List Bool} (o : BitVec 4) {body : List Byte}
    (hstate : k.rxState = .search) (hfill : k.fill = 0) (hmin : 1 ≤ k.acLen.toNat) (hL : k.acLen.toNat ≤ 64)
    (hcode : code.length = k.acLen.toNat) (hbody : body.length ≤ 4095) (herr : codeErrors k code ≤ k.thr.toNat) :
    (k.rxBits (code ++ headerBits o body.length ++ bodyBits body)).cq = k.cq ++ [⟨body, o⟩] ∧
      (k.rxBits (code ++ headerBits o body.length ++ bodyBits body)).rxState = .search := by
  obtain ⟨hq, hfound⟩ := rxBits_code hstate hfill hmin hL hcode
  obtain ⟨hheader, hcnt⟩ := (if_pos herr).mp hfound
  obtain ⟨hq', hs', -, -⟩ := rxBits_candidate o hbody hheader hcnt
  rw [List.append_assoc, rxBits_append]
  exact ⟨by rw [hq', hq], hs'⟩

/-- Settles O27: the comparison after the `L`-th bit, then the candidate. -/
theorem syncWithinThreshold : Obligations.SyncWithinThreshold := by
  unfold Obligations.SyncWithinThreshold
  intro s code o body hrun hstate hfill hmin hL hcode hbody errors
  constructor
  · intro herr
    obtain ⟨hq, hs⟩ := rxBits_frame_delivered o hstate hfill hmin hL hcode hbody herr
    exact ⟨_, exec_rxbits _ hrun, hq, hs⟩
  · intro herr
    obtain ⟨hq, hmissed⟩ := rxBits_code hstate hfill hmin hL hcode
    exact ⟨_, exec_rxbits _ hrun, hq, (if_neg (Nat.not_le.2 herr)).mp hmissed⟩

/-! ### RXBYTE, and what the receive path does not read or write -/

/-- The single rule by which a running block takes an `RXBYTE` (43_correlator R117). -/
theorem execRxbyte_of_running {s : State} (v : Byte) (h : s.blk.Running) :
    execRxbyte v s = .next (s.complete .r (s.blk.rxBits (byteBits v)) .ok []) := by
  simp only [execRxbyte, gate_of_running _ h]

/-- Settles O25: both sides take the bits of `byteBits v`. -/
theorem rxbyteIsEightBits : Obligations.RxbyteIsEightBits := by
  unfold Obligations.RxbyteIsEightBits
  intro s v hrun
  have hbits := exec_rxbits (byteBits v) hrun
  rw [byteBits_eq] at hbits
  exact ⟨_, _, execRxbyte_of_running v hrun, hbits, rfl⟩

/-- Another pattern and threshold. -/
def Block.setPattern (k : Block) (p : BitVec 64) (n : BitVec 7) : Block := { k with pat := p, thr := n }

section pattern
variable (k : Block) (b : Bool) (p : BitVec 64) (n : BitVec 7)

/-- The end of a header does not look at the pattern (43_correlator R121). -/
theorem headerEnd_setPattern : (k.setPattern p n).headerEnd = k.headerEnd.setPattern p n := by
  simp only [headerEnd_eq, apply_ite (Block.setPattern · p n)]
  rfl

theorem headerStep_setPattern : (k.setPattern p n).headerStep b = (k.headerStep b).setPattern p n := by
  simp only [Block.headerStep, apply_ite (Block.setPattern · p n), ← headerEnd_setPattern]
  rfl

theorem bodyStep_setPattern : (k.setPattern p n).bodyStep b = (k.bodyStep b).setPattern p n := by
  simp only [Block.bodyStep, apply_ite (Block.setPattern · p n)]
  rfl

end pattern

/-- Settles O24: only the search compares with the pattern. -/
theorem framedIgnoresPattern : Obligations.FramedIgnoresPattern := by
  unfold Obligations.FramedIgnoresPattern
  intro k b p n hframed
  show (k.setPattern p n).rxBit b = (k.rxBit b).setPattern p n
  cases hstate : k.rxState with
  | search => exact absurd hstate hframed
  | header =>
    rw [rxBit_header k b hstate, rxBit_header (k.setPattern p n) b hstate]
    exact headerStep_setPattern (k.shiftIn b) b p n
  | body =>
    rw [rxBit_body k b hstate, rxBit_body (k.setPattern p n) b hstate]
    exact bodyStep_setPattern (k.shiftIn b) b p n

/-- An operation of port R that is not refused ends with some bits received. -/
theorem receives_of_exec {s t : State} {b : Bool} {v : Byte}
    (h : exec (.rxbit b) s = .next t ∨ exec (.rxbyte v) s = .next t) :
    ∃ (st : Status) (bs : List Bool), t = s.complete .r (s.blk.rxBits bs) st [] := by
  obtain h | h := h
  · obtain ⟨st, -, rfl⟩ | ⟨-, rfl⟩ := execRxbit_cases h
    · exact ⟨st, [], rfl⟩
    · exact ⟨.ok, [b], rfl⟩
  · obtain ⟨st, -, rfl⟩ | ⟨-, rfl⟩ := execRxbyte_cases h
    · exact ⟨st, [], rfl⟩
    · exact ⟨.ok, byteBits v, rfl⟩

/-- Settles O44, from the frame of received bits. -/
theorem receiveFrame : Obligations.ReceiveFrame := by
  unfold Obligations.ReceiveFrame
  intro s t b v h
  obtain ⟨st, bs, rfl⟩ := receives_of_exec h
  refine ⟨congrArg (fun k => s.complete .r k st []) (rxBits_frame bs s.blk), poolByte_congr ?_⟩
  rw [State.complete_blk, rxBits_frame]

end Sys2Proof.Machine
end

section
/-! The decode step DEC and the buffers it fills: DEC outcome by outcome (44_decoder_pool R124 to R130), exhaustion and
recovery (R136), BUFRD and REL (R132, R133), and the bytes that stay (R134). -/

namespace Sys2Proof.Machine

/-! ### DEC, outcome by outcome -/

section dec
variable {P : Config.Params} {s : State} {c : Candidate} {rest : List Candidate} {payload : List Byte}

theorem execDecWith_of_refused {r : Status × List Byte} (h : s.blk.decRefusal = some r) :
    execDecWith P s = .next (s.completeDec s.blk r.1 r.2) := by
  simp only [execDecWith, h]

theorem execDecWith_of_empty (hrun : s.blk.Running) (hstop : s.blk.stop = false) (hcq : s.blk.cq = []) :
    execDecWith P s = .next { s with decHeld := true } := by
  simp only [execDecWith, decRefusal_of_running _ hrun hstop, hcq]

theorem execDecWith_of_failure (hrun : s.blk.Running) (hstop : s.blk.stop = false) (hcq : s.blk.cq = c :: rest)
    (hd : decodeCandidate P c = .failure) :
    execDecWith P s = .next (s.completeDec (s.blk.postFail rest) .ok [0x02]) := by
  simp only [execDecWith, decRefusal_of_running _ hrun hstop, hcq, hd]

theorem execDecWith_of_success (hrun : s.blk.Running) (hstop : s.blk.stop = false) (hcq : s.blk.cq = c :: rest)
    (hd : decodeCandidate P c = .success payload) :
    execDecWith P s = .next (acquireAndPost P payload rest s) := by
  simp only [execDecWith, decRefusal_of_running _ hrun hstop, hcq, hd]

theorem execWith_dec_of_failure (hrun : s.blk.Running) (hstop : s.blk.stop = false) (hcq : s.blk.cq = c :: rest)
    (hunpack : P.unpack c.raw c.aux = (false, payload)) :
    execWith P .dec s = .next (s.completeDec (s.blk.postFail rest) .ok [0x02]) :=
  execDecWith_of_failure hrun hstop hcq (by simp [decodeCandidate, hunpack])

theorem acquireAndPost_of_exhausted (hnone : ∀ h : Nat, s.blk.own h ≠ some .free) :
    acquireAndPost P payload rest s = s.completeDec (s.blk.sleepBackoff P) .backoff [0x00] := by
  simp only [acquireAndPost, (freeHandles_eq_nil s.blk).2 hnone]

theorem acquireAndPost_of_long (hfree : ∃ h : Nat, s.blk.own h = some .free) (hlong : P.poolC < payload.length) :
    acquireAndPost P payload rest s = s.completeDec s.blk.flagFault .faulted [] := by
  obtain ⟨hnone, -⟩ | ⟨_, _, -, -, e⟩ | ⟨_, _, -, hfits, -⟩ := acquireAndPost_cases P payload rest s
  · obtain ⟨h, hh⟩ := hfree
    exact absurd hh (hnone h)
  · exact e
  · omega

end dec

/-- Settles O28: the refusal of a canceled block comes before the look at `CQ`. -/
theorem decCanceledOrHeld : Obligations.DecCanceledOrHeld := by
  unfold Obligations.DecCanceledOrHeld
  intro s hrun
  exact ⟨fun hstop => execDecWith_of_refused (decRefusal_of_stop _ hrun hstop),
    fun hstop hcq => execDecWith_of_empty hrun hstop hcq⟩

/-- Settles O29: the unpack decides first, then the free buffers, then the capacity. -/
theorem decDecides : Obligations.DecDecides := by
  unfold Obligations.DecDecides
  have completes : ∀ (P : Config.Params) (s : State) (c : Candidate) (rest : List Candidate), s.blk.Running →
      s.blk.stop = false → s.blk.cq = c :: rest → ∃ t, execWith P .dec s = .next t := by
    intro P s c rest hrun hstop hcq
    cases hunpack : P.unpack c.raw c.aux with
    | mk ok payload =>
      cases ok with
      | false => exact ⟨_, execWith_dec_of_failure hrun hstop hcq hunpack⟩
      | true => exact ⟨_, execWith_dec_of_success hrun hstop hcq hunpack⟩
  constructor
  · intro s c rest hrun hstop hcq
    obtain ⟨t, ht⟩ := completes Config.params s c rest hrun hstop hcq
    exact ⟨t, (exec_eq_execWith .dec s).trans ht, ht⟩
  · intro P s c rest ok payload hrun hstop hcq hunpack
    cases ok with
    | false =>
      exact ⟨_, execWith_dec_of_failure hrun hstop hcq hunpack, fun _ => rfl, nofun, nofun, nofun⟩
    | true =>
      refine ⟨_, execWith_dec_of_success hrun hstop hcq hunpack, nofun, fun _ hnone => ?exhausted,
        fun _ hfree hlong => ?long, fun _ hfree hfits => ?fits⟩
      case exhausted => exact acquireAndPost_of_exhausted hnone
      case long => exact acquireAndPost_of_long hfree hlong
      case fits =>
        obtain ⟨h, hh, e⟩ := acquireAndPost_of_fits (rest := rest) hfree hfits
        rw [e]
        exact ⟨h, hh, rfl, rfl, (handOver_own _ _ _ _ _ (own_lt _ _ _ hh)).trans (if_pos rfl), rfl, rfl⟩

/-! ### BUFRD -/

section bufrd
variable {P : Config.Params} {s : State} {h : Byte} {off : BitVec 16} {n : BitVec 13}

theorem exec_bufrd : exec (.bufrd h off) s = execBufrdWith Config.params h off s := rfl

/-- The offset is below the length of an `INFLIGHT` buffer, or outside every such buffer. -/
theorem inside_or_outside (k : Block) (h : Byte) (off : BitVec 16) :
    (∃ n : BitVec 13, k.own h.toNat = some .inflight ∧ k.len h.toNat = some n ∧ off.toNat < n.toNat) ∨
    ∀ n : BitVec 13, k.own h.toNat = some .inflight → k.len h.toNat = some n → n.toNat ≤ off.toNat := by
  refine or_iff_not_imp_left.2 fun hin n hown hlen => Nat.not_lt.1 fun hoff => ?_
  exact hin ⟨n, hown, hlen, hoff⟩

/-- Below the length of an `INFLIGHT` buffer `BUFRD` reads. -/
theorem execBufrdWith_of_inside (hrun : s.blk.Running) (hown : s.blk.own h.toNat = some .inflight)
    (hlen : s.blk.len h.toNat = some n) (hoff : off.toNat < n.toNat) :
    execBufrdWith P h off s = readOwned P h.toNat off.toNat s := by
  have hinf := (inflightLen_eq_some s.blk h n).2 ⟨hown, hlen⟩
  simp only [execBufrdWith, gate_of_running _ hrun, hinf, if_pos hoff]

/-- Everywhere else it answers `BADARG`. -/
theorem execBufrdWith_of_outside (hrun : s.blk.Running)
    (hout : ∀ n : BitVec 13, s.blk.own h.toNat = some .inflight → s.blk.len h.toNat = some n → n.toNat ≤ off.toNat) :
    execBufrdWith P h off s = .next (s.complete .b s.blk .badArg []) := by
  cases hinf : s.blk.inflightLen h with
  | none => simp only [execBufrdWith, gate_of_running _ hrun, hinf]
  | some n =>
    obtain ⟨hown, hlen⟩ := (inflightLen_eq_some s.blk h n).1 hinf
    simp only [execBufrdWith, gate_of_running _ hrun, hinf, if_neg (Nat.not_lt.2 (hout n hown hlen))]

end bufrd

theorem readOwned_of_some {P : Config.Params} {h off : Nat} {s : State} {v : Byte} (hoff : off < P.poolC)
    (hv : s.blk.poolByte h off = some v) : readOwned P h off s = .next (s.complete .b s.blk .ok [v]) := by
  simp only [readOwned, if_neg (Nat.not_le.2 hoff), hv]

theorem readOwned_of_missing {P : Config.Params} {h off : Nat} {s : State}
    (hmiss : P.poolC ≤ off ∨ s.blk.poolByte h off = none) :
    readOwned P h off s =
      .fault (if P.poolC ≤ off then .noSuchPoolByte h off else .unwrittenPoolByte h off) := by
  by_cases hoff : P.poolC ≤ off
  · simp only [readOwned, if_pos hoff]
  · simp only [readOwned, if_neg hoff, hmiss.resolve_left hoff]

/-- The outcomes of a `BUFRD` that answers, each with what it has read. -/
theorem execBufrdWith_reads {P : Config.Params} {s t : State} {h : Byte} {off : BitVec 16}
    (hexec : execBufrdWith P h off s = .next t) :
    (∃ st, s.blk.gate = some st ∧ t = s.complete .b s.blk st []) ∨
    (s.blk.Running ∧ (∀ n : BitVec 13, s.blk.own h.toNat = some .inflight → s.blk.len h.toNat = some n →
      n.toNat ≤ off.toNat) ∧ t = s.complete .b s.blk .badArg []) ∨
    (s.blk.Running ∧ ∃ (n : BitVec 13) (v : Byte), s.blk.own h.toNat = some .inflight ∧ s.blk.len h.toNat = some n ∧
      off.toNat < n.toNat ∧ off.toNat < P.poolC ∧ s.blk.poolByte h.toNat off.toNat = some v ∧
      t = s.complete .b s.blk .ok [v]) := by
  cases hgate : s.blk.gate with
  | some st =>
    simp only [execBufrdWith, hgate] at hexec
    cases hexec
    exact .inl ⟨st, rfl, rfl⟩
  | none =>
    have hrun := (gate_eq_none _).1 hgate
    obtain ⟨n, hown, hlen, hoff⟩ | hout := inside_or_outside s.blk h off
    · rw [execBufrdWith_of_inside hrun hown hlen hoff] at hexec
      have hthere : ¬ (P.poolC ≤ off.toNat ∨ s.blk.poolByte h.toNat off.toNat = none) := fun hmiss => by
        rw [readOwned_of_missing hmiss] at hexec
        cases hexec
      push Not at hthere
      obtain ⟨hcap, hbyte⟩ := hthere
      obtain ⟨v, hv⟩ := Option.ne_none_iff_exists'.1 hbyte
      rw [readOwned_of_some hcap hv] at hexec
      cases hexec
      exact .inr (.inr ⟨hrun, n, v, hown, hlen, hoff, hcap, hv, rfl⟩)
    · rw [execBufrdWith_of_outside hrun hout] at hexec
      cases hexec
      exact .inr (.inl ⟨hrun, hout, rfl⟩)

/-- Settles O34: inside the buffer the read, outside it `BADARG`. -/
theorem bufrdOperation : Obligations.BufrdOperation := by
  unfold Obligations.BufrdOperation
  intro s h off hrun
  constructor
  · intro n v hown hlen hoff hcap hv
    have hread : off.toNat < Config.params.poolC := Nat.lt_of_lt_of_le hoff hcap
    rw [exec_bufrd, execBufrdWith_of_inside hrun hown hlen hoff, readOwned_of_some hread hv, State.complete_self]
  · intro hout
    rw [exec_bufrd, execBufrdWith_of_outside hrun hout, State.complete_self]

/-- Where the pool invariant holds, `BUFRD` answers (20_memory R43). -/
theorem execBufrdWith_answers {P : Config.Params} {s : State} (h : Byte) (off : BitVec 16) (hk : s.blk.PoolOk P) :
    ∃ t, execBufrdWith P h off s = .next t := by
  cases hgate : s.blk.gate with
  | some st => exact ⟨_, by simp only [execBufrdWith, hgate]; rfl⟩
  | none =>
    have hrun := (gate_eq_none _).1 hgate
    obtain ⟨n, hown, hlen, hoff⟩ | hout := inside_or_outside s.blk h off
    · obtain ⟨b, hb, hbown, hblen⟩ := own_len _ _ _ hown
      obtain rfl : b.len = n := Option.some_inj.1 (hblen.symm.trans hlen)
      obtain ⟨v, hv⟩ := Option.isSome_iff_exists.1 (hk.written _ b hb hbown _ hoff)
      have hcap := hk.bounded _ b hb
      exact ⟨_, (execBufrdWith_of_inside hrun hown hlen hoff).trans (readOwned_of_some (by omega) hv)⟩
    · exact ⟨_, execBufrdWith_of_outside hrun hout⟩

/-- Settles O35: under the invariant the byte is there; without it the read names what is missing. -/
theorem bufrdNeverFaults : Obligations.BufrdNeverFaults := by
  unfold Obligations.BufrdNeverFaults
  constructor
  · intro s h off hk
    exact execBufrdWith_answers h off hk
  · intro s h off n hrun hown hlen hoff hmiss
    exact (execBufrdWith_of_inside hrun hown hlen hoff).trans (readOwned_of_missing hmiss)

/-! ### REL -/

section rel
variable {s : State} {h : Byte}

theorem execRel_of_inflight (hrun : s.blk.Running) (hown : s.blk.own h.toNat = some .inflight) :
    execRel h s = .next (s.complete .b (s.blk.setOwn h.toNat .free) .ok []) := by
  obtain ⟨b, -, -, hlen⟩ := own_len _ _ _ hown
  have hinf := (inflightLen_eq_some s.blk h b.len).2 ⟨hown, hlen⟩
  simp only [execRel, gate_of_running _ hrun, hinf]

theorem execRel_of_not_inflight (hrun : s.blk.Running) (hown : s.blk.own h.toNat ≠ some .inflight) :
    execRel h s = .next (s.complete .b s.blk .badArg []) := by
  simp only [execRel, gate_of_running _ hrun, (inflightLen_eq_none s.blk h).2 hown]

end rel

/-- A change of ownership keeps the length. -/
theorem setOwn_len (k : Block) (h : Nat) (o : Ownership) (g : Nat) : (k.setOwn h o).len g = k.len g := by
  unfold Block.len
  rw [setOwn_get]
  split
  · rw [Option.map_map]
    rfl
  · rfl

theorem setOwn_eq_set {k : Block} {h : Nat} {o : Ownership} {n : BitVec 13} (hlen : k.len h = some n) :
    k.setOwn h o = { k with pool := k.pool.set h ⟨o, n⟩ } := by
  have hpool : k.pool.modify h (fun b => { b with own := o }) = k.pool.set h ⟨o, n⟩ := by
    obtain ⟨b, hb, rfl⟩ := Option.map_eq_some_iff.1 hlen
    refine List.ext_getElem? fun g => ?_
    rw [List.getElem?_modify, List.getElem?_set]
    split
    · rename_i hg
      obtain ⟨hlt, -⟩ := List.getElem?_eq_some_iff.1 hb
      rw [← hg, hb, if_pos hlt]
      rfl
    · exact Option.map_id'
  rw [Block.setOwn, hpool]

/-- Settles O36: the first `REL` frees the buffer, the second finds it `FREE`. -/
theorem relOperation : Obligations.RelOperation := by
  unfold Obligations.RelOperation
  intro s h hrun
  constructor
  · intro n hown hlen
    have hfreed : (s.blk.setOwn h.toNat .free).own h.toNat ≠ some .inflight := by
      rw [setOwn_own, if_pos rfl, hown]
      nofun
    exact ⟨_, execRel_of_inflight hrun hown, setOwn_eq_set hlen, rfl,
      execRel_of_not_inflight (s := s.complete .b (s.blk.setOwn h.toNat .free) .ok []) hrun hfreed⟩
  · intro hown
    exact execRel_of_not_inflight hrun hown

/-- What fits a buffer stays within its own addresses (log 14). -/
theorem le_poolStride {P : Config.Params} (hP : P.SizesFit) {n : Nat} (h : n ≤ P.poolC) : n ≤ poolStride := by
  have := hP.2.2.2
  unfold poolStride
  omega

/-! ### Exhaustion and recovery (44_decoder_pool R136) -/

/-- No buffer is free and a good candidate waits. -/
structure Exhausted (P : Config.Params) (k : Block) (c : Candidate) (rest : List Candidate) (payload : List Byte) :
    Prop where
  running : k.Running
  uncanceled : k.stop = false
  waiting : k.cq = c :: rest
  unpacks : P.unpack c.raw c.aux = (true, payload)
  noneFree : ∀ g : Nat, k.own g ≠ some .free

section exhausted
variable {P : Config.Params} {s : State} {c : Candidate} {rest : List Candidate} {payload : List Byte}

theorem Exhausted.dec (hx : Exhausted P s.blk c rest payload) :
    execWith P .dec s = .next (s.completeDec (s.blk.sleepBackoff P) .backoff [0x00]) := by
  rw [execWith_dec_of_success hx.running hx.uncanceled hx.waiting hx.unpacks, acquireAndPost_of_exhausted hx.noneFree]

/-- Any number of `DEC`s on an exhausted pool touch the backoff timer only. -/
theorem Exhausted.decs (n : Nat) (hx : Exhausted P s.blk c rest payload) :
    ∃ t, execAll (execWith P) (List.replicate n .dec) s = .next t ∧
      t.blk = { s.blk with bkoTmr := t.blk.bkoTmr } ∧
      t.responses = s.responses ++ List.replicate n ⟨.d, .backoff, [0x00]⟩ := by
  induction n generalizing s with
  | zero => exact ⟨s, rfl, rfl, (List.append_nil _).symm⟩
  | succ n ih =>
    obtain ⟨t, ht, hblk, hresp⟩ := ih (s := s.completeDec (s.blk.sleepBackoff P) .backoff [0x00])
      ⟨hx.running, hx.uncanceled, hx.waiting, hx.unpacks, hx.noneFree⟩
    refine ⟨t, ?_, hblk, ?_⟩
    · rw [List.replicate_succ, execAll_cons hx.dec, ht]
    · rw [hresp, State.completeDec_responses, List.append_assoc, List.replicate_succ]
      rfl

/-- Once a buffer is returned the waiting candidate goes into that buffer, it being the only one `FREE`. -/
theorem Exhausted.recovers {h : Byte} (hx : Exhausted P s.blk c rest payload)
    (hown : s.blk.own h.toNat = some .inflight) (hfits : payload.length ≤ P.poolC) :
    execAll (execWith P) [.rel h, .dec] s =
      .next ((s.complete .b (s.blk.setOwn h.toNat .free) .ok []).completeDec
        ((s.blk.setOwn h.toNat .free).handOver h.toNat payload rest) .ok [0x01]) := by
  have hfreed : ∀ g : Nat, (s.blk.setOwn h.toNat .free).own g = some .free → g = h.toNat := by
    intro g hg
    rw [setOwn_own] at hg
    split at hg
    · exact Eq.symm ‹_›
    · exact absurd hg (hx.noneFree g)
  have hself : (s.blk.setOwn h.toNat .free).own h.toNat = some .free := by
    rw [setOwn_own, if_pos rfl, hown]
    rfl
  obtain ⟨g, hg, hpost⟩ := acquireAndPost_of_fits (P := P) (rest := rest)
    (s := s.complete .b (s.blk.setOwn h.toNat .free) .ok []) ⟨h.toNat, hself⟩ hfits
  obtain rfl := hfreed g hg
  have hrel : execWith P (.rel h) s = _ := execRel_of_inflight hx.running hown
  rw [execAll_cons hrel, execAll_singleton]
  exact (execWith_dec_of_success (s := s.complete .b (s.blk.setOwn h.toNat .free) .ok []) hx.running hx.uncanceled
    hx.waiting hx.unpacks).trans (congrArg _ hpost)

end exhausted

/-- Settles O31: the `DEC`s back off, the `REL` frees the one buffer that the last `DEC` then fills. -/
theorem exhaustionRecovers : Obligations.ExhaustionRecovers := by
  unfold Obligations.ExhaustionRecovers
  intro P s c rest payload n h hP hrun hstop hcq hunpack hfits hnone hown
  obtain ⟨t, ht, hblk, hresp⟩ := Exhausted.decs (s := s) n ⟨hrun, hstop, hcq, hunpack, hnone⟩
  have hxt : Exhausted P t.blk c rest payload := by
    rw [hblk]
    exact ⟨hrun, hstop, hcq, hunpack, hnone⟩
  have hpool : t.blk.pool = s.blk.pool := by rw [hblk]
  have hownt : t.blk.own h.toNat = some .inflight := (own_congr hpool _).trans hown
  have hstride := le_poolStride hP hfits
  have hlt : h.toNat < (t.blk.setOwn h.toNat .free).pool.length := by
    rw [Block.setOwn_pool, List.length_modify]
    exact own_lt _ _ _ hownt
  have hget : ((t.blk.setOwn h.toNat .free).handOver h.toNat payload rest).pool[h.toNat]? = _ :=
    (handOver_get _ _ payload rest _ hlt).trans (if_pos rfl)
  refine ⟨t, _, BitVec.ofNat 13 payload.length, ht, ?before, hresp, hxt.recovers hownt hfits, rfl, ?event, ?owners,
    len_of_get _ _ _ hget, len_toNat _ _ hfits hP.2.2.2, poolByte_handOver_inside _ _ payload rest hstride, ?answers⟩
  case before => rw [hblk]
  case event =>
    have hev : t.blk.evOut = s.blk.evOut := by rw [hblk]
    rw [← hev]
    rfl
  case owners =>
    intro g
    rw [State.completeDec_blk, handOver_own _ _ payload rest _ hlt, setOwn_own]
    split
    · rename_i hg
      rw [← hg, hown]
    · exact own_congr hpool g
  case answers => exact List.append_assoc ..

/-! ### The bytes that stay (44_decoder_pool R134) -/

/-- A change other than `RESET` leaves the bytes of every buffer that is not `FREE`. -/
theorem BlockChange.bytes {P : Config.Params} {k l : Block} {i : Instr} {st : Status} (hP : P.SizesFit)
    (hc : BlockChange P k i st l) (hi : i ≠ .reset) {h : Nat} (hown : k.own h ≠ some .free) (off : Nat) :
    l.poolByte h off = k.poolByte h off := by
  cases hc with
  | reset => exact absurd rfl hi
  | handedOver _ _ _ hfree hfits =>
    refine poolByte_handOver_outside k _ _ _ (le_poolStride hP hfits) h off fun hsame => hown ?_
    rw [hsame.1]
    exact grant_free P k _ _ hfree
  | received => exact poolByte_congr (by rw [rxBits_frame]) h off
  | encoded => exact poolByte_congr (by rw [Block.encodeDatagram_eq]) h off
  | kept | configError | constructed | stopped | idled | drained | failed | backedOff | overflowed | released => rfl

/-- Settles O33: an `INFLIGHT` buffer is not `FREE`. -/
theorem inflightBytesStable : Obligations.InflightBytesStable := by
  unfold Obligations.InflightBytesStable
  intro i s t h off hexec hi hown
  obtain ⟨_, hc⟩ := exec_blockChange hexec
  exact hc.bytes params_sizesFit hi (by rw [hown]; nofun) off

/-! ### Frames -/

/-- Settles O46, outcome by outcome. -/
theorem bufferFrame : Obligations.BufferFrame := by
  unfold Obligations.BufferFrame
  constructor
  · intro s t h off hexec
    obtain ⟨_, _, rfl⟩ := execBufrdWith_cases hexec
    exact ⟨rfl, fun _ _ => rfl⟩
  · intro s t h hexec
    obtain ⟨_, -, rfl⟩ | ⟨-, -, rfl⟩ | ⟨-, -, rfl⟩ := execRel_cases hexec
    · exact ⟨rfl, fun _ _ => rfl, fun _ => rfl, fun _ _ => rfl⟩
    · exact ⟨rfl, fun _ _ => rfl, fun _ => rfl, fun _ _ => rfl⟩
    · exact ⟨rfl, fun g hg => (setOwn_get s.blk h.toNat .free g).trans (if_neg (Ne.symm hg)), setOwn_len _ _ _,
        fun _ _ => rfl⟩

/-- What a `DEC` leaves of the block (44_decoder_pool R124 to R129). -/
def DecKeeps (P : Config.Params) (k l : Block) : Prop :=
  l = { k with fault := l.fault, cq := l.cq, pool := l.pool, mem := l.mem, evOut := l.evOut, bkoTmr := l.bkoTmr } ∧
  (∀ g : Nat, k.own g ≠ some .free → l.pool[g]? = k.pool[g]?) ∧
  ∀ g off : Nat,
    (∀ (c : Candidate) (rest : List Candidate) (h0 : Nat) (hs : List Nat), k.cq = c :: rest →
      k.freeHandles = h0 :: hs → g = grant P h0 hs → (P.unpack c.raw c.aux).2.length ≤ off) →
    l.poolByte g off = k.poolByte g off

theorem handOver_decKeeps {P : Config.Params} (hP : P.SizesFit) {k : Block} {c : Candidate} {rest : List Candidate}
    {h0 : Nat} {hs : List Nat} (hcq : k.cq = c :: rest) (hfree : k.freeHandles = h0 :: hs)
    (hfits : (P.unpack c.raw c.aux).2.length ≤ P.poolC) :
    DecKeeps P k (k.handOver (grant P h0 hs) (P.unpack c.raw c.aux).2 rest) := by
  have hgrant := grant_free P k h0 hs hfree
  have hstride := le_poolStride hP hfits
  refine ⟨rfl, fun g hg => ?_, fun g off hout => ?_⟩
  · rw [handOver_get _ _ _ _ _ (own_lt _ _ _ hgrant)]
    exact if_neg fun (e : grant P h0 hs = g) => hg (e ▸ hgrant)
  · refine poolByte_handOver_outside _ _ _ _ hstride g off fun hin => ?_
    exact absurd (hout c rest h0 hs hcq hfree hin.1) (Nat.not_le.2 hin.2)

theorem BlockChange.decKeeps {P : Config.Params} {k l : Block} {st : Status} (hP : P.SizesFit)
    (hc : BlockChange P k .dec st l) : DecKeeps P k l := by
  cases hc with
  | received hport => cases hport
  | handedOver _ hcq hpayload hfree hfits =>
    subst hpayload
    exact handOver_decKeeps hP hcq hfree hfits
  | kept | failed | backedOff | overflowed => exact ⟨rfl, fun _ _ => rfl, fun _ _ _ => rfl⟩

/-- Settles O45, from what a `DEC` keeps of the block. -/
theorem decodeFrame : Obligations.DecodeFrame := by
  unfold Obligations.DecodeFrame
  intro s t hexec
  obtain ⟨-, -, -, rfl⟩ | ⟨k, st, rs, hc, rfl⟩ := execDecWith_ends hexec
  · exact ⟨rfl, fun _ _ => rfl, fun _ _ _ => rfl⟩
  · obtain ⟨hframe, hpool, hbytes⟩ := hc.decKeeps params_sizesFit
    exact ⟨congrArg (fun k => s.completeDec k st rs) hframe, hpool, hbytes⟩

end Sys2Proof.Machine
end

section
/-! Rules over all operations: the gate (60_exceptions R150), refusals (R147), the flags (10_state R15 to R18), and
events and candidates (44_decoder_pool R135). -/

namespace Sys2Proof.Machine

/-! ### The gate -/

/-- An operation the gate refuses answers the gate's status and leaves the block. -/
theorem execWith_of_gate {P : Config.Params} {i : Instr} {s : State} {st : Status} (hi : isStreaming i = true)
    (hgate : s.blk.gate = some st) : execWith P i s = .next (s.finish i s.blk st []) := by
  cases i with
  | nop | reset | cfg | cancel | rdcsr => cases hi
  | txev => simp only [execWith, execTxevWith, hgate]; rfl
  | txdrain => simp only [execWith, execTxdrainWith, hgate]; rfl
  | rxbit => simp only [execWith, execRxbit, hgate]; rfl
  | rxbyte => simp only [execWith, execRxbyte, hgate]; rfl
  | dec =>
    have hrefused : s.blk.decRefusal = some (st, []) := by simp only [Block.decRefusal, hgate]
    exact execDecWith_of_refused hrefused
  | bufrd => simp only [execWith, execBufrdWith, hgate]; rfl
  | rel => simp only [execWith, execRel, hgate]; rfl

/-- How a streaming operation ends, with the hold of a `DEC` gone. -/
theorem finish_of_streaming {i : Instr} (s : State) (k : Block) (st : Status) (rs : List Byte)
    (hi : isStreaming i = true) : s.finish i k st rs = { s with
      blk := k, decHeld := if i = .dec then false else s.decHeld
      responses := s.responses ++ [⟨i.port, st, rs⟩] } := by
  obtain ⟨rfl, e⟩ | ⟨rfl | rfl, -⟩ | ⟨hdec, -, -, e⟩ := s.finish_cases i k st rs
  · exact e
  · cases hi
  · cases hi
  · rw [e, if_neg hdec]
    rfl

/-- Settles O37: `FAULT` is looked at before `READY`. -/
theorem gateAnswers : Obligations.GateAnswers := by
  unfold Obligations.GateAnswers
  intro i s hi
  constructor
  · intro hfault
    rw [exec_eq_execWith, execWith_of_gate hi (gate_of_fault _ hfault), finish_of_streaming s _ _ _ hi]
  · intro hfault hready
    rw [exec_eq_execWith, execWith_of_gate hi (gate_of_unready _ hfault hready), finish_of_streaming s _ _ _ hi]

/-! ### Refusals -/

/-- The statuses of operations that did nothing. -/
def refusals : List Status := [.notReady, .badState, .badArg, .illegal, .faulted, .tooLong]

/-- A change answered with a refusal is none, but for the `DEC` that raises `FAULT`. -/
theorem BlockChange.eq_of_refusal {P : Config.Params} {k l : Block} {i : Instr} {st : Status}
    (hc : BlockChange P k i st l) (hst : st ∈ refusals) (hfault : st = .faulted → k.fault = true) : l = k := by
  cases hc with
  | kept => rfl
  | overflowed hrun => exact absurd (hfault rfl) (Bool.eq_false_iff.1 hrun.1)
  | reset | configError | constructed | stopped | encoded | idled | drained | received | failed | backedOff | handedOver
  | released => exact absurd hst (by decide)

/-- The end of a hold gives at most one response, on port D, and none where no `DEC` is held. -/
theorem endHold_responses (s : State) :
    ∃ extra, s.endHold.responses = s.responses ++ extra ∧ ∀ r ∈ extra, r.port = .d ∧ s.decHeld = true := by
  obtain h | ⟨r, hheld, -, h⟩ := endHold_cases s <;> rw [h]
  · exact ⟨[], (List.append_nil _).symm, nofun⟩
  · refine ⟨[⟨.d, r.1, r.2⟩], rfl, fun r' hr' => ?_⟩
    rw [List.mem_singleton.1 hr']
    exact ⟨rfl, hheld⟩

/-- The responses an operation gives: its own, and the one of a hold that it ends. -/
theorem finish_responses (s : State) (i : Instr) (k : Block) (st : Status) (rs : List Byte) :
    ∃ extra, (s.finish i k st rs).responses = s.responses ++ ⟨i.port, st, rs⟩ :: extra ∧
      ∀ r ∈ extra, r.port ≠ i.port ∧ s.decHeld = true := by
  obtain ⟨rfl, e⟩ | ⟨hi, e⟩ | ⟨-, -, -, e⟩ := s.finish_cases i k st rs <;> rw [e]
  · exact ⟨[], rfl, nofun⟩
  · have hport : i.port = .c := by obtain rfl | rfl := hi <;> rfl
    obtain ⟨extra, hextra, hheld⟩ := endHold_responses (s.complete .c k st rs)
    refine ⟨extra, ?_, fun r hr => ⟨?_, (hheld r hr).2⟩⟩
    · rw [hextra, State.complete_responses, List.append_assoc, hport]
      rfl
    · rw [(hheld r hr).1, hport]
      nofun
  · exact ⟨[], rfl, nofun⟩

/-- A new response of an operation is its own, unless the operation ended a hold. -/
theorem exec_eq_of_refusal {i : Instr} {s t : State} {r : Response} (hexec : exec i s = .next t)
    (hr : r ∈ t.responses.drop s.responses.length) (hown : r.port = i.port ∨ s.decHeld = false)
    (hst : r.status ∈ refusals) (hfault : r.status = .faulted → s.blk.fault = true) : t.blk = s.blk := by
  rw [exec_eq_execWith] at hexec
  obtain ⟨-, -, -, -, rfl⟩ | ⟨k, st, rs, hc, rfl⟩ := execWith_cases hexec
  · rfl
  obtain ⟨extra, hresp, hextra⟩ := finish_responses s i k st rs
  rw [hresp, List.drop_left] at hr
  rw [State.finish_blk]
  obtain rfl | hr := List.mem_cons.1 hr
  · exact hc.eq_of_refusal hst hfault
  · obtain ⟨hport, hheld⟩ := hextra r hr
    exact (hown.elim hport fun h => absurd hheld (Bool.eq_false_iff.1 h)).elim

/-- A bit step answers `OK` or nothing. -/
theorem rxContinue_responses (now later : List Bool) (s : State) {r : Response}
    (hr : r ∈ (rxContinue now later s).responses.drop s.responses.length) : r.status = .ok := by
  obtain ⟨-, e⟩ | ⟨-, e⟩ := rxContinue_cases now later s <;> rw [e] at hr
  · have hr : r ∈ (s.responses ++ [(⟨.r, .ok, []⟩ : Response)]).drop s.responses.length := hr
    rw [List.drop_left, List.mem_singleton] at hr
    rw [hr]
  · have hr : r ∈ s.responses.drop s.responses.length := hr
    rw [List.drop_length] at hr
    cases hr

/-- Settles O38: the change behind a refusal is none, and a step is one operation or leaves the block by itself. -/
theorem refusalsChangeNothing : Obligations.RefusalsChangeNothing := by
  unfold Obligations.RefusalsChangeNothing
  constructor
  · intro i s t r hexec hr hport hst hfault
    have hall : ∀ st ∈ [Status.notReady, .badState, .badArg, .faulted, .tooLong], st ∈ refusals := by decide
    exact exec_eq_of_refusal hexec hr (.inl hport) (hall _ hst) hfault
  · intro s t r hheld hstep hr hst hfault
    obtain ⟨u, ⟨hblk, huheld, -, hresp⟩, hcases⟩ := stepWith_cases hstep
    rw [← hresp] at hr
    rw [← hblk] at hfault ⊢
    obtain rfl | ⟨i, hexec⟩ | ⟨p, rfl⟩ | ⟨st, -, rfl⟩ | ⟨now, later, -, rfl⟩ := hcases
    · rfl
    · exact exec_eq_of_refusal hexec hr (.inr (huheld.trans hheld)) hst hfault
    · rfl
    · rfl
    · rw [rxContinue_responses now later u hr] at hst
      exact absurd hst (by decide)

/-! ### The flags and the configuration -/

section flags
variable {P : Config.Params} {k l : Block} {i : Instr} {st : Status}

theorem BlockChange.stop_eq (hc : BlockChange P k i st l) (hreset : i ≠ .reset) (hcancel : i ≠ .cancel) :
    l.stop = k.stop := by
  cases hc with
  | reset => exact absurd rfl hreset
  | stopped => exact absurd rfl hcancel
  | encoded => rw [Block.encodeDatagram_eq]
  | received => rw [rxBits_frame]
  | kept | configError | constructed | idled | drained | failed | backedOff | overflowed | handedOver | released => rfl

theorem BlockChange.fault_eq (hc : BlockChange P k i st l) (hreset : i ≠ .reset) (hdec : i ≠ .dec) :
    l.fault = k.fault := by
  cases hc with
  | reset => exact absurd rfl hreset
  | failed | backedOff | overflowed | handedOver => exact absurd rfl hdec
  | constructed hfault => exact hfault.symm
  | encoded => rw [Block.encodeDatagram_eq]
  | received => rw [rxBits_frame]
  | kept | configError | stopped | idled | drained | released => rfl

theorem BlockChange.stop_of_stop (hc : BlockChange P k i st l) (hreset : i ≠ .reset) (hk : k.stop = true) :
    l.stop = true := by
  by_cases hcancel : i = .cancel
  · subst hcancel
    cases hc with
    | received hport => cases hport
    | kept => exact hk
    | stopped => rfl
  · exact (hc.stop_eq hreset hcancel).trans hk

theorem BlockChange.fault_of_fault (hc : BlockChange P k i st l) (hreset : i ≠ .reset) (hk : k.fault = true) :
    l.fault = true := by
  by_cases hdec : i = .dec
  · subst hdec
    cases hc with
    | received hport => cases hport
    | kept | failed | backedOff | handedOver => exact hk
    | overflowed => rfl
  · exact (hc.fault_eq hreset hdec).trans hk

theorem BlockChange.of_reset (hc : BlockChange P k .reset st l) : l = k ∨ l = Block.resetWith P.poolN := by
  cases hc with
  | kept => exact .inl rfl
  | reset => exact .inr rfl
  | received hport => cases hport

/-- `RESET` sets no flag that it clears. -/
theorem BlockChange.ne_reset_of_set (hc : BlockChange P k i st l) {flag : Block → Bool}
    (hclear : flag (Block.resetWith P.poolN) = false) (hk : flag k = false) (hl : flag l = true) : i ≠ .reset := by
  rintro rfl
  obtain rfl | rfl := hc.of_reset
  · exact absurd hl (Bool.eq_false_iff.1 hk)
  · exact absurd hl (Bool.eq_false_iff.1 hclear)

end flags

/-- Settles O39, flag by flag, from the change of the block. -/
theorem flagsAndConfiguration : Obligations.FlagsAndConfiguration := by
  unfold Obligations.FlagsAndConfiguration
  refine ⟨exec_eq_execWith, fun P i s t hexec => ?_⟩
  obtain ⟨st, hc⟩ := execWith_blockChange hexec
  refine ⟨fun hs ht => ?readySet, fun hs ht => ?stopSet, fun hs ht => ?faultSet, fun hne => ?error, fun hi => ?kept⟩
  case readySet =>
    have hi := hc.ne_reset_of_set (flag := Block.ready) rfl hs ht
    by_contra hcfg
    have hsame := hc.sameConfig hi (.inl (Bool.eq_false_iff.2 hcfg))
    exact absurd (hsame.ready.symm.trans ht) (Bool.eq_false_iff.1 hs)
  case stopSet =>
    have hi := hc.ne_reset_of_set (flag := Block.stop) rfl hs ht
    by_contra hcancel
    exact absurd ((hc.stop_eq hi hcancel).symm.trans ht) (Bool.eq_false_iff.1 hs)
  case faultSet =>
    have hi := hc.ne_reset_of_set (flag := Block.fault) rfl hs ht
    by_contra hdec
    exact absurd ((hc.fault_eq hi hdec).symm.trans ht) (Bool.eq_false_iff.1 hs)
  case error =>
    by_contra hneither
    push Not at hneither
    obtain ⟨hcfg, hi⟩ := hneither
    have hsame := hc.sameConfig hi (.inl (Bool.eq_false_iff.2 hcfg))
    exact hne.elim (fun h => h hsame.cfgErr) (fun h => h hsame.cfgCause)
  case kept =>
    refine ⟨fun hready => ?_, hc.stop_of_stop hi, hc.fault_of_fault hi, fun hready => ?_⟩
    · exact (hc.sameConfig hi (.inr hready)).ready.trans hready
    · have hsame := hc.sameConfig hi (.inr hready)
      exact ⟨hsame.acLen, hsame.pat, hsame.thr, hsame.wen, hsame.sps, hsame.bps⟩

/-! ### Events and candidates -/

/-- At most one event was posted, by a `DEC` that took the head of `CQ` (44_decoder_pool R135). -/
def EventStep (i : Instr) (k l : Block) : Prop :=
  ∃ es, l.evOut = k.evOut ++ es ∧ es.length ≤ 1 ∧ (es ≠ [] → i = .dec ∧ l.cq = k.cq.drop 1) ∧
    (i = .dec → l.evOut.length + l.cq.length = k.evOut.length + k.cq.length)

theorem EventStep.none {i : Instr} {k l : Block} (hev : l.evOut = k.evOut) (hcq : i = .dec → l.cq = k.cq) :
    EventStep i k l :=
  ⟨[], hev.trans (List.append_nil _).symm, Nat.zero_le 1, fun h => absurd rfl h, fun hdec => by rw [hev, hcq hdec]⟩

theorem EventStep.one {k l : Block} (e : Event) {c : Candidate} {rest : List Candidate} (hk : k.cq = c :: rest)
    (hev : l.evOut = k.evOut ++ [e]) (hcq : l.cq = rest) : EventStep .dec k l := by
  refine ⟨[e], hev, Nat.le_refl 1, fun _ => ⟨rfl, by rw [hcq, hk]; rfl⟩, fun _ => ?_⟩
  rw [hev, hcq, hk, List.length_append, List.length_singleton, List.length_cons]
  omega

theorem BlockChange.events {P : Config.Params} {k l : Block} {i : Instr} {st : Status} (hc : BlockChange P k i st l)
    (hi : i ≠ .reset) (hcfg : isCfg i = false) : EventStep i k l := by
  cases hc with
  | reset => exact absurd rfl hi
  | configError | constructed => cases hcfg
  | received hport =>
    refine .none (rxBits_evOut k _) fun hdec => ?_
    rw [hdec] at hport
    cases hport
  | encoded => exact .none (by rw [Block.encodeDatagram_eq]) nofun
  | failed _ hcq | handedOver _ hcq => exact .one _ hcq rfl rfl
  | kept | stopped | idled | drained | backedOff | overflowed | released => exact .none rfl fun _ => rfl

/-- Settles O41, from the change of the block. -/
theorem eventsFollowCandidates : Obligations.EventsFollowCandidates := by
  unfold Obligations.EventsFollowCandidates
  intro i s t hexec hi hcfg
  obtain ⟨_, hc⟩ := exec_blockChange hexec
  exact hc.events hi hcfg

end Sys2Proof.Machine
end

section
/-! The independence of the two paths (20_memory R57): what the receive side does not read or write are the registers
that the transmit side writes, and the other way round. -/

namespace Sys2Proof.Machine

/-- The block with the registers that port T writes taken from `x`. -/
def Block.withTx (k x : Block) : Block :=
  { k with pq := x.pq, wOff := x.wOff, txOut := x.txOut, idleTmr := x.idleTmr }

section withTx
variable (k x : Block)

@[simp] theorem Block.withTx_cq : (k.withTx x).cq = k.cq := rfl

theorem searchStep_withTx : (k.withTx x).searchStep = k.searchStep.withTx x := by
  simp only [searchStep_eq, apply_ite (Block.withTx · x)]
  rfl

theorem headerEnd_withTx : (k.withTx x).headerEnd = k.headerEnd.withTx x := by
  simp only [headerEnd_eq, apply_ite (Block.withTx · x)]
  rfl

theorem headerStep_withTx (b : Bool) : (k.withTx x).headerStep b = (k.headerStep b).withTx x := by
  simp only [Block.headerStep, apply_ite (Block.withTx · x), ← headerEnd_withTx]
  rfl

theorem bodyStep_withTx (b : Bool) : (k.withTx x).bodyStep b = (k.bodyStep b).withTx x := by
  simp only [Block.bodyStep, apply_ite (Block.withTx · x)]
  rfl

theorem rxBit_withTx (b : Bool) : (k.withTx x).rxBit b = (k.rxBit b).withTx x := by
  cases hstate : k.rxState with
  | search =>
    rw [rxBit_search k b hstate, rxBit_search (k.withTx x) b hstate]
    exact searchStep_withTx (k.shiftIn b) x
  | header =>
    rw [rxBit_header k b hstate, rxBit_header (k.withTx x) b hstate]
    exact headerStep_withTx (k.shiftIn b) x b
  | body =>
    rw [rxBit_body k b hstate, rxBit_body (k.withTx x) b hstate]
    exact bodyStep_withTx (k.shiftIn b) x b

theorem rxBits_withTx (bs : List Bool) : (k.withTx x).rxBits bs = (k.rxBits bs).withTx x := by
  induction bs generalizing k with
  | nil => rfl
  | cons b bs ih => rw [rxBits_cons, rxBits_cons, rxBit_withTx, ih]

end withTx

/-! ### The receive side -/

/-- What an operation of the receive side did, it does in every state with other transmit registers, with the same
responses, none of them on port T. -/
def IgnoresTx (P : Config.Params) (j : Instr) (s t : State) : Prop :=
  ∃ rs : List Response, (∀ r ∈ rs, r.port ≠ .t) ∧ t.responses = s.responses ++ rs ∧
    ∀ (x : Block) (s' : State), s'.blk = s.blk.withTx x → s'.decHeld = s.decHeld →
      execWith P j s' = .next { s' with
        blk := t.blk.withTx x, decHeld := t.decHeld, responses := s'.responses ++ rs }

section ignoresTx
variable {P : Config.Params} {j : Instr} {s t : State}

/-- An operation that ends with a block it computes from what `withTx` leaves. -/
theorem ignoresTx_ends {st : Status} {rs : List Byte} {f : Block → Block} (hj : isStreaming j = true)
    (hport : isTransmit j = false) (hf : ∀ x, f (s.blk.withTx x) = (f s.blk).withTx x)
    (h : ∀ (x : Block) (s' : State), s'.blk = s.blk.withTx x → execWith P j s' = .next (s'.finish j (f s'.blk) st rs)) :
    IgnoresTx P j s (s.finish j (f s.blk) st rs) := by
  rw [finish_of_streaming s _ st rs hj]
  refine ⟨[⟨j.port, st, rs⟩], fun r hr => ?_, rfl, fun x s' hs' hheld => ?_⟩
  · rw [List.mem_singleton.1 hr]
    exact of_decide_eq_false hport
  · rw [h x s' hs', finish_of_streaming s' _ st rs hj, hs', hf, hheld]

theorem ignoresTx_of_gate {st : Status} (hj : isStreaming j = true) (hport : isTransmit j = false)
    (hgate : s.blk.gate = some st) : IgnoresTx P j s (s.finish j s.blk st []) :=
  ignoresTx_ends (f := id) hj hport (fun _ => rfl) fun _ _ hs' => execWith_of_gate hj (hs' ▸ hgate)

theorem execRxbit_ignoresTx {b : Bool} (h : execRxbit b s = .next t) : IgnoresTx P (.rxbit b) s t := by
  obtain ⟨st, hgate, rfl⟩ | ⟨hrun, rfl⟩ := execRxbit_cases h
  · exact ignoresTx_of_gate (j := .rxbit b) rfl rfl hgate
  · refine ignoresTx_ends (j := .rxbit b) (f := (Block.rxBit · b)) rfl rfl (rxBit_withTx s.blk · b)
      fun _ s' hs' => ?_
    simp only [execWith, execRxbit, gate_of_running s'.blk (hs' ▸ hrun)]
    rfl

theorem execRxbyte_ignoresTx {v : Byte} (h : execRxbyte v s = .next t) : IgnoresTx P (.rxbyte v) s t := by
  obtain ⟨st, hgate, rfl⟩ | ⟨hrun, rfl⟩ := execRxbyte_cases h
  · exact ignoresTx_of_gate (j := .rxbyte v) rfl rfl hgate
  · exact ignoresTx_ends (j := .rxbyte v) (f := (Block.rxBits · (byteBits v))) rfl rfl
      (rxBits_withTx s.blk · _) fun _ _ hs' => execRxbyte_of_running v (hs' ▸ hrun)

theorem execRel_ignoresTx {b : Byte} (h : execRel b s = .next t) : IgnoresTx P (.rel b) s t := by
  obtain ⟨st, hgate, rfl⟩ | ⟨hrun, hown, rfl⟩ | ⟨hrun, hown, rfl⟩ := execRel_cases h
  · exact ignoresTx_of_gate (j := .rel b) rfl rfl hgate
  · exact ignoresTx_ends (j := .rel b) (f := id) rfl rfl (fun _ => rfl) fun _ _ hs' =>
      execRel_of_not_inflight (hs' ▸ hrun) (hs' ▸ hown)
  · exact ignoresTx_ends (j := .rel b) (f := (Block.setOwn · b.toNat .free)) rfl rfl (fun _ => rfl)
      fun _ _ hs' => execRel_of_inflight (hs' ▸ hrun) (hs' ▸ hown)

theorem execBufrdWith_ignoresTx {h : Byte} {off : BitVec 16} (hexec : execBufrdWith P h off s = .next t) :
    IgnoresTx P (.bufrd h off) s t := by
  obtain ⟨st, hgate, rfl⟩ | ⟨hrun, hout, rfl⟩ | ⟨hrun, n, v, hown, hlen, hoff, hcap, hv, rfl⟩ :=
    execBufrdWith_reads hexec
  · exact ignoresTx_of_gate (j := .bufrd h off) rfl rfl hgate
  · exact ignoresTx_ends (j := .bufrd h off) (f := id) rfl rfl (fun _ => rfl) fun _ _ hs' =>
      execBufrdWith_of_outside (hs' ▸ hrun) (hs' ▸ hout)
  · exact ignoresTx_ends (j := .bufrd h off) (f := id) rfl rfl (fun _ => rfl) fun _ _ hs' =>
      (execBufrdWith_of_inside (hs' ▸ hrun) (hs' ▸ hown) (hs' ▸ hlen) hoff).trans
        (readOwned_of_some hcap (hs' ▸ hv))

theorem acquireAndPost_ignoresTx {c : Candidate} {rest : List Candidate} {payload : List Byte}
    (hrun : s.blk.Running) (hstop : s.blk.stop = false) (hcq : s.blk.cq = c :: rest)
    (hd : decodeCandidate P c = .success payload) : IgnoresTx P .dec s (acquireAndPost P payload rest s) := by
  have posts : ∀ (x : Block) (s' : State), s'.blk = s.blk.withTx x →
      execWith P .dec s' = .next (acquireAndPost P payload rest s') := fun x s' hs' =>
    execDecWith_of_success (hs' ▸ hrun) (hs' ▸ hstop) (hs' ▸ hcq) hd
  obtain ⟨hnone, e⟩ | ⟨h0, hs, hfree, hlong, e⟩ | ⟨h0, hs, hfree, hfits, e⟩ := acquireAndPost_cases P payload rest s <;>
    rw [e]
  · exact ignoresTx_ends (j := .dec) (f := (Block.sleepBackoff P ·)) rfl rfl (fun _ => rfl) fun x s' hs' =>
      (posts x s' hs').trans (congrArg _ (acquireAndPost_of_exhausted (hs' ▸ hnone)))
  · refine ignoresTx_ends (j := .dec) (f := Block.flagFault) rfl rfl (fun _ => rfl) fun x s' hs' =>
      (posts x s' hs').trans (congrArg _ ?_)
    have hfree' : s'.blk.freeHandles = h0 :: hs := hs' ▸ hfree
    simp only [acquireAndPost, hfree', if_pos hlong]
    rfl
  · refine ignoresTx_ends (j := .dec) (f := (Block.handOver · (grant P h0 hs) payload rest)) rfl rfl (fun _ => rfl)
      fun x s' hs' => (posts x s' hs').trans (congrArg _ ?_)
    have hfree' : s'.blk.freeHandles = h0 :: hs := hs' ▸ hfree
    simp only [acquireAndPost, hfree', if_neg (Nat.not_lt.2 hfits)]
    rfl

theorem execDecWith_ignoresTx (h : execDecWith P s = .next t) : IgnoresTx P .dec s t := by
  obtain ⟨r, hr, rfl⟩ | ⟨hrun, hstop, hcq, rfl⟩ | ⟨hrun, hstop, c, rest, hcq, hd, rfl⟩ |
    ⟨hrun, hstop, c, rest, payload, hcq, hd, rfl⟩ := execDecWith_cases h
  · exact ignoresTx_ends (j := .dec) (f := id) rfl rfl (fun _ => rfl) fun _ _ hs' =>
      execDecWith_of_refused (hs' ▸ hr)
  · refine ⟨[], nofun, (List.append_nil _).symm, fun x s' hs' _ => ?_⟩
    refine (execDecWith_of_empty (s := s') (hs' ▸ hrun) (hs' ▸ hstop) (hs' ▸ hcq)).trans ?_
    rw [List.append_nil, ← hs']
  · exact ignoresTx_ends (j := .dec) (f := (Block.postFail · rest)) rfl rfl (fun _ => rfl) fun _ _ hs' =>
      execDecWith_of_failure (hs' ▸ hrun) (hs' ▸ hstop) (hs' ▸ hcq) hd
  · exact acquireAndPost_ignoresTx hrun hstop hcq hd

/-- No operation of the receive side reads a transmit register (20_memory R57). -/
theorem execWith_ignoresTx (hj : isReceiveSide j = true) (h : execWith P j s = .next t) : IgnoresTx P j s t := by
  cases j with
  | nop | reset | cfg | cancel | rdcsr | txev | txdrain => cases hj
  | rxbit => exact execRxbit_ignoresTx h
  | rxbyte => exact execRxbyte_ignoresTx h
  | dec => exact execDecWith_ignoresTx h
  | bufrd => exact execBufrdWith_ignoresTx h
  | rel => exact execRel_ignoresTx h

end ignoresTx

/-! ### The transmit side -/

/-- Two blocks that port T cannot tell apart: it reads the flags of the gate, the configuration and its own
registers. -/
structure SameForTx (k l : Block) : Prop where
  gate : l.gate = k.gate
  acLen : l.acLen = k.acLen
  pat : l.pat = k.pat
  wen : l.wen = k.wen
  sps : l.sps = k.sps
  bps : l.bps = k.bps
  pq : l.pq = k.pq
  wOff : l.wOff = k.wOff
  txOut : l.txOut = k.txOut
  idleTmr : l.idleTmr = k.idleTmr

section sameForTx
variable {P : Config.Params} {k l : Block}

theorem SameForTx.running (h : SameForTx k l) (hrun : k.Running) : l.Running := by
  rw [← gate_eq_none, h.gate, gate_eq_none]
  exact hrun

theorem SameForTx.eq_withTx (h : SameForTx k l) : l = l.withTx k := by
  simp only [Block.withTx, ← h.pq, ← h.wOff, ← h.txOut, ← h.idleTmr]

theorem SameForTx.bodyOf (h : SameForTx k l) (data : List Byte) (o : BitVec 4) :
    bodyOf P l data o = bodyOf P k data o := by
  simp only [Machine.bodyOf, h.sps, h.bps]

theorem SameForTx.encodeFrame (h : SameForTx k l) (data : List Byte) (o : BitVec 4) :
    encodeFrame P l data o = encodeFrame P k data o := by
  simp only [Machine.encodeFrame, frameOf, frameBits, codeBits, h.bodyOf, h.acLen, h.pat]

theorem SameForTx.encodeDatagram (h : SameForTx k l) (data : List Byte) :
    l.encodeDatagram P data = l.withTx (k.encodeDatagram P data) := by
  simp only [Block.encodeDatagram_eq, Block.withTx, h.encodeFrame, h.pq, h.wOff, h.wen, h.txOut, h.idleTmr]

theorem SameForTx.drain (h : SameForTx k l) (n : Nat) : l.drain n = l.withTx (k.drain n) := by
  simp only [Block.drain, Block.withTx, h.pq, h.wOff, h.txOut, h.idleTmr]

theorem SameForTx.sleepIdle (h : SameForTx k l) : l.sleepIdle P = l.withTx (k.sleepIdle P) := by
  simp only [Block.sleepIdle, Block.withTx, h.pq, h.wOff, h.txOut]

end sameForTx

/-- What an operation of port T did, it does in every state that port T cannot tell from this one. -/
def IgnoresRx (P : Config.Params) (i : Instr) (s t : State) : Prop :=
  ∃ r : Response, r.port = .t ∧ t.responses = s.responses ++ [r] ∧ t.decHeld = s.decHeld ∧
    t.blk = s.blk.withTx t.blk ∧
    ∀ s' : State, SameForTx s.blk s'.blk → execWith P i s' = .next { s' with
      blk := s'.blk.withTx t.blk, responses := s'.responses ++ [r] }

section ignoresRx
variable {P : Config.Params} {i : Instr} {s t : State}

/-- An operation that completes on port T with transmit registers it computes from what port T reads. -/
theorem ignoresRx_complete {k : Block} {st : Status} {rs : List Byte} (hk : k = s.blk.withTx k)
    (h : ∀ s' : State, SameForTx s.blk s'.blk → execWith P i s' = .next (s'.complete .t (s'.blk.withTx k) st rs)) :
    IgnoresRx P i s (s.complete .t k st rs) :=
  ⟨⟨.t, st, rs⟩, rfl, rfl, rfl, hk, h⟩

theorem execTxevWith_ignoresRx {kind : Byte} {data : List Byte} (h : execTxevWith P kind data s = .next t) :
    IgnoresRx P (.txev kind data) s t := by
  obtain ⟨st, hgate, rfl⟩ | ⟨hrun, hkind, rfl⟩ | ⟨hrun, rfl, hlong, rfl⟩ | ⟨hrun, rfl, hfits, rfl⟩ :=
    execTxevWith_cases h
  · refine ignoresRx_complete rfl fun s' hs' => ?_
    rw [← hs'.eq_withTx]
    exact execWith_of_gate rfl (hs'.gate.trans hgate)
  · refine ignoresRx_complete rfl fun s' hs' => ?_
    rw [← hs'.eq_withTx]
    exact (execTxevWith_of_running kind data (hs'.running hrun)).trans (if_pos hkind)
  · refine ignoresRx_complete rfl fun s' hs' => ?_
    rw [← hs'.eq_withTx]
    refine (execTxevWith_of_running 0x01 data (hs'.running hrun)).trans ?_
    rw [if_neg (not_not.2 rfl), hs'.bodyOf, hs'.wOff, if_pos hlong]
  · refine ignoresRx_complete (by rw [Block.encodeDatagram_eq]; rfl) fun s' hs' => ?_
    rw [← hs'.encodeDatagram]
    refine (execTxevWith_of_running 0x01 data (hs'.running hrun)).trans ?_
    rw [if_neg (not_not.2 rfl), hs'.bodyOf, hs'.wOff, if_neg (Nat.not_lt.2 hfits)]

theorem execTxdrainWith_ignoresRx {cap : BitVec 16} (h : execTxdrainWith P cap s = .next t) :
    IgnoresRx P (.txdrain cap) s t := by
  obtain ⟨st, hgate, rfl⟩ | ⟨hrun, hempty, rfl⟩ | ⟨hrun, hne, rfl⟩ := execTxdrainWith_cases h
  · refine ignoresRx_complete rfl fun s' hs' => ?_
    rw [← hs'.eq_withTx]
    exact execWith_of_gate rfl (hs'.gate.trans hgate)
  · refine ignoresRx_complete rfl fun s' hs' => ?_
    rw [← hs'.sleepIdle]
    exact (execTxdrainWith_of_running cap (hs'.running hrun)).trans (if_pos (hs'.pq.trans hempty))
  · refine ignoresRx_complete rfl fun s' hs' => ?_
    have hcount : s'.blk.drainCount cap = s.blk.drainCount cap := by rw [Block.drainCount, Block.drainCount, hs'.pq]
    rw [← hs'.drain]
    refine (execTxdrainWith_of_running cap (hs'.running hrun)).trans ?_
    rw [hcount, hs'.pq, if_neg hne]

/-- No operation of port T reads a register that the receive side writes, but for the flags of the gate. -/
theorem execWith_ignoresRx (hi : isTransmit i = true) (h : execWith P i s = .next t) : IgnoresRx P i s t := by
  cases i with
  | txev => exact execTxevWith_ignoresRx h
  | txdrain => exact execTxdrainWith_ignoresRx h
  | nop | reset | cfg | cancel | rdcsr | rxbit | rxbyte | dec | bufrd | rel => cases hi

end ignoresRx

theorem tx_of_eq_withTx {k l : Block} (h : l = l.withTx k) :
    l.pq = k.pq ∧ l.wOff = k.wOff ∧ l.txOut = k.txOut ∧ l.idleTmr = k.idleTmr := by
  rw [h]
  exact ⟨rfl, rfl, rfl, rfl⟩

/-- An operation of the receive side that leaves `FAULT` is not seen by port T. -/
theorem sameForTx_of_receiveSide {P : Config.Params} {j : Instr} {s t : State} (hj : isReceiveSide j = true)
    (h : execWith P j s = .next t) (hfault : t.blk.fault = s.blk.fault) : SameForTx s.blk t.blk := by
  obtain ⟨_, -, -, hagain⟩ := execWith_ignoresTx hj h
  have hself : t.blk = t.blk.withTx s.blk :=
    congrArg State.blk (Host.Outcome.next.inj (h.symm.trans (hagain s.blk s rfl rfl)))
  obtain ⟨_, hc⟩ := execWith_blockChange h
  have hreset : j ≠ .reset := by rintro rfl; cases hj
  have hcfg : isCfg j = false := by
    cases j with
    | cfg => cases hj
    | _ => rfl
  have hsame := hc.sameConfig hreset (.inl hcfg)
  obtain ⟨hpq, hoff, hout, htmr⟩ := tx_of_eq_withTx hself
  exact ⟨gate_congr _ _ hfault hsame.ready, hsame.acLen, hsame.pat, hsame.wen, hsame.sps, hsame.bps, hpq, hoff, hout,
    htmr⟩

theorem responsesOn_append {s t : State} {rs : List Response} (h : t.responses = s.responses ++ rs) (p : Port) :
    t.responsesOn p = s.responsesOn p ++ rs.filter fun r => decide (r.port = p) := by
  rw [State.responsesOn, h, List.filter_append]
  rfl

/-- Settles O40: each operation does after the other what it did before it, and their responses are on other ports. -/
theorem pathsIndependent : Obligations.PathsIndependent := by
  unfold Obligations.PathsIndependent
  intro i j s si sij sj sji hi hj hsi hsij hsj hsji hfault
  rw [exec_eq_execWith] at hsi hsij hsj hsji
  obtain ⟨r, hr, hsiResp, hsiHeld, hsiBlk, hiAgain⟩ := execWith_ignoresRx hi hsi
  obtain ⟨rs, hrs, hsjResp, hjAgain⟩ := execWith_ignoresTx hj hsj
  have hij := hjAgain si.blk si hsiBlk hsiHeld
  have hji := hiAgain sj (sameForTx_of_receiveSide hj hsj hfault)
  have hij := Host.Outcome.next.inj (hsij.symm.trans hij)
  have hji := Host.Outcome.next.inj (hsji.symm.trans hji)
  refine ⟨by rw [hij, hji], by rw [hij, hji], fun p => ?_⟩
  have hsijResp : sij.responses = si.responses ++ rs := by rw [hij]
  have hsjiResp : sji.responses = sj.responses ++ [r] := by rw [hji]
  rw [responsesOn_append hsijResp, responsesOn_append hsiResp, responsesOn_append hsjiResp, responsesOn_append hsjResp,
    List.append_assoc, List.append_assoc]
  congr 1
  by_cases hp : p = .t
  · have hnone : rs.filter (fun r => decide (r.port = p)) = [] :=
      List.filter_eq_nil_iff.2 fun r' hr' => by simpa [hp] using hrs r' hr'
    rw [hnone, List.append_nil, List.nil_append]
  · have hnone : [r].filter (fun r => decide (r.port = p)) = [] :=
      List.filter_eq_nil_iff.2 fun r' hr' => by
        rw [List.mem_singleton.1 hr', hr]
        simpa using Ne.symm hp
    rw [hnone, List.append_nil, List.nil_append]

end Sys2Proof.Machine
end

section
/-! The ports (20_memory R54, R55): the turn and the packet that a step takes, a held DEC, and an RXBYTE taken bit by
bit (43_correlator R117); and the encoding on the words of the spec (30_encoding). -/

namespace Sys2Proof.Machine

/-! ### One turn -/

section turn
variable {ex : Meaning} {s t : State} {p : Port} {c : Packet} {rest : List Packet} {ts : List Turn}

theorem step_of_turn {tn : Turn} (h : s.turns = tn :: ts) : step s = takeTurn exec tn { s with turns := ts } := by
  simp only [step, stepWith, h]

/-- A port with no operation in progress begins its next packet. -/
theorem runTurn_of_idle (hd : p = .d → s.decHeld = false) (hr : p = .r → s.rxPend = []) :
    runTurn ex p s = beginNext ex p s := by
  cases p with
  | c | t | b => rfl
  | d => simp only [runTurn, hd rfl, Bool.false_eq_true, if_false]
  | r => simp only [runTurn, hr rfl, List.isEmpty_nil, if_true]

theorem beginNext_of_packet (h : s.inputs.get p = c :: rest) :
    beginNext ex p s = runPacket ex p c (s.accept p rest) := by
  simp only [beginNext, h]

/-- The step of a port with no operation in progress and a packet waiting. -/
theorem step_of_packet (hturn : s.turns = .run p :: ts) (hpacket : s.inputs.get p = c :: rest)
    (hd : p = .d → s.decHeld = false) (hr : p = .r → s.rxPend = []) :
    step s = runPacket exec p c { s with turns := ts, inputs := s.inputs.put p rest } := by
  rw [step_of_turn hturn]
  exact (runTurn_of_idle (s := { s with turns := ts }) hd hr).trans
    (beginNext_of_packet (s := { s with turns := ts }) hpacket)

theorem runPacket_of_ok {i : Instr} (h : decode p c = .ok i) : runPacket ex p c s = ex i s := by
  simp only [runPacket, h]

theorem runPacket_of_error {e : Illegal} (h : decode p c = .error e) :
    runPacket ex p c s = .next (s.complete p s.blk .illegal []) := by
  simp only [runPacket, h]

end turn

/-- Settles O48, from the step of a port with a packet waiting. -/
theorem stepRunsPacket : Obligations.StepRunsPacket := by
  unfold Obligations.StepRunsPacket
  intro s p c rest ts i hturn hpacket hdecode hd hr
  rw [step_of_packet hturn hpacket hd hr, runPacket_of_ok hdecode]

/-- Settles O49, from the step of a port with a packet waiting. -/
theorem stepIllegal : Obligations.StepIllegal := by
  unfold Obligations.StepIllegal
  intro s p c rest ts e hturn hpacket hdecode hd hr
  rw [step_of_packet hturn hpacket hd hr, runPacket_of_error hdecode]
  rfl

/-! ### A held DEC -/

theorem port_of_decode {p : Port} {c : Packet} {i : Instr} (h : decode p c = .ok i) : i.port = p :=
  (encodeDecode p c i h).2.1

/-- Only `RESET`, `CANCEL` and the `DEC` itself end a hold (log 6). -/
theorem decHeld_of_exec {i : Instr} {s t : State} (h : exec i s = .next t) (hheld : s.decHeld = true) :
    t.decHeld = true ∨ i = .dec ∨ i = .reset ∨ i = .cancel := by
  rw [exec_eq_execWith] at h
  obtain ⟨-, -, -, -, rfl⟩ | ⟨k, st, rs, -, rfl⟩ := execWith_cases h
  · exact .inl rfl
  obtain ⟨hi, -⟩ | ⟨hi, -⟩ | ⟨-, -, -, e⟩ := s.finish_cases i k st rs
  · exact .inr (.inl hi)
  · exact .inr (.inr hi)
  · rw [e]
    exact .inl hheld

/-- The next packet of a port other than D ends a hold only if it is a `RESET` or a `CANCEL`. -/
theorem decHeld_of_beginNext {p : Port} {s t : State} (hp : p ≠ .d) (hheld : s.decHeld = true)
    (h : beginNext exec p s = .next t) : t.decHeld = true ∨
      ∃ c rest, s.inputs.get p = c :: rest ∧ (decode p c = .ok .reset ∨ decode p c = .ok .cancel) := by
  obtain ⟨-, rfl⟩ | ⟨c, rest, hpacket, ⟨i, hdecode, hexec⟩ | ⟨e, -, rfl⟩⟩ := beginNext_cases h
  · exact .inl hheld
  · obtain hkept | rfl | rfl | rfl := decHeld_of_exec hexec hheld
    · exact .inl hkept
    · exact absurd (port_of_decode hdecode).symm hp
    · exact .inr ⟨c, rest, hpacket, .inl hdecode⟩
    · exact .inr ⟨c, rest, hpacket, .inr hdecode⟩
  · exact .inl hheld

theorem rxContinue_decHeld (now later : List Bool) (s : State) : (rxContinue now later s).decHeld = s.decHeld := by
  obtain ⟨-, e⟩ | ⟨-, e⟩ := rxContinue_cases now later s <;> rw [e]
  rfl

theorem rxBegin_decHeld (v : Byte) (s : State) : (rxBegin v s).decHeld = s.decHeld := by
  obtain ⟨st, -, e⟩ | ⟨-, e⟩ := rxBegin_cases v s <;> rw [e]
  · rfl
  · exact rxContinue_decHeld _ _ s

/-- A turn of another port than D. -/
theorem decHeld_of_runTurn {p : Port} {s t : State} (hp : p ≠ .d) (hheld : s.decHeld = true)
    (h : runTurn exec p s = .next t) : t.decHeld = true ∨
      ∃ c rest, s.inputs.get p = c :: rest ∧ (decode p c = .ok .reset ∨ decode p c = .ok .cancel) := by
  by_cases hr : p = .r → s.rxPend = []
  · rw [runTurn_of_idle (fun hd => absurd hd hp) hr] at h
    exact decHeld_of_beginNext hp hheld h
  · push Not at hr
    obtain ⟨rfl, hpend⟩ := hr
    simp only [runTurn, List.isEmpty_iff, if_neg hpend] at h
    cases h
    exact .inl ((rxContinue_decHeld _ _ s).trans hheld)

/-- A bit step of port R ends no hold, since no packet of port R is a `RESET` or a `CANCEL`. -/
theorem decHeld_of_rxStepTurn {s t : State} (hheld : s.decHeld = true) (h : rxStepTurn exec s = .next t) :
    t.decHeld = true := by
  unfold rxStepTurn at h
  split at h
  · cases h
    exact (rxContinue_decHeld _ _ s).trans hheld
  split at h
  · cases h
    exact hheld
  split at h
  · cases h
    exact (rxBegin_decHeld _ _).trans hheld
  · obtain hkept | ⟨c, rest, -, hdecode | hdecode⟩ := decHeld_of_beginNext (p := .r) nofun hheld h
    · exact hkept
    · cases port_of_decode hdecode
    · cases port_of_decode hdecode

/-- Settles O50, turn by turn. -/
theorem stepIdleAndHeld : Obligations.StepIdleAndHeld := by
  unfold Obligations.StepIdleAndHeld
  refine ⟨fun s hnone => ?idle, fun s ts hturn hheld => ?held, fun s t p ts hturn hp hheld hstep hended => ?others,
    fun s t ts hturn hheld hstep => ?bit⟩
  case idle => simp only [step, stepWith, hnone]
  case held =>
    rw [step_of_turn hturn]
    exact if_pos hheld
  case others =>
    rw [step_of_turn hturn] at hstep
    obtain hkept | hpacket := decHeld_of_runTurn (s := { s with turns := ts }) hp hheld hstep
    · exact absurd hkept (Bool.eq_false_iff.1 hended)
    · exact hpacket
  case bit =>
    rw [step_of_turn hturn] at hstep
    exact decHeld_of_rxStepTurn (s := { s with turns := ts }) hheld hstep

/-! ### An RXBYTE bit by bit -/

/-- A bit step of an `RXBYTE` in progress (43_correlator R117). -/
theorem step_rxStep {s : State} {b : Bool} {later : List Bool} {ts : List Turn} (hturn : s.turns = .rxStep :: ts)
    (hpend : s.rxPend = b :: later) : step s = .next { s with
      turns := ts, blk := s.blk.byteSteps [b], rxPend := later
      responses := s.responses ++ (if later = [] then [⟨.r, .ok, []⟩] else []) } := by
  have hcont : step s = .next (rxContinue [b] later { s with turns := ts }) := by
    rw [step_of_turn hturn]
    simp only [takeTurn, rxStepTurn, hpend]
  rw [hcont]
  obtain ⟨rfl, e⟩ | ⟨hne, e⟩ := rxContinue_cases [b] later { s with turns := ts } <;> rw [e]
  · rfl
  · rw [if_neg hne, List.append_nil]

/-- All the bits that remain, in one turn. -/
theorem step_run_pending {s : State} {ts : List Turn} (hturn : s.turns = .run .r :: ts) (hpend : s.rxPend ≠ []) :
    step s = .next { s with
      turns := ts, blk := s.blk.byteSteps s.rxPend, rxPend := []
      responses := s.responses ++ [⟨.r, .ok, []⟩] } := by
  rw [step_of_turn hturn]
  simp only [takeTurn, runTurn, List.isEmpty_iff, if_neg hpend]
  rfl

theorem run_succ {n : Nat} {s t : State} (h : step s = .next t) :
    Host.Core.run Sys2Proof.core (n + 1) s = Host.Core.run Sys2Proof.core n t := by
  have hcore : Sys2Proof.core.step s = .next t := h
  simp only [Host.Core.run, hcore]

/-- As many bit steps as bits remain finish the byte. -/
theorem run_rxSteps (pend : List Bool) {s : State} {ts : List Turn} (hne : pend ≠ []) (hpend : s.rxPend = pend)
    (hturn : s.turns = List.replicate pend.length .rxStep ++ ts) :
    Host.Core.run Sys2Proof.core pend.length s = .next { s with
      turns := ts, blk := s.blk.byteSteps pend, rxPend := []
      responses := s.responses ++ [⟨.r, .ok, []⟩] } := by
  induction pend generalizing s with
  | nil => exact absurd rfl hne
  | cons b later ih =>
    rw [List.length_cons, run_succ (step_rxStep hturn hpend)]
    cases later with
    | nil => rfl
    | cons c cs =>
      rw [ih (List.cons_ne_nil c cs) rfl rfl]
      simp only [if_neg (List.cons_ne_nil c cs), List.append_nil]
      rw [← byteSteps_append]
      rfl

/-- The first bit step of a waiting `RXBYTE`. -/
theorem step_rxStep_begins {s : State} {c : Packet} {rest : List Packet} {ts : List Turn} {v : Byte}
    (hturn : s.turns = .rxStep :: ts) (hpend : s.rxPend = []) (hpacket : s.inputs.r = c :: rest)
    (hdecode : decode .r c = .ok (.rxbyte v)) :
    step s = .next (rxBegin v { s with turns := ts, inputs := s.inputs.put .r rest }) := by
  have hget : s.inputs.get .r = c :: rest := hpacket
  rw [step_of_turn hturn]
  simp only [takeTurn, rxStepTurn, hpend, hget, hdecode]
  rfl

theorem rxBegin_of_running (v : Byte) {s : State} (h : s.blk.Running) :
    rxBegin v s = { s with blk := s.blk.byteSteps ((byteBits v).take 1), rxPend := (byteBits v).drop 1 } := by
  simp only [rxBegin, gate_of_running _ h]
  rfl

theorem step_rxStep_first {s : State} {c : Packet} {rest : List Packet} {ts : List Turn} {v : Byte}
    (hturn : s.turns = .rxStep :: ts) (hpend : s.rxPend = []) (hpacket : s.inputs.r = c :: rest)
    (hdecode : decode .r c = .ok (.rxbyte v)) (hrun : s.blk.Running) :
    step s = .next { s with
      turns := ts, inputs := s.inputs.put .r rest, blk := s.blk.byteSteps ((byteBits v).take 1)
      rxPend := (byteBits v).drop 1 } :=
  (step_rxStep_begins hturn hpend hpacket hdecode).trans
    (congrArg _ (rxBegin_of_running (s := { s with turns := ts, inputs := s.inputs.put .r rest }) v hrun))

/-- Eight bit steps are one turn (43_correlator R117). -/
theorem run_rxStep_eight {s : State} {c : Packet} {rest : List Packet} {ts : List Turn} {v : Byte}
    (hpend : s.rxPend = []) (hpacket : s.inputs.r = c :: rest) (hdecode : decode .r c = .ok (.rxbyte v))
    (hrun : s.blk.Running) :
    Host.Core.run Sys2Proof.core 8 { s with turns := List.replicate 8 .rxStep ++ ts } =
      .next { s with
        turns := ts, inputs := s.inputs.put .r rest, blk := s.blk.rxBits (byteBits v)
        responses := s.responses ++ [⟨.r, .ok, []⟩] } := by
  have hfirst := step_rxStep_first (s := { s with turns := List.replicate 8 .rxStep ++ ts }) rfl hpend hpacket hdecode
    hrun
  have hready : (s.blk.rxBits ((byteBits v).take 1)).ready = true := (rxBits_ready _ _).trans hrun.2
  refine (run_succ hfirst).trans ((run_rxSteps ((byteBits v).drop 1) (List.cons_ne_nil _ _) rfl rfl).trans ?_)
  simp only [byteSteps_ready _ _ hrun.2, byteSteps_ready _ _ hready, ← rxBits_append, List.take_append_drop, hpend]

/-- Settles O51: in progress the bits come first, at the beginning the checks. -/
theorem rxbyteInSteps : Obligations.RxbyteInSteps := by
  unfold Obligations.RxbyteInSteps
  refine ⟨fun s c rest ts v hpend hpacket hdecode => ?_, fun s b later ts hturn hpend => ?_,
    fun s ts hturn hpend => ?_⟩
  · have hturn : step { s with turns := .run .r :: ts } =
        execRxbyte v { s with turns := ts, inputs := s.inputs.put .r rest } :=
      (step_of_packet (s := { s with turns := .run .r :: ts }) rfl hpacket nofun fun _ => hpend).trans
        (runPacket_of_ok hdecode)
    rw [hturn]
    constructor
    · intro hrun
      exact (run_rxStep_eight hpend hpacket hdecode hrun).trans
        (execRxbyte_of_running (s := { s with turns := ts, inputs := s.inputs.put .r rest }) v hrun).symm
    · intro hrun
      obtain ⟨st, hgate⟩ := Option.ne_none_iff_exists'.1 (mt (gate_eq_none s.blk).1 hrun)
      rw [step_rxStep_begins (s := { s with turns := .rxStep :: ts }) rfl hpend hpacket hdecode]
      simp only [rxBegin, execRxbyte, hgate]
  · exact step_rxStep hturn hpend
  · exact step_run_pending hturn hpend

/-! ### The words of the spec -/

/-- Settles O54: the packets and the table of opcodes are evaluated, the count of an event is its two bytes. -/
theorem specWords : Obligations.SpecWords := by
  unfold Obligations.SpecWords
  refine ⟨?packets, ?opcodes, ?statuses, fun _ _ _ => rfl, fun h n => ?datagram, rfl⟩
  case packets => exact ⟨rfl, rfl, rfl, rfl, rfl, rfl, rfl, rfl, rfl⟩
  case opcodes => decide
  case statuses => exact ⟨rfl, rfl, rfl, rfl, rfl, rfl, rfl, rfl, rfl, rfl, rfl⟩
  case datagram => exact congrArg (fun bs => [0x01, BitVec.ofNat 8 h] ++ bs) (bytes16_ofNat n)

end Sys2Proof.Machine
end

section
/-! The loopback (95_test_vectors section 4 property 7): a payload encoded, drained, fed back and decoded arrives
whole. -/

namespace Sys2Proof.Machine

/-! ### Out on port T -/

section transmit
variable {P : Config.Params} {s : State}

/-- One datagram and one drain of enough capacity send the frame out and touch transmit registers only. -/
theorem execAll_transmit {payload : List Byte} {cap : BitVec 16} (hrun : s.blk.Running) (hpq : s.blk.pq = [])
    (hfits : (P.packBody payload s.blk.sps s.blk.bps s.blk.wOff).length ≤ Config.bodyMax)
    (hcap : (encodeFrame P s.blk payload s.blk.wOff).length ≤ cap.toNat) :
    ∃ t, execAll (execWith P) [.txev 0x01 payload, .txdrain cap] s = .next t ∧ t.blk = s.blk.withTx t.blk ∧
      t.blk.txOut = s.blk.txOut ++ encodeFrame P s.blk payload s.blk.wOff := by
  have hencoded : (s.blk.encodeDatagram P payload).pq = encodeFrame P s.blk payload s.blk.wOff ∧
      (s.blk.encodeDatagram P payload).txOut = s.blk.txOut ∧
      s.blk.encodeDatagram P payload = s.blk.withTx (s.blk.encodeDatagram P payload) := by
    rw [Block.encodeDatagram_eq, hpq]
    exact ⟨rfl, rfl, rfl⟩
  obtain ⟨hq, hout, htx⟩ := hencoded
  obtain ⟨t, ht, hblk⟩ := execWith_txdrain_moves (P := P)
    (s := s.complete .t (s.blk.encodeDatagram P payload) .ok []) cap (encodeDatagram_running payload hrun)
  rw [State.complete_blk, hq, hout, List.take_of_length_le hcap] at hblk
  refine ⟨t, ?_, ?_, ?_⟩
  · rw [execAll_cons (execWith_txev_of_fits hrun hfits), execAll_singleton, ht]
  · rw [hblk, htx]
    rfl
  · rw [hblk]

end transmit

/-! ### Back in on port R -/

/-- A run of `RXBYTE` on a running block takes the bits of the bytes. -/
theorem execAll_rxbytes (P : Config.Params) (bytes : List Byte) {s : State} (hrun : s.blk.Running) :
    ∃ t, execAll (execWith P) (bytes.map .rxbyte) s = .next t ∧ t.blk = s.blk.rxBits (bytes.flatMap byteBits) := by
  induction bytes generalizing s with
  | nil => exact ⟨s, rfl, rfl⟩
  | cons v bytes ih =>
    obtain ⟨t, ht, hblk⟩ := ih (s := s.complete .r (s.blk.rxBits (byteBits v)) .ok []) (rxBits_running _ hrun)
    have hexec : execWith P (.rxbyte v) s = _ := execRxbyte_of_running v hrun
    refine ⟨t, (execAll_cons hexec).trans ht, ?_⟩
    rw [hblk, List.flatMap_cons, rxBits_append]
    rfl

/-- Less bits than a header lacks deliver nothing. -/
theorem rxBits_header_cq (bs : List Bool) {k : Block} (hstate : k.rxState = .header)
    (hshort : bs.length < k.rxCnt.toNat) : (k.rxBits bs).cq = k.cq := by
  induction bs generalizing k with
  | nil => rfl
  | cons b bs ih =>
    rw [List.length_cons] at hshort
    rw [rxBits_cons, rxBit_header_more b hstate (by omega)]
    refine ih hstate ?_
    show bs.length < (countDown k.rxCnt).toNat
    rw [countDown_toNat]
    omega

/-- What follows a frame delivers nothing before a header is complete. -/
theorem rxBits_search_cq (bs : List Bool) {k : Block} (hstate : k.rxState = .search) (hshort : bs.length ≤ 32) :
    (k.rxBits bs).cq = k.cq := by
  induction bs generalizing k with
  | nil => rfl
  | cons b bs ih =>
    rw [List.length_cons] at hshort
    rw [rxBits_cons, rxBit_search k b hstate, searchStep_eq]
    split
    · exact rxBits_header_cq bs rfl (Nat.lt_of_lt_of_le hshort (Nat.le_refl 32))
    · exact ih hstate (by omega)

/-- The access code as sent has no errors. -/
theorem codeErrors_codeBits (k : Block) : codeErrors k (codeBits k) = 0 := by
  refine List.countP_eq_zero.2 fun i hi => ?_
  have hi : i < k.acLen.toNat := List.mem_range.1 hi
  rw [codeBits, bitsMsb_eq_map, List.getElem?_map, List.getElem?_range hi]
  simp [BitVec.getLsbD]

/-- A receiver that has received nothing delivers the body of a frame of its own configuration. -/
theorem rxBits_frameOf {k : Block} (o : BitVec 4) {body : List Byte} (hstate : k.rxState = .search)
    (hfill : k.fill = 0) (hmin : 1 ≤ k.acLen.toNat) (hL : k.acLen.toNat ≤ 64) (hbody : body.length ≤ 4095) :
    (k.rxBits ((frameOf [] k o body).flatMap byteBits)).cq = k.cq ++ [⟨body, o⟩] := by
  have herr : codeErrors k (codeBits k) ≤ k.thr.toNat := codeErrors_codeBits k ▸ Nat.zero_le _
  obtain ⟨hq, hs⟩ := rxBits_frame_delivered o hstate hfill hmin hL (codeBits_length k) hbody herr
  have hpad : ∀ n, (padBits n).length ≤ 32 := fun n => (padBits_length n).1.le.trans (by decide)
  rw [flatMap_frameOf, rxBits_append, frameBits, List.nil_append]
  exact (rxBits_search_cq _ hs (hpad _)).trans hq

/-! ### Into a buffer -/

/-- A `DEC` of a good candidate that fits, with a buffer `FREE`: the buffer that holds the payload afterwards. -/
theorem execWith_dec_delivers {P : Config.Params} {s : State} {c : Candidate} {rest : List Candidate}
    {payload : List Byte} (hP : P.SizesFit) (hrun : s.blk.Running) (hstop : s.blk.stop = false)
    (hcq : s.blk.cq = c :: rest) (hunpack : P.unpack c.raw c.aux = (true, payload))
    (hfree : ∃ h : Nat, s.blk.own h = some .free) (hfits : payload.length ≤ P.poolC) :
    ∃ (t : State) (h : Nat) (n : BitVec 13), execWith P .dec s = .next t ∧ t.blk = s.blk.handOver h payload rest ∧
      s.blk.own h = some .free ∧ t.blk.own h = some .inflight ∧ t.blk.len h = some n ∧ n.toNat = payload.length ∧
      ∀ off, off < payload.length → t.blk.poolByte h off = payload[off]? := by
  obtain ⟨h, hh, hpost⟩ := acquireAndPost_of_fits (P := P) (rest := rest) hfree hfits
  have hstride := le_poolStride hP hfits
  have hget := handOver_get s.blk h payload rest h (own_lt _ _ _ hh)
  rw [if_pos rfl] at hget
  exact ⟨s.completeDec (s.blk.handOver h payload rest) .ok [0x01], h, BitVec.ofNat 13 payload.length,
    (execWith_dec_of_success hrun hstop hcq hunpack).trans (congrArg _ hpost), rfl, hh, own_of_get _ _ _ hget,
    len_of_get _ _ _ hget, len_toNat _ _ hfits hP.2.2.2, poolByte_handOver_inside _ _ _ _ hstride⟩

/-- Settles O42: the frame goes out, its bits deliver the candidate, and the `DEC` hands its payload over. -/
theorem loopbackDelivers : Obligations.LoopbackDelivers := by
  unfold Obligations.LoopbackDelivers
  intro P s payload cap hP hround hpre hrun hstop hpat hstate hfill hcq hpq hfree hbody hfits hcap
  obtain ⟨hmin, hL, -⟩ := hpat hrun.2
  obtain ⟨u, hu, hutx, huout⟩ := execAll_transmit hrun hpq hbody hcap
  have hurun : u.blk.Running := by rw [hutx]; exact hrun
  obtain ⟨w, hw, hwblk⟩ := execAll_rxbytes P (encodeFrame P s.blk payload s.blk.wOff) hurun
  rw [hutx, rxBits_withTx] at hwblk
  have hwcq : w.blk.cq = [⟨bodyOf P s.blk payload s.blk.wOff, s.blk.wOff⟩] := by
    rw [hwblk, Block.withTx_cq, encodeFrame, hpre]
    exact (rxBits_frameOf s.blk.wOff hstate hfill hmin hL hbody).trans (by rw [hcq]; rfl)
  have hframe : w.blk.Running ∧ w.blk.stop = false ∧ w.blk.pool = s.blk.pool ∧ w.blk.evOut = s.blk.evOut ∧
      w.blk.txOut = u.blk.txOut := by
    rw [hwblk, rxBits_frame]
    exact ⟨hrun, hstop, rfl, rfl, rfl⟩
  obtain ⟨hwrun, hwstop, hwpool, hwev, hwout⟩ := hframe
  have hown : ∀ h : Nat, w.blk.own h = s.blk.own h := own_congr hwpool
  obtain ⟨t, h, n, ht, htblk, hwfree, hinflight, hlen, hn, hbytes⟩ := execWith_dec_delivers hP hwrun hwstop hwcq
    (hround payload s.blk.sps s.blk.bps s.blk.wOff hbody) (by simpa only [hown] using hfree) hfits
  refine ⟨t, h, n, ?_, ?_, hown h ▸ hwfree, hinflight, ?_, hlen, hn, hbytes⟩
  · rw [List.append_assoc, execAll_append hu, execAll_append hw, execAll_singleton, ht]
  · rw [htblk, ← huout, ← hwout]
    rfl
  · rw [htblk, Block.handOver_evOut, hwev]

end Sys2Proof.Machine
end
